-- ==== Sys2Proof/Word.lean ====
section
/-! DEFINITION. The word types of the HXU: bytes and nibbles, 64-bit addresses and registers, 32-bit
command words (spec/00_scope.md R9, R11, R12; spec/30_encoding.md R100). -/

namespace Sys2Proof

/-- One lane value, and one byte of the data memory: an unsigned 8-bit number (R12, R70). -/
abbrev Byte := BitVec 8

/-- A "4-bit half of a byte" (R18). -/
abbrev Nibble := BitVec 4

/-- A byte address of the data memory: ADDR_BITS = 64 (R9, R14). -/
abbrev Addr := BitVec 64

/-- A register of the host window, read and written whole (spec/10_state.md R40). -/
abbrev Word64 := BitVec 64

/-- A command word `w[31:0]` (R100). -/
abbrev CmdWord := BitVec 32

end Sys2Proof
end

