-- ==== Sys2Proof/Config.lean ====
section
/-! DEFINITION. What is fixed for one instance of the HXU (spec/00_scope.md R6 to R9): block width,
mapper, window base and the platform's admission predicate; and the free values, which nothing
in Lean can evaluate. -/

namespace Sys2Proof

/-- The block width W, "with a value in {1, 8, 16, 32, 64}" (R6). -/
inductive Width where
  | w1 | w8 | w16 | w32 | w64
  deriving DecidableEq, Repr

/-- W as a number of lanes (R6). -/
def Width.lanes : Width → Nat
  | .w1 => 1
  | .w8 => 8
  | .w16 => 16
  | .w32 => 32
  | .w64 => 64

/-- MAPPER, the technique of the nibble-to-ASCII mapping (R8). -/
inductive Mapper where
  | lut | arith
  deriving DecidableEq, Repr

/-- The kind of a unit memory access (spec/20_memory.md R74). -/
inductive AccessKind where
  | rd | wr
  deriving DecidableEq, Repr

/-- One rule of the platform's predicate `Admit`: accesses of this kind, of `nMin` to `nMax` bytes,
that lie inside `[lo, hi)`. `Admit` is a finite list of such rules, and every predicate on the
kinds, addresses and sizes of R74 is one (a rule can name a single access).
DESIGN CHOICE, safe: notes/assumptions/3.md. -/
structure AdmitRule where
  kind : AccessKind
  lo : Nat
  hi : Nat
  nMin : Nat
  nMax : Nat
  deriving DecidableEq, Repr

/-- The parameters of one instance, fixed for its life (R6 to R9; spec/10_state.md R55 calls them
configuration). DESIGN CHOICE, safe: State holds them in a field no step changes
(notes/assumptions/1.md). -/
structure Instance where
  width : Width
  mapper : Mapper
  hxuBase : Addr
  admits : List AdmitRule
  deriving DecidableEq, Repr

/-- The instance that State.reset holds. The spec leaves all four parameters to whoever builds the
unit. DESIGN CHOICE, unsafe for a claim about State.reset alone: notes/assumptions/2.md. -/
def Instance.default : Instance where
  width := .w8
  mapper := .lut
  hxuBase := 0xF000000000000000#64
  admits := [⟨.rd, 0, 2 ^ 64, 1, 128⟩, ⟨.wr, 0, 2 ^ 64, 1, 128⟩]

/-- The byte the platform put at an address that nobody has written: "an oracle answer, not zero"
(spec/20_memory.md R70), the same on every read of the address (R77). No body: nothing can be proved
of its values. DESIGN CHOICE, safe: notes/assumptions/5.md. -/
opaque Config.platformByte (addr : Nat) : Byte

/-- The value of a lane register's lanes right after reset. The spec leaves it open
(spec/10_state.md R31). DESIGN CHOICE, unsafe: notes/assumptions/4.md. -/
def Config.resetLane : Byte := 0x00#8

/-- The `k`-th free byte: "any value", after a race on a running macro's buffers
(spec/20_memory.md R82; spec/93_implementation_defined.md U8). No body: nothing can be proved of
its values. DESIGN CHOICE, safe: notes/assumptions/8.md. -/
opaque Config.freeByte (k : Nat) : Byte

end Sys2Proof
end

