-- ==== Sys2Proof/Syntax.lean ====
section
/-! DEFINITION. The 29 commands of the HXU (spec/30_encoding.md R105, spec/opcode_table.json), one
constructor per row, operands in the order of the assembly (R112). -/

namespace Sys2Proof

/-- A lane register V0 to V7 (spec/10_state.md R30; spec/30_encoding.md R102). -/
abbrev VReg := Fin 8

/-- A shift amount, 0 to 7 (spec/30_encoding.md R101). -/
abbrev ShiftAmt := Fin 8

/-- The case bit C: 0 = upper, 1 = lower (spec/30_encoding.md R101). -/
inductive CaseMode where
  | upper | lower
  deriving DecidableEq, Repr

/-- A command. -/
inductive Instr where
  | nop
  | ld (vd : VReg)
  | ld2 (vd ve : VReg)
  | st (va : VReg)
  | ldb (vd : VReg)
  | stb (va : VReg)
  | splat (vd : VReg) (imm8 : Byte)
  | and (vd va vb : VReg)
  | or (vd va vb : VReg)
  | xor (vd va vb : VReg)
  | add (vd va vb : VReg)
  | sub (vd va vb : VReg)
  | andi (vd va : VReg) (imm8 : Byte)
  | ori (vd va : VReg) (imm8 : Byte)
  | xori (vd va : VReg) (imm8 : Byte)
  | addi (vd va : VReg) (imm8 : Byte)
  | shli (vd va : VReg) (sh : ShiftAmt)
  | shri (vd va : VReg) (sh : ShiftAmt)
  | rng (vd va : VReg) (lo hi : Byte)
  | sel (vd vm va vb : VReg)
  | n2a (vd va : VReg) (c : CaseMode)
  | a2n (vd va : VReg)
  | cmb (vd va vb : VReg)
  | ilvlo (vd va vb : VReg)
  | ilvhi (vd va vb : VReg)
  | zipglo (vd va vb : VReg)
  | zipghi (vd va vb : VReg)
  | enc (c : CaseMode)
  | dec
  deriving DecidableEq, Repr

end Sys2Proof
end

