-- ==== Sys2Proof/WellFormed.lean ====
section
/-! DEFINITION. Which commands an instance of width W accepts (spec/30_encoding.md R108). The types of
Instr's fields already hold every other bound ("No other constraint exists"). -/

namespace Sys2Proof

/-- The operand constraints of R108: LD2 needs two different destinations, and the four reorder
commands need W >= 2 (spec/43_lane_reorder.md R210). -/
def Instr.wf (w : Width) : Instr → Bool
  | .nop => true
  | .ld _ => true
  | .ld2 vd ve => vd != ve
  | .st _ => true
  | .ldb _ => true
  | .stb _ => true
  | .splat _ _ => true
  | .and _ _ _ => true
  | .or _ _ _ => true
  | .xor _ _ _ => true
  | .add _ _ _ => true
  | .sub _ _ _ => true
  | .andi _ _ _ => true
  | .ori _ _ _ => true
  | .xori _ _ _ => true
  | .addi _ _ _ => true
  | .shli _ _ _ => true
  | .shri _ _ _ => true
  | .rng _ _ _ _ => true
  | .sel _ _ _ _ => true
  | .n2a _ _ _ => true
  | .a2n _ _ => true
  | .cmb _ _ _ => true
  | .ilvlo _ _ _ => w != .w1
  | .ilvhi _ _ _ => w != .w1
  | .zipglo _ _ _ => w != .w1
  | .zipghi _ _ _ => w != .w1
  | .enc _ => true
  | .dec => true

end Sys2Proof
end

