-- ==== Sys2Proof/Decode.lean ====
section
/-! DEFINITION. Decoding and encoding of command words (spec/30_encoding.md R100 to R111): a total
decoder that follows R110's checks, and an encoder written from the layouts of R103. -/

namespace Sys2Proof

/-- The thirteen formats (R103). -/
inductive Format where
  | x | xc | r2 | r3 | r4 | i8 | i16 | sh | n | sp | l | l2 | s
  deriving DecidableEq, Repr

/-- The "fixed mask" of a format: OP plus the reserved bits (R103). -/
def Format.mask : Format → CmdWord
  | .x => 0xFFFFFFFF#32
  | .xc => 0xFFFFFFFE#32
  | .r2 => 0xFC0FFFFF#32
  | .r3 => 0xFC01FFFF#32
  | .r4 => 0xFC003FFF#32
  | .i8 => 0xFC0FFF00#32
  | .i16 => 0xFC0F0000#32
  | .sh => 0xFC0FFFF8#32
  | .n => 0xFC0FFFFE#32
  | .sp => 0xFC7FFF00#32
  | .l => 0xFC7FFFFF#32
  | .l2 => 0xFC0FFFFF#32
  | .s => 0xFF8FFFFF#32

/-- `C = w[0]`: 0 = upper, 1 = lower (R101). -/
def CaseMode.ofBit (b : Bool) : CaseMode := if b then .lower else .upper

/-- The bit C of a case (R101). -/
def CaseMode.bit : CaseMode → BitVec 1
  | .upper => 0#1
  | .lower => 1#1

/-- The operand fields of a word (R101, R104); each command uses those its format names. -/
structure Fields where
  d : VReg
  a : VReg
  b : VReg
  m : VReg
  hi : Byte
  lo : Byte
  sh : ShiftAmt
  c : CaseMode
  deriving DecidableEq, Repr

/-- A 3-bit field with its lowest bit at `at_` (R102). -/
def field3 (w : CmdWord) (at_ : Nat) : Fin 8 := (w.extractLsb' at_ 3).toFin

/-- The last line of R110's pseudocode: D, A, B, M, HI, LO = IMM8, SH and C of `w`. -/
def Fields.of (w : CmdWord) : Fields where
  d := field3 w 23
  a := field3 w 20
  b := field3 w 17
  m := field3 w 14
  hi := w.extractLsb' 8 8
  lo := w.extractLsb' 0 8
  sh := field3 w 0
  c := .ofBit (w.getLsbD 0)

/-- The field `op <- w[31:26]` (R110). -/
def opOf (w : CmdWord) : BitVec 6 := w.extractLsb' 26 6

/-- A field with its lowest bit at `lo` (R101). -/
def place {k : Nat} (x : BitVec k) (lo : Nat) : CmdWord := x.setWidth 32 <<< lo

/-- The opcode map (R105): the format of an OP value and the command it names; none for an illegal
OP (R106). -/
def opRow (op : Nat) : Option (Format × (Fields → Instr)) :=
  match op with
  | 0x01 => some (.x, fun _ => .nop)
  | 0x02 => some (.l, fun f => .ld f.d)
  | 0x03 => some (.l2, fun f => .ld2 f.d f.a)
  | 0x04 => some (.s, fun f => .st f.a)
  | 0x05 => some (.l, fun f => .ldb f.d)
  | 0x06 => some (.s, fun f => .stb f.a)
  | 0x07 => some (.sp, fun f => .splat f.d f.lo)
  | 0x08 => some (.r3, fun f => .and f.d f.a f.b)
  | 0x09 => some (.r3, fun f => .or f.d f.a f.b)
  | 0x0A => some (.r3, fun f => .xor f.d f.a f.b)
  | 0x0B => some (.r3, fun f => .add f.d f.a f.b)
  | 0x0C => some (.r3, fun f => .sub f.d f.a f.b)
  | 0x10 => some (.i8, fun f => .andi f.d f.a f.lo)
  | 0x11 => some (.i8, fun f => .ori f.d f.a f.lo)
  | 0x12 => some (.i8, fun f => .xori f.d f.a f.lo)
  | 0x13 => some (.i8, fun f => .addi f.d f.a f.lo)
  | 0x14 => some (.sh, fun f => .shli f.d f.a f.sh)
  | 0x15 => some (.sh, fun f => .shri f.d f.a f.sh)
  | 0x18 => some (.i16, fun f => .rng f.d f.a f.lo f.hi)
  | 0x19 => some (.r4, fun f => .sel f.d f.m f.a f.b)
  | 0x1A => some (.n, fun f => .n2a f.d f.a f.c)
  | 0x1B => some (.r2, fun f => .a2n f.d f.a)
  | 0x1C => some (.r3, fun f => .cmb f.d f.a f.b)
  | 0x20 => some (.r3, fun f => .ilvlo f.d f.a f.b)
  | 0x21 => some (.r3, fun f => .ilvhi f.d f.a f.b)
  | 0x22 => some (.r3, fun f => .zipglo f.d f.a f.b)
  | 0x23 => some (.r3, fun f => .zipghi f.d f.a f.b)
  | 0x30 => some (.xc, fun f => .enc f.c)
  | 0x31 => some (.x, fun _ => .dec)
  | _ => none

/-- Decoding in an instance of width `W` (R110), total on all 2^32 words: `none` where R110 raises
ILLEGAL. -/
def decode (W : Width) (w : CmdWord) : Option Instr :=
  match opRow (opOf w).toNat with
  | none => none
  | some (fmt, build) =>
    if w &&& fmt.mask = place (opOf w) 26 then
      let i := build (Fields.of w)
      if i.wf W then some i else none
    else none

/-- A register number as the three bits of its field (R102). -/
def bits3 (r : Fin 8) : BitVec 3 := BitVec.ofFin r

/-- The layouts of R103: the fields at their places (R101), every other bit 0. -/
def encX (op : BitVec 6) : CmdWord := place op 26
def encXC (op : BitVec 6) (c : CaseMode) : CmdWord := place op 26 ||| place c.bit 0
def encR2 (op : BitVec 6) (d a : VReg) : CmdWord :=
  place op 26 ||| place (bits3 d) 23 ||| place (bits3 a) 20
def encR3 (op : BitVec 6) (d a b : VReg) : CmdWord :=
  place op 26 ||| place (bits3 d) 23 ||| place (bits3 a) 20 ||| place (bits3 b) 17
def encR4 (op : BitVec 6) (d a b m : VReg) : CmdWord :=
  place op 26 ||| place (bits3 d) 23 ||| place (bits3 a) 20 ||| place (bits3 b) 17
    ||| place (bits3 m) 14
def encI8 (op : BitVec 6) (d a : VReg) (imm8 : Byte) : CmdWord :=
  place op 26 ||| place (bits3 d) 23 ||| place (bits3 a) 20 ||| place imm8 0
def encI16 (op : BitVec 6) (d a : VReg) (hi lo : Byte) : CmdWord :=
  place op 26 ||| place (bits3 d) 23 ||| place (bits3 a) 20 ||| place hi 8 ||| place lo 0
def encSH (op : BitVec 6) (d a : VReg) (sh : ShiftAmt) : CmdWord :=
  place op 26 ||| place (bits3 d) 23 ||| place (bits3 a) 20 ||| place (bits3 sh) 0
def encN (op : BitVec 6) (d a : VReg) (c : CaseMode) : CmdWord :=
  place op 26 ||| place (bits3 d) 23 ||| place (bits3 a) 20 ||| place c.bit 0
def encSP (op : BitVec 6) (d : VReg) (imm8 : Byte) : CmdWord :=
  place op 26 ||| place (bits3 d) 23 ||| place imm8 0
def encL (op : BitVec 6) (d : VReg) : CmdWord := place op 26 ||| place (bits3 d) 23
def encL2 (op : BitVec 6) (d e : VReg) : CmdWord :=
  place op 26 ||| place (bits3 d) 23 ||| place (bits3 e) 20
def encS (op : BitVec 6) (a : VReg) : CmdWord := place op 26 ||| place (bits3 a) 20

/-- The word of a command (R103, R105). It is the one word that decodes to it, so a command's
ERRCMD and a macro's MWORD are its encoding. DEDUCED, safe: notes/assumptions/11.md. -/
def encode : Instr → CmdWord
  | .nop => encX 0x01#6
  | .ld vd => encL 0x02#6 vd
  | .ld2 vd ve => encL2 0x03#6 vd ve
  | .st va => encS 0x04#6 va
  | .ldb vd => encL 0x05#6 vd
  | .stb va => encS 0x06#6 va
  | .splat vd imm8 => encSP 0x07#6 vd imm8
  | .and vd va vb => encR3 0x08#6 vd va vb
  | .or vd va vb => encR3 0x09#6 vd va vb
  | .xor vd va vb => encR3 0x0A#6 vd va vb
  | .add vd va vb => encR3 0x0B#6 vd va vb
  | .sub vd va vb => encR3 0x0C#6 vd va vb
  | .andi vd va imm8 => encI8 0x10#6 vd va imm8
  | .ori vd va imm8 => encI8 0x11#6 vd va imm8
  | .xori vd va imm8 => encI8 0x12#6 vd va imm8
  | .addi vd va imm8 => encI8 0x13#6 vd va imm8
  | .shli vd va sh => encSH 0x14#6 vd va sh
  | .shri vd va sh => encSH 0x15#6 vd va sh
  | .rng vd va lo hi => encI16 0x18#6 vd va hi lo
  | .sel vd vm va vb => encR4 0x19#6 vd va vb vm
  | .n2a vd va c => encN 0x1A#6 vd va c
  | .a2n vd va => encR2 0x1B#6 vd va
  | .cmb vd va vb => encR3 0x1C#6 vd va vb
  | .ilvlo vd va vb => encR3 0x20#6 vd va vb
  | .ilvhi vd va vb => encR3 0x21#6 vd va vb
  | .zipglo vd va vb => encR3 0x22#6 vd va vb
  | .zipghi vd va vb => encR3 0x23#6 vd va vb
  | .enc c => encXC 0x30#6 c
  | .dec => encX 0x31#6

/-- The command read from a table row's word: `nbits` bits, every bit above them 0, in the instance
that State.reset holds. -/
def decodeTableWord (nbits w : Nat) : Option Instr :=
  decode Instance.default.width (BitVec.ofNat 32 (w % 2 ^ nbits))

end Sys2Proof
end

