-- ==== Sys2Proof/Machine/State.lean ====
section
/-! DEFINITION. The state of one HXU instance (spec/10_state.md R55), the data memory it shares with
its host (spec/20_memory.md R70), the host's actions, and the reasons a step can stop. -/

namespace Sys2Proof.Machine

/-- MSTATE (spec/10_state.md R37). -/
inductive MState where
  | idle | bulk | tail
  deriving DecidableEq, Repr

/-- MOP (spec/10_state.md R37). -/
inductive MOp where
  | enc | dec
  deriving DecidableEq, Repr

/-- The error codes of STATUS.ERR (spec/60_exceptions.md R281). -/
inductive ErrCode where
  | none | illegal | oddLen | memFault
  deriving DecidableEq, Repr

/-- The value of a lane register: W bytes, lane 0 first (spec/00_scope.md R12). That the length is W is
an invariant of the step (Safety.lean). DESIGN CHOICE, safe: notes/assumptions/14.md. -/
abbrev LaneReg := List Byte

/-- The data memory (spec/20_memory.md R70): the addresses whose byte is known, with that byte, strictly
rising (`Memory.wf`). An unlisted address is one nobody has written: it has no byte here, and reading
it takes the platform's answer (notes/assumptions/5.md). -/
abbrev Memory := List Host.Cell

/-- The two agents that step (spec/00_scope.md R16). -/
inductive Agent where
  | host | unit
  deriving DecidableEq, Repr

/-- One action of the host, or of the reset input. A register access names its byte offset in the
window and its width in bytes (spec/10_state.md R40); a memory access is a sequence of bytes.
DESIGN CHOICE: notes/assumptions/6.md, notes/assumptions/20.md. -/
inductive HostAction where
  /-- A host read inside the register window. -/
  | regRead (off : BitVec 8) (bytes : Nat)
  /-- A host write of `value` inside the register window. -/
  | regWrite (off : BitVec 8) (bytes : Nat) (value : Word64)
  /-- A host read of `n` bytes of the data memory. -/
  | memRead (addr : Addr) (n : Nat)
  /-- A host write of bytes to the data memory. -/
  | memWrite (addr : Addr) (data : List Byte)
  /-- "a host loop that reads STATUS until BUSY = 0" (spec/30_encoding.md R114). -/
  | wait
  /-- The reset input is asserted (spec/70_reset_and_hazards.md R310). -/
  | reset
  deriving DecidableEq, Repr

/-- What one host read returned. -/
inductive HostRead where
  | reg (off : BitVec 8) (value : Word64)
  | mem (addr : Addr) (data : List Byte)
  deriving DecidableEq, Repr

/-- What the model keeps to give the races of spec/20_memory.md R82 their meaning: SRC, DST and CNT at
the last acceptance of a macro, the addresses a racing host write hit, and whether one hit the
running macro. DESIGN CHOICE, safe: notes/assumptions/8.md. -/
structure RaceLedger where
  src0 : Addr
  dst0 : Addr
  cnt0 : Word64
  bytes : List Nat
  tainted : Bool
  deriving DecidableEq, Repr

/-- The state: the instance, the record of R55 in its order, the data memory, and the agents and
bookkeeping that stand outside that record. -/
structure State where
  inst : Instance
  v : Vector LaneReg 8
  init : Vector Bool 8
  mstate : MState
  mop : MOp
  mcase : CaseMode
  mword : CmdWord
  src : Addr
  dst : Addr
  cnt : Word64
  done : Bool
  drop : Bool
  err : ErrCode
  errcmd : CmdWord
  erraddr : Addr
  mem : Memory
  host : List HostAction
  sched : List Agent
  reads : List HostRead
  race : RaceLedger
  freeCount : Nat
  deriving DecidableEq, Repr

/-- Why the machine stops with a fault. The errors the unit records (ILLEGAL, ODD_LEN, MEM_FAULT) are
next states and not faults. -/
inductive Fault where
  /-- Raised by the unit step for DEC in TAIL with CNT = 1, for which the spec has no rule; "CNT = 1
  never occurs in DEC TAIL" (spec/45_block_fsm.md R259). Safe: no step reaches it from a state
  that meets the invariant (notes/assumptions/10.md). -/
  | noUnitRule
  deriving DecidableEq, Repr

/-- Why a step is refused. -/
inductive Refusal where
  /-- No meaning yet for this instruction; raised in exec's arms only. Safe. No arm uses it. -/
  | notModelled (mnemonic : String)
  /-- Raised by a host step whose access to the register window is not an aligned 8-byte access, or
  whose memory access falls into the window: RefusedHostAccess (spec/60_exceptions.md R300,
  spec/10_state.md R40). Safe (notes/assumptions/12.md). -/
  | refusedHostAccess
  deriving DecidableEq, Repr

/-- The state right after reset of an instance (spec/10_state.md R54), beside a given memory, which
reset does not touch (R312), and a host that has done nothing. -/
def State.resetOf (inst : Instance) (mem : Memory) : State where
  inst := inst
  v := Vector.replicate 8 (List.replicate inst.width.lanes Config.resetLane)
  init := Vector.replicate 8 false
  mstate := .idle
  mop := .enc
  mcase := .upper
  mword := 0#32
  src := 0#64
  dst := 0#64
  cnt := 0#64
  done := false
  drop := false
  err := .none
  errcmd := 0#32
  erraddr := 0#64
  mem := mem
  host := []
  sched := []
  reads := []
  race := ⟨0#64, 0#64, 0#64, [], false⟩
  freeCount := 0

/-- The machine right after reset: the instance of Config, and memory with nothing listed: every byte is
the platform's (spec/20_memory.md R70). -/
def State.reset : State := State.resetOf Instance.default []

end Sys2Proof.Machine
end

