-- ==== Sys2Proof/Machine/Ops.lean ====
section
/-! DEFINITION. The named operations over memory and registers: reading and writing bytes, admission,
lane registers, cursors, recording an error (the spec's "trap entry") and clearing it (its "trap
return"), and reset. -/

namespace Sys2Proof.Machine

/-! ## The instance -/

/-- W (spec/00_scope.md R6). -/
def State.lanes (s : State) : Nat := s.inst.width.lanes

/-- G = min(W, 16) (spec/00_scope.md R7). -/
def State.group (s : State) : Nat := min s.lanes 16

/-- n = W / G, the number of groups (spec/00_scope.md R7). -/
def State.groups (s : State) : Nat := s.lanes / s.group

/-! ## Memory -/

/-- The byte listed at address `a`: none where nobody has written. -/
def Memory.lookup : Memory → Nat → Option Byte
  | [], _ => none
  | (k, b) :: m, a => if k = a then some b else if a < k then none else Memory.lookup m a

/-- The byte at address `a`: "the last write to its location", or the platform's own where nobody wrote
(spec/20_memory.md R70, R81). -/
def Memory.read (m : Memory) (a : Nat) : Byte := (m.lookup a).getD (Config.platformByte a)

/-- `m` with the byte at `a` set to `b`, in canonical form. -/
def Memory.write : Memory → Nat → Byte → Memory
  | [], a, b => [(a, b)]
  | (k, c) :: m, a, b =>
    if k = a then (a, b) :: m
    else if a < k then (a, b) :: (k, c) :: m
    else (k, c) :: Memory.write m a b

/-- Every key of the rest lies above `lo`, in rising order, inside the address space. -/
def Memory.wfAbove : Nat → Memory → Bool
  | _, [] => true
  | lo, (k, _) :: m => lo ≤ k && k < 2 ^ 64 && Memory.wfAbove (k + 1) m

/-- The canonical form of a memory: addresses strictly rising and below 2^64. An unlisted address has no
byte, so no entry can repeat what it would read as. -/
def Memory.wf (m : Memory) : Bool := Memory.wfAbove 0 m

/-- `MemRead(addr, n)` without its admission check: the bytes at addr, addr+1, …, byte 0 first, with
addresses modulo 2^64 (spec/00_scope.md R14). -/
def Memory.readBytes (m : Memory) (addr : Addr) (n : Nat) : List Byte :=
  (List.range n).map fun j => m.read (addr + BitVec.ofNat 64 j).toNat

/-- `MemWrite(addr, n, v)` without its admission check: byte j goes to addr + j, in ascending order
(spec/00_scope.md R14, spec/20_memory.md R80). -/
def Memory.writeBytes : Memory → Addr → List Byte → Memory
  | m, _, [] => m
  | m, addr, b :: bs => Memory.writeBytes (m.write addr.toNat b) (addr + 1#64) bs

/-! ## Admission -/

/-- `a` is one of the 256 byte addresses of the register window at HXU_BASE (spec/10_state.md R40).
The window's addresses are taken modulo 2^64. DEDUCED, safe: notes/assumptions/15.md. -/
def inWindow (inst : Instance) (a : Addr) : Bool := (a - inst.hxuBase).toNat < 256

/-- The `n` bytes from `addr` on overlap the register window. -/
def overlapsWindow (inst : Instance) (addr : Addr) (n : Nat) : Bool :=
  n != 0 && (inWindow inst addr || (inst.hxuBase - addr).toNat < n)

/-- A rule of the platform covers the access. -/
def ruleCovers (r : AdmitRule) (kind : AccessKind) (addr : Addr) (n : Nat) : Bool :=
  r.kind == kind && r.lo ≤ addr.toNat && addr.toNat + n ≤ r.hi && r.nMin ≤ n && n ≤ r.nMax

/-- The platform predicate `Admit(kind, addr, n)` (spec/20_memory.md R74), false on every access that
overlaps the register window (R71). -/
def platformAdmits (inst : Instance) (kind : AccessKind) (addr : Addr) (n : Nat) : Bool :=
  !overlapsWindow inst addr n && inst.admits.any fun r => ruleCovers r kind addr n

/-- An access is admitted iff its range does not wrap past the top of the address space and the
platform admits it (spec/20_memory.md R74). -/
def admitted (inst : Instance) (kind : AccessKind) (addr : Addr) (n : Nat) : Bool :=
  addr.toNat + n - 1 ≤ 2 ^ 64 - 1 && platformAdmits inst kind addr n

/-! ## Races on a running macro's buffers (spec/20_memory.md R82) -/

/-- STATUS.BUSY: 1 while a macro command runs, `MSTATE != IDLE` (spec/10_state.md R45). -/
def State.busy (s : State) : Bool := s.mstate != .idle

/-- OUT0: the length of the running macro's output (R82). -/
def State.out0 (s : State) : Nat :=
  match s.mop with
  | .enc => 2 * s.race.cnt0.toNat
  | .dec => s.race.cnt0.toNat / 2

/-- `a` lies in the source or the destination range of the running macro (R82); ranges are taken
modulo 2^64, as the cursors advance. DEDUCED, safe: notes/assumptions/17.md. -/
def State.inRunningBuffers (s : State) (a : Addr) : Bool :=
  s.busy && ((a - s.race.src0).toNat < s.race.cnt0.toNat || (a - s.race.dst0).toNat < s.out0)

/-- A racing host write hit one of the `n` bytes at `addr`. -/
def State.anyRaced (s : State) (addr : Addr) (n : Nat) : Bool :=
  (List.range n).any fun j => s.race.bytes.contains (addr + BitVec.ofNat 64 j).toNat

/-- The bytes a unit read returns: the memory's, and a free value where a racing host write went
before ("makes every later unit read of that byte return any value", R82). -/
def State.unitBytes (s : State) (addr : Addr) (n : Nat) : List Byte :=
  (List.range n).map fun j =>
    let a := (addr + BitVec.ofNat 64 j).toNat
    if s.race.bytes.contains a then Config.freeByte (s.freeCount + j) else s.mem.read a

/-- The state after that read: the free values used are used up. -/
def State.afterUnitRead (s : State) (addr : Addr) (n : Nat) : State :=
  { s with freeCount := s.freeCount + if s.anyRaced addr n then n else 0 }

/-! ## Lane registers -/

/-- Lane `i` of `Vr` (spec/00_scope.md R12). -/
def State.lane (s : State) (r : VReg) (i : Nat) : Byte := (s.v[r]).getD i 0#8

/-- `x[i] <- v`: writes the W lanes `f 0, …, f (W-1)` into `Vr` (spec/00_scope.md R12) and sets its
`init` bit (spec/10_state.md R31). -/
def State.setV (s : State) (r : VReg) (f : Nat → Byte) : State :=
  { s with v := s.v.set r ((List.range s.lanes).map f), init := s.init.set r true }

/-! ## Cursors and memory of the state -/

/-- SRC advances modulo 2^64 (spec/44_load_store.md R235). -/
def State.advanceSrc (s : State) (n : Nat) : State := { s with src := s.src + BitVec.ofNat 64 n }

/-- DST advances modulo 2^64 (spec/44_load_store.md R235). -/
def State.advanceDst (s : State) (n : Nat) : State := { s with dst := s.dst + BitVec.ofNat 64 n }

/-- The bytes are written to memory from `addr` on. -/
def State.writeMem (s : State) (addr : Addr) (data : List Byte) : State :=
  { s with mem := s.mem.writeBytes addr data }

/-! ## Recording an error, clearing it, and reset -/

/-- `raise E(info)` (spec/60_exceptions.md R284), the HXU's "trap entry" (R280): ERR, the word being
executed in ERRCMD, and the address of the access in ERRADDR for MEM_FAULT, else 0. Control
goes nowhere: there is no handler. -/
def State.raise (s : State) (e : ErrCode) (w : CmdWord) (addr : Addr) : State :=
  { s with err := e, errcmd := w, erraddr := if e = .memFault then addr else 0#64 }

/-- ERRCLR, the HXU's "trap return" (spec/60_exceptions.md R280, R291): ERR, ERRCMD and ERRADDR become
0; nothing else is restored. -/
def State.clearError (s : State) : State :=
  { s with err := .none, errcmd := 0#32, erraddr := 0#64 }

/-- `abort(MEM_FAULT, a)` inside a unit step (spec/45_block_fsm.md R263). -/
def State.abort (s : State) (addr : Addr) : State :=
  { s.raise .memFault s.mword addr with mstate := .idle }

/-- A **dropped** write changes nothing but `STATUS.DROP <- 1` (spec/60_exceptions.md R290). -/
def State.dropWrite (s : State) : State := { s with drop := true }

/-- The host's read returned `r`. -/
def State.logRead (s : State) (r : HostRead) : State := { s with reads := r :: s.reads }

/-- The reset input (spec/70_reset_and_hazards.md R310): the state of R54 in one step. The instance, the
memory (R312) and what lies outside the unit stay; a running macro ends at once (R311). -/
def State.resetUnit (s : State) : State :=
  { State.resetOf s.inst s.mem with
    host := s.host
    sched := s.sched
    reads := s.reads
    race := { (State.resetOf s.inst s.mem).race with bytes := s.race.bytes }
    freeCount := s.freeCount }

end Sys2Proof.Machine
end

