-- ==== Sys2Proof/Machine/Operands.lean ====
section
/-! DEFINITION. The operand forms of the commands: lane-wise application over one, two or three source
registers or an immediate (spec/00_scope.md R12, R13), nibbles and the hex digits (R17), and the
constant tables (spec/10_state.md R33, R34). -/

namespace Sys2Proof.Machine

/-! ## Lane-wise forms. Every source is read before the destination is written
(spec/10_state.md R32): the lanes of `s` are read inside the new value, and `setV` comes last. -/

/-- `for i: Vd[i] <- f(Va[i])`. -/
def laneMap1 (f : Byte → Byte) (vd va : VReg) (s : State) : State :=
  s.setV vd fun i => f (s.lane va i)

/-- `for i: Vd[i] <- f(Va[i], Vb[i])`. -/
def laneMap2 (f : Byte → Byte → Byte) (vd va vb : VReg) (s : State) : State :=
  s.setV vd fun i => f (s.lane va i) (s.lane vb i)

/-- `for i: Vd[i] <- f(Vm[i], Va[i], Vb[i])`. -/
def laneMap3 (f : Byte → Byte → Byte → Byte) (vd vm va vb : VReg) (s : State) : State :=
  s.setV vd fun i => f (s.lane vm i) (s.lane va i) (s.lane vb i)

/-- `bcast(k)`: every lane is the byte k (spec/00_scope.md R12). -/
def bcast (k : Byte) : Nat → Byte := fun _ => k

/-- `for i: Vd[i] <- f(Va[i], IMM8)`: an 8-bit immediate acts on every lane alike, as `bcast(IMM8)`
(spec/30_encoding.md R104). -/
def laneMapImm (f : Byte → Byte → Byte) (vd va : VReg) (imm8 : Byte) (s : State) : State :=
  s.setV vd fun i => f (s.lane va i) (bcast imm8 i)

/-! ## Nibbles and hex digits -/

/-- The high nibble, `byte >> 4` (spec/41_nibble_map.md R165). -/
def hiNibble (x : Byte) : Nibble := x.extractLsb' 4 4

/-- The low nibble, `byte & 0xF` (spec/41_nibble_map.md R165). -/
def loNibble (x : Byte) : Nibble := x.extractLsb' 0 4

/-- `hexdigit(n, c)`: the ASCII code of the hex digit of value n (spec/00_scope.md R17). -/
def hexdigit (n : Nibble) (c : CaseMode) : Byte :=
  if n ≤ 9#4 then 0x30#8 + n.zeroExtend 8
  else
    match c with
    | .upper => 0x37#8 + n.zeroExtend 8
    | .lower => 0x57#8 + n.zeroExtend 8

/-- `hexval(ch)`: the value of a character of `0-9A-Fa-f`, and 0 for every other (spec/00_scope.md
R17). -/
def hexval (ch : Byte) : Byte :=
  if 0x30#8 ≤ ch ∧ ch ≤ 0x39#8 then ch - 0x30#8
  else if 0x41#8 ≤ ch ∧ ch ≤ 0x46#8 then ch - 0x37#8
  else if 0x61#8 ≤ ch ∧ ch ≤ 0x66#8 then ch - 0x57#8
  else 0x00#8

/-- The nibble pair of a byte put together again, `((h << 4) mod 256) | l` (spec/41_nibble_map.md
R164). -/
def combine (h l : Byte) : Byte := (h <<< 4) ||| l

/-! ## Constant storage -/

/-- LUT_U, the bytes of "0123456789ABCDEF" (spec/10_state.md R33). -/
def lutU : List Byte :=
  [0x30#8, 0x31#8, 0x32#8, 0x33#8, 0x34#8, 0x35#8, 0x36#8, 0x37#8,
   0x38#8, 0x39#8, 0x41#8, 0x42#8, 0x43#8, 0x44#8, 0x45#8, 0x46#8]

/-- LUT_L, the bytes of "0123456789abcdef" (spec/10_state.md R33). -/
def lutL : List Byte :=
  [0x30#8, 0x31#8, 0x32#8, 0x33#8, 0x34#8, 0x35#8, 0x36#8, 0x37#8,
   0x38#8, 0x39#8, 0x61#8, 0x62#8, 0x63#8, 0x64#8, 0x65#8, 0x66#8]

/-- The table of a case (spec/41_nibble_map.md R161). -/
def lutOf : CaseMode → List Byte
  | .upper => lutU
  | .lower => lutL

end Sys2Proof.Machine
end

