-- ==== Sys2Proof/Machine/Classify.lean ====
section
/-! DEFINITION. Range classification and select (spec/40_classify.md). -/

namespace Sys2Proof.Machine

/-- `RNG` on one lane: 0xFF where LO <= x and x <= HI, unsigned and inclusive, else 0x00 (R140). -/
def rngByte (lo hi x : Byte) : Byte := if lo ≤ x ∧ x ≤ hi then 0xFF#8 else 0x00#8

/-- The select on one lane, per bit: `(m & a) | (~m & b)` (R142). -/
def selByte (m a b : Byte) : Byte := (m &&& a) ||| (~~~m &&& b)

/-- RNG vd, va, lo, hi (R140). Every technique an instance may use gives this result (R141).
DEDUCED, safe: notes/assumptions/16.md. -/
def execRng (vd va : VReg) (lo hi : Byte) (s : State) : Host.Outcome State Fault Refusal :=
  .next (laneMap1 (rngByte lo hi) vd va s)

/-- SEL vd, vm, va, vb (R142). -/
def execSel (vd vm va vb : VReg) (s : State) : Host.Outcome State Fault Refusal :=
  .next (laneMap3 selByte vd vm va vb s)

/-! ## The SWAR technique of R141, for W = 8 with lane i at bits [8i+7:8i] of a 64-bit word -/

/-- `B(k) = k * 0x0101010101010101`. -/
def swarB (k : Byte) : Word64 := k.zeroExtend 64 * 0x0101010101010101#64

/-- `H`, the top bit of every lane. -/
def swarH : Word64 := 0x8080808080808080#64

/-- `L7`, the lower seven bits of every lane. -/
def swarL7 : Word64 := 0x7F7F7F7F7F7F7F7F#64

/-- `ge(a, b)`: bit 7 of each lane set iff a_lane >= b_lane, unsigned. -/
def swarGe (a b : Word64) : Word64 :=
  let t := (a ||| swarH) - (b &&& swarL7)
  let x := a ^^^ b
  ((x &&& a) ||| (~~~x &&& t)) &&& swarH

/-- `norm(g)`: 0x80 becomes 0xFF and 0x00 stays, per lane. -/
def swarNorm (g : Word64) : Word64 := (g - (g >>> 7)) ||| g

/-- `RNG_swar(X, lo, hi)`. -/
def rngSwar (x : Word64) (lo hi : Byte) : Word64 :=
  swarNorm (swarGe x (swarB lo)) &&& swarNorm (swarGe (swarB hi) x)

end Sys2Proof.Machine
end

