-- ==== Sys2Proof/Machine/Flags.lean ====
section
/-! DEFINITION. The status computations. The unit "has no flags, condition codes or predicates"
(spec/10_state.md R38); its status is the STATUS register, whose view and write are here, with the
other registers of the host window as the host reads them (spec/10_state.md R40 to R53). -/

namespace Sys2Proof.Machine

/-- One bit of a register. -/
def bit (b : Bool) : BitVec 1 := BitVec.ofBool b

/-- The code of MSTATE in STATUS.STATE (spec/10_state.md R45). -/
def MState.code : MState → BitVec 2
  | .idle => 0#2
  | .bulk => 1#2
  | .tail => 2#2

/-- The code of MOP in STATUS.OPK (spec/10_state.md R45). -/
def MOp.code : MOp → BitVec 1
  | .enc => 0#1
  | .dec => 1#1

/-- The code of ERR in STATUS[11:8] (spec/60_exceptions.md R281). -/
def ErrCode.code : ErrCode → BitVec 4
  | .none => 0#4
  | .illegal => 1#4
  | .oddLen => 2#4
  | .memFault => 3#4

/-- A read of STATUS (spec/10_state.md R45): [63:12] 0, ERR [11:8], ERRCLR [7] reads 0, DROP [6],
DONE [5], CASE [4], OPK [3], STATE [2:1], BUSY [0]. -/
def State.statusWord (s : State) : Word64 :=
  0#52 ++ s.err.code ++ 0#1 ++ bit s.drop ++ bit s.done ++ s.mcase.bit ++ s.mop.code
    ++ s.mstate.code ++ bit s.busy

/-- The code of MAPPER in ID[20]: 0 = ARITH, 1 = LUT (spec/10_state.md R44). -/
def mapperCode : Mapper → BitVec 1
  | .arith => 0#1
  | .lut => 1#1

/-- A read of ID (spec/10_state.md R44): [63:32] 0, VERSION [31:24] 0x01, [23:21] 0, MAPPER [20],
NVREG [19:16] 8, G [15:8], W [7:0]. -/
def State.idWord (s : State) : Word64 :=
  0#32 ++ 0x01#8 ++ 0#3 ++ mapperCode s.inst.mapper ++ 8#4 ++ BitVec.ofNat 8 s.group
    ++ BitVec.ofNat 8 s.lanes

/-- A host write of `v` to STATUS, "never dropped, whatever BUSY and ERR are" (spec/10_state.md R46):
bit 5 clears DONE, bit 6 clears DROP, bit 7 is ERRCLR. -/
def State.writeStatus (s : State) (v : Word64) : State :=
  let s1 := { s with
    done := if v.getLsbD 5 then false else s.done
    drop := if v.getLsbD 6 then false else s.drop }
  if v.getLsbD 7 then s1.clearError else s1

/-- A host read of the register at `off` (spec/10_state.md R41, R42): CMD and the reserved offsets read
0. No read has a side effect (spec/20_memory.md R77). -/
def State.readReg (s : State) (off : BitVec 8) : Word64 :=
  match off.toNat with
  | 0x00 => s.idWord
  | 0x08 => s.statusWord
  | 0x18 => s.src
  | 0x20 => s.dst
  | 0x28 => s.cnt
  | 0x30 => s.errcmd.zeroExtend 64
  | 0x38 => s.erraddr
  | _ => 0#64

end Sys2Proof.Machine
end

