-- ==== Sys2Proof/Machine/Lane.lean ====
section
/-! DEFINITION. No-op, broadcast, lane logic, arithmetic and shifts (spec/42_lane_alu.md). No command
here writes STATUS, and none can stop. -/

namespace Sys2Proof.Machine

/-- NOP "changes no state" (R180). -/
def execNop (s : State) : Host.Outcome State Fault Refusal := .next s

/-- SPLAT vd, imm8: `Vd[i] <- IMM8` (R181). -/
def execSplat (vd : VReg) (imm8 : Byte) (s : State) : Host.Outcome State Fault Refusal :=
  .next (s.setV vd (bcast imm8))

/-- AND: `Vd[i] <- Va[i] & Vb[i]` (R182). -/
def execAnd (vd va vb : VReg) (s : State) : Host.Outcome State Fault Refusal :=
  .next (laneMap2 (fun a b => a &&& b) vd va vb s)

/-- OR: `Vd[i] <- Va[i] | Vb[i]` (R183). -/
def execOr (vd va vb : VReg) (s : State) : Host.Outcome State Fault Refusal :=
  .next (laneMap2 (fun a b => a ||| b) vd va vb s)

/-- XOR: `Vd[i] <- Va[i] ^ Vb[i]` (R184). -/
def execXor (vd va vb : VReg) (s : State) : Host.Outcome State Fault Refusal :=
  .next (laneMap2 (fun a b => a ^^^ b) vd va vb s)

/-- ADD: `Vd[i] <- (Va[i] + Vb[i]) mod 256` (R185). -/
def execAdd (vd va vb : VReg) (s : State) : Host.Outcome State Fault Refusal :=
  .next (laneMap2 (fun a b => a + b) vd va vb s)

/-- SUB: `Vd[i] <- (Va[i] - Vb[i]) mod 256` (R186). -/
def execSub (vd va vb : VReg) (s : State) : Host.Outcome State Fault Refusal :=
  .next (laneMap2 (fun a b => a - b) vd va vb s)

/-- ANDI: `Vd[i] <- Va[i] & IMM8` (R187). -/
def execAndi (vd va : VReg) (imm8 : Byte) (s : State) : Host.Outcome State Fault Refusal :=
  .next (laneMapImm (fun a k => a &&& k) vd va imm8 s)

/-- ORI: `Vd[i] <- Va[i] | IMM8` (R188). -/
def execOri (vd va : VReg) (imm8 : Byte) (s : State) : Host.Outcome State Fault Refusal :=
  .next (laneMapImm (fun a k => a ||| k) vd va imm8 s)

/-- XORI: `Vd[i] <- Va[i] ^ IMM8` (R189). -/
def execXori (vd va : VReg) (imm8 : Byte) (s : State) : Host.Outcome State Fault Refusal :=
  .next (laneMapImm (fun a k => a ^^^ k) vd va imm8 s)

/-- ADDI: `Vd[i] <- (Va[i] + IMM8) mod 256` (R190). -/
def execAddi (vd va : VReg) (imm8 : Byte) (s : State) : Host.Outcome State Fault Refusal :=
  .next (laneMapImm (fun a k => a + k) vd va imm8 s)

/-- SHLI: `Vd[i] <- (Va[i] << SH) mod 256` (R191). -/
def execShli (vd va : VReg) (sh : ShiftAmt) (s : State) : Host.Outcome State Fault Refusal :=
  .next (laneMap1 (fun a => a <<< sh.val) vd va s)

/-- SHRI: `Vd[i] <- Va[i] >> SH`, filling with zeros (R192). -/
def execShri (vd va : VReg) (sh : ShiftAmt) (s : State) : Host.Outcome State Fault Refusal :=
  .next (laneMap1 (fun a => a >>> sh.val) vd va s)

end Sys2Proof.Machine
end

