-- ==== Sys2Proof/Machine/LoadStore.lean ====
section
/-! DEFINITION. Loads and stores at the cursors (spec/44_load_store.md). An access that is not admitted
raises MEM_FAULT with the command's word and changes nothing else (spec/60_exceptions.md R285, R293).
CNT is never read or written (R236). -/

namespace Sys2Proof.Machine

/-- A load of `n` bytes at SRC by command `i`: `write` puts the bytes into lane registers, and SRC
advances by `n` (R230, R231, R233). -/
def loadAtSrc (i : Instr) (n : Nat) (write : List Byte → State → State) (s : State) :
    Host.Outcome State Fault Refusal :=
  if admitted s.inst .rd s.src n then
    .next ((write (s.unitBytes s.src n) (s.afterUnitRead s.src n)).advanceSrc n)
  else .next (s.raise .memFault (encode i) s.src)

/-- A store of `data` at DST by command `i`: DST advances by its length (R232, R234). -/
def storeAtDst (i : Instr) (data : List Byte) (s : State) : Host.Outcome State Fault Refusal :=
  if admitted s.inst .wr s.dst data.length then
    .next ((s.writeMem s.dst data).advanceDst data.length)
  else .next (s.raise .memFault (encode i) s.dst)

/-- The W lanes of a register, lane 0 first (spec/20_memory.md R72). -/
def State.lanesOf (s : State) (r : VReg) : List Byte := (List.range s.lanes).map (s.lane r)

/-- LD vd: W bytes, lane i from address SRC + i (R230). -/
def execLd (vd : VReg) (s : State) : Host.Outcome State Fault Refusal :=
  loadAtSrc (.ld vd) s.lanes (fun b t => t.setV vd fun i => b.getD i 0#8) s

/-- LD2 vd, ve: 2W bytes, even offsets into Vd and odd ones into Ve; ILLEGAL when D = E (R231). -/
def execLd2 (vd ve : VReg) (s : State) : Host.Outcome State Fault Refusal :=
  if vd = ve then .next (s.raise .illegal (encode (.ld2 vd ve)) 0#64)
  else
    loadAtSrc (.ld2 vd ve) (2 * s.lanes)
      (fun b t => (t.setV vd fun i => b.getD (2 * i) 0#8).setV ve fun i => b.getD (2 * i + 1) 0#8) s

/-- ST va: W bytes, lane i to address DST + i (R232). -/
def execSt (va : VReg) (s : State) : Host.Outcome State Fault Refusal :=
  storeAtDst (.st va) (s.lanesOf va) s

/-- LDB vd: one byte into lane 0; "lanes 1..W-1 become 0x00" (R233). -/
def execLdb (vd : VReg) (s : State) : Host.Outcome State Fault Refusal :=
  loadAtSrc (.ldb vd) 1 (fun b t => t.setV vd fun i => b.getD i 0x00#8) s

/-- STB va: lane 0 only (R234). -/
def execStb (va : VReg) (s : State) : Host.Outcome State Fault Refusal :=
  storeAtDst (.stb va) [s.lane va 0] s

end Sys2Proof.Machine
end

