-- ==== Sys2Proof/Machine/MacroRun.lean ====
section
/-! DEFINITION. The macro commands ENC and DEC and the unit steps of the block state machine
(spec/45_block_fsm.md). They do not read or write V0 to V7 (spec/10_state.md R35). -/

namespace Sys2Proof.Machine

/-! ## Block functions -/

/-- `enc_block(x, c)`: two characters per byte, high nibble first (R261). -/
def encBlock (c : CaseMode) : List Byte → List Byte
  | [] => []
  | x :: xs => hexdigit (hiNibble x) c :: hexdigit (loNibble x) c :: encBlock c xs

/-- `dec_block(s)`: one byte per two characters (R262). -/
def decBlock : List Byte → List Byte
  | h :: l :: rest => combine (hexval h) (hexval l) :: decBlock rest
  | _ => []

/-! ## Acceptance, in the host step of the CMD write -/

/-- A macro command is accepted: MOP, MCASE and MWORD are set, DONE is cleared, MSTATE becomes BULK
(R250, R251). SRC, DST and CNT as they are now bound the running macro's buffers
(spec/20_memory.md R82). -/
def State.acceptMacro (s : State) (op : MOp) (c : CaseMode) (w : CmdWord) : State :=
  { s with
    mop := op
    mcase := c
    mword := w
    done := false
    mstate := .bulk
    race := { s.race with src0 := s.src, dst0 := s.dst, cnt0 := s.cnt, tainted := false } }

/-- ENC c (R250). -/
def execEnc (c : CaseMode) (s : State) : Host.Outcome State Fault Refusal :=
  .next (s.acceptMacro .enc c (encode (.enc c)))

/-- DEC: ODD_LEN when CNT is odd, with nothing else changed; else accepted with MCASE 0 (R251). -/
def execDec (s : State) : Host.Outcome State Fault Refusal :=
  if s.cnt.toNat % 2 = 1 then .next (s.raise .oddLen (encode .dec) 0#64)
  else .next (s.acceptMacro .dec .upper (encode .dec))

/-! ## Unit steps -/

/-- What the running macro writes where it computed `data`: those bytes, or free ones after a host write
into its buffers ("every byte the run writes after it, are any value",
spec/93_implementation_defined.md U8). -/
def State.macroBytes (s : State) (data : List Byte) : List Byte :=
  if s.race.tainted then (List.range data.length).map fun j => Config.freeByte (s.freeCount + j)
  else data

/-- The state after those bytes are settled: the free values used are used up. -/
def State.afterMacroBytes (s : State) (n : Nat) : State :=
  { s with freeCount := s.freeCount + if s.race.tainted then n else 0 }

/-- One block, or one tail element: both ranges are admitted or the step aborts, the read range first
(R263); the whole read comes before the write (R253, R255, R257, R259). The cursors advance modulo
2^64 (spec/44_load_store.md R235). -/
def moveBlock (nIn nOut : Nat) (f : List Byte → List Byte) (s : State) : State :=
  if admitted s.inst .rd s.src nIn then
    if admitted s.inst .wr s.dst nOut then
      let data := f (s.unitBytes s.src nIn)
      let s1 := s.afterUnitRead s.src nIn
      { s with
        mem := s.mem.writeBytes s.dst (s1.macroBytes data)
        src := s.src + BitVec.ofNat 64 nIn
        dst := s.dst + BitVec.ofNat 64 nOut
        cnt := s.cnt - BitVec.ofNat 64 nIn
        freeCount := (s1.afterMacroBytes data.length).freeCount }
    else s.abort s.dst
  else s.abort s.src

/-- `MSTATE <- TAIL`. Nothing else changes (R254, R258). -/
def State.toTail (s : State) : State := { s with mstate := .tail }

/-- `MSTATE <- IDLE ; STATUS.DONE <- 1` (R256, R260). -/
def State.finish (s : State) : State := { s with mstate := .idle, done := true }

/-- An ENC run's step (R253 to R256). -/
def encStep (s : State) : State :=
  match s.mstate with
  | .idle => s
  | .bulk =>
    if s.lanes ≤ s.cnt.toNat then moveBlock s.lanes (2 * s.lanes) (encBlock s.mcase) s else s.toTail
  | .tail => if 1 ≤ s.cnt.toNat then moveBlock 1 2 (encBlock s.mcase) s else s.finish

/-- A DEC run's step (R257 to R260). TAIL with CNT = 1 has no rule; "CNT = 1 never occurs in DEC TAIL"
(R259). -/
def decStep (s : State) : Host.Outcome State Fault Refusal :=
  match s.mstate with
  | .idle => .next s
  | .bulk =>
    if 2 * s.lanes ≤ s.cnt.toNat then .next (moveBlock (2 * s.lanes) s.lanes decBlock s)
    else .next s.toTail
  | .tail =>
    if 2 ≤ s.cnt.toNat then .next (moveBlock 2 1 decBlock s)
    else if s.cnt.toNat = 0 then .next s.finish
    else .fault .noUnitRule

/-- One step of the unit, chosen by (MOP, MSTATE, CNT) (R252). With MSTATE = IDLE the unit has no step,
and nothing changes. -/
def unitStep (s : State) : Host.Outcome State Fault Refusal :=
  match s.mop with
  | .enc => .next (encStep s)
  | .dec => decStep s

end Sys2Proof.Machine
end

