-- ==== Sys2Proof/Machine/NibbleMap.lean ====
section
/-! DEFINITION. Nibble to ASCII, ASCII to nibble, and combine (spec/41_nibble_map.md). -/

namespace Sys2Proof.Machine

/-- N2A by the lookup table: `(C = 0 ? LUT_U : LUT_L)[x & 0x0F]` (R161). -/
def n2aLut (c : CaseMode) (x : Byte) : Byte := (lutOf c).getD (x &&& 0x0F#8).toNat 0#8

/-- The letter offset of the arithmetic technique: `'A'-10` or `'a'-10` (R162). -/
def letterOffset : CaseMode → Byte
  | .upper => 0x37#8
  | .lower => 0x57#8

/-- N2A by the arithmetic branchless technique (R162). -/
def n2aArith (c : CaseMode) (x : Byte) : Byte :=
  let n := x &&& 0x0F#8
  let m := rngByte 10#8 15#8 n
  selByte m (n + letterOffset c) (n + 0x30#8)

/-- N2A on one lane, by the instance's mapper (spec/00_scope.md R8). -/
def n2aByte (mapper : Mapper) (c : CaseMode) (x : Byte) : Byte :=
  match mapper with
  | .lut => n2aLut c x
  | .arith => n2aArith c x

/-- A2N on one lane: subtract each range's offset under its mask and OR the three (R163). -/
def a2nByte (x : Byte) : Byte :=
  let md := rngByte 0x30#8 0x39#8 x
  let mu := rngByte 0x41#8 0x46#8 x
  let ml := rngByte 0x61#8 0x66#8 x
  ((x - 0x30#8) &&& md) ||| ((x - 0x37#8) &&& mu) ||| ((x - 0x57#8) &&& ml)

/-- N2A vd, va, c (R160). -/
def execN2a (vd va : VReg) (c : CaseMode) (s : State) : Host.Outcome State Fault Refusal :=
  .next (laneMap1 (n2aByte s.inst.mapper c) vd va s)

/-- A2N vd, va (R163). A byte outside the alphabet gives 0 and is no error (spec/60_exceptions.md
R286). -/
def execA2n (vd va : VReg) (s : State) : Host.Outcome State Fault Refusal :=
  .next (laneMap1 a2nByte vd va s)

/-- CMB vd, va, vb: `((Va[i] << 4) mod 256) | Vb[i]` (R164). -/
def execCmb (vd va vb : VReg) (s : State) : Host.Outcome State Fault Refusal :=
  .next (laneMap2 combine vd va vb s)

end Sys2Proof.Machine
end

