-- ==== Sys2Proof/Machine/Reorder.lean ====
section
/-! DEFINITION. Interleave and lane-group permutation (spec/43_lane_reorder.md). The spec's loops name
the destination lane of each source lane; the functions here name the source of destination lane
`j`. -/

namespace Sys2Proof.Machine

/-- A reorder command with the given lane rule: ILLEGAL in an instance with W = 1, since "a group has
no halves" (R210; spec/30_encoding.md R108), else every lane of Vd from Va and Vb. -/
def reorder (i : Instr) (pick : State → (Nat → Byte) → (Nat → Byte) → Nat → Byte)
    (vd va vb : VReg) (s : State) : Host.Outcome State Fault Refusal :=
  if s.inst.width = .w1 then .next (s.raise .illegal (encode i) 0#64)
  else .next (s.setV vd (pick s (s.lane va) (s.lane vb)))

/-- Destination lane `j = g*G + p` of an interleave of the half group that begins `base` lanes into its
group: `p = 2k` takes Va[g*G + base + k] and `p = 2k + 1` takes Vb[g*G + base + k] (R211, R212). -/
def interleaveLane (group base : Nat) (a b : Nat → Byte) (j : Nat) : Byte :=
  let src := j / group * group + base + j % group / 2
  if j % group % 2 = 0 then a src else b src

/-- Destination lane `j` of the groups of the sequence S = Va.g0, Vb.g0, Va.g1, Vb.g1, … from group
`first` on (R213, R214). -/
def zipGroupLane (group first : Nat) (a b : Nat → Byte) (j : Nat) : Byte :=
  let t := j / group + first
  let src := t / 2 * group + j % group
  if t % 2 = 0 then a src else b src

/-- ILVLO vd, va, vb: interleave the low halves of each group (R211). -/
def execIlvlo (vd va vb : VReg) (s : State) : Host.Outcome State Fault Refusal :=
  reorder (.ilvlo vd va vb) (fun s => interleaveLane s.group 0) vd va vb s

/-- ILVHI vd, va, vb: interleave the high halves of each group (R212). -/
def execIlvhi (vd va vb : VReg) (s : State) : Host.Outcome State Fault Refusal :=
  reorder (.ilvhi vd va vb) (fun s => interleaveLane s.group (s.group / 2)) vd va vb s

/-- ZIPGLO vd, va, vb: groups 0..n-1 of S (R213). -/
def execZipglo (vd va vb : VReg) (s : State) : Host.Outcome State Fault Refusal :=
  reorder (.zipglo vd va vb) (fun s => zipGroupLane s.group 0) vd va vb s

/-- ZIPGHI vd, va, vb: groups n..2n-1 of S (R214). -/
def execZipghi (vd va vb : VReg) (s : State) : Host.Outcome State Fault Refusal :=
  reorder (.zipghi vd va vb) (fun s => zipGroupLane s.group s.groups) vd va vb s

end Sys2Proof.Machine
end

