-- ==== Sys2Proof/Machine/Dispatch.lean ====
section
/-! DEFINITION. The meaning of a command that CMD accepted and decoding passed, one arm per constructor. -/

namespace Sys2Proof.Machine

def exec (i : Instr) (s : State) : Host.Outcome State Fault Refusal :=
  match i with
  | .nop => Sys2Proof.Machine.execNop s
  | .ld vd => Sys2Proof.Machine.execLd vd s
  | .ld2 vd ve => Sys2Proof.Machine.execLd2 vd ve s
  | .st va => Sys2Proof.Machine.execSt va s
  | .ldb vd => Sys2Proof.Machine.execLdb vd s
  | .stb va => Sys2Proof.Machine.execStb va s
  | .splat vd imm8 => Sys2Proof.Machine.execSplat vd imm8 s
  | .and vd va vb => Sys2Proof.Machine.execAnd vd va vb s
  | .or vd va vb => Sys2Proof.Machine.execOr vd va vb s
  | .xor vd va vb => Sys2Proof.Machine.execXor vd va vb s
  | .add vd va vb => Sys2Proof.Machine.execAdd vd va vb s
  | .sub vd va vb => Sys2Proof.Machine.execSub vd va vb s
  | .andi vd va imm8 => Sys2Proof.Machine.execAndi vd va imm8 s
  | .ori vd va imm8 => Sys2Proof.Machine.execOri vd va imm8 s
  | .xori vd va imm8 => Sys2Proof.Machine.execXori vd va imm8 s
  | .addi vd va imm8 => Sys2Proof.Machine.execAddi vd va imm8 s
  | .shli vd va sh => Sys2Proof.Machine.execShli vd va sh s
  | .shri vd va sh => Sys2Proof.Machine.execShri vd va sh s
  | .rng vd va lo hi => Sys2Proof.Machine.execRng vd va lo hi s
  | .sel vd vm va vb => Sys2Proof.Machine.execSel vd vm va vb s
  | .n2a vd va c => Sys2Proof.Machine.execN2a vd va c s
  | .a2n vd va => Sys2Proof.Machine.execA2n vd va s
  | .cmb vd va vb => Sys2Proof.Machine.execCmb vd va vb s
  | .ilvlo vd va vb => Sys2Proof.Machine.execIlvlo vd va vb s
  | .ilvhi vd va vb => Sys2Proof.Machine.execIlvhi vd va vb s
  | .zipglo vd va vb => Sys2Proof.Machine.execZipglo vd va vb s
  | .zipghi vd va vb => Sys2Proof.Machine.execZipghi vd va vb s
  | .enc c => Sys2Proof.Machine.execEnc c s
  | .dec => Sys2Proof.Machine.execDec s

end Sys2Proof.Machine
end

