-- ==== Sys2Proof/Machine/HostPort.lean ====
section
/-! DEFINITION. What a host step does: register reads and writes in the window (spec/10_state.md R40 to
R53), reads and writes of the data memory (spec/20_memory.md R81, R82), and the reset input. -/

namespace Sys2Proof.Machine

/-- A host access to the window is admitted only as an 8-byte access at an offset that is a multiple of
8 (R40). -/
def regAccessOk (off : BitVec 8) (bytes : Nat) : Bool := bytes == 8 && off.toNat % 8 == 0

/-- A host write of `v` to CMD (R47): dropped while BUSY or with an error recorded; otherwise the word
v[31:0] is decoded and carried out in this step, or raises ILLEGAL (spec/30_encoding.md R109, R110). -/
def writeCmd (v : Word64) (s : State) : Host.Outcome State Fault Refusal :=
  let w : CmdWord := v.extractLsb' 0 32
  if s.busy || s.err != .none then .next s.dropWrite
  else
    match decode s.inst.width w with
    | some i => exec i s
    | none => .next (s.raise .illegal w 0#64)

/-- A host write of `v` to the register at `off` (R42): SRC, DST and CNT are dropped while BUSY (R53);
the read-only registers and the reserved offsets ignore writes (R41, R42). -/
def writeReg (off : BitVec 8) (v : Word64) (s : State) : Host.Outcome State Fault Refusal :=
  match off.toNat with
  | 0x08 => .next (s.writeStatus v)
  | 0x10 => writeCmd v s
  | 0x18 => .next (if s.busy then s.dropWrite else { s with src := v })
  | 0x20 => .next (if s.busy then s.dropWrite else { s with dst := v })
  | 0x28 => .next (if s.busy then s.dropWrite else { s with cnt := v })
  | _ => .next s

/-- The bytes a host read of the data memory returns: the memory's, and "any byte value" inside a
running macro's buffers (spec/20_memory.md R82). -/
def State.hostBytes (s : State) (addr : Addr) (n : Nat) : List Byte :=
  (List.range n).map fun j =>
    let a := addr + BitVec.ofNat 64 j
    if s.inRunningBuffers a then Config.freeByte (s.freeCount + j) else s.mem.read a.toNat

/-- The addresses of `n` bytes from `addr` on that lie in a running macro's buffers. -/
def State.racedAddrs (s : State) (addr : Addr) (n : Nat) : List Nat :=
  ((List.range n).map fun j => addr + BitVec.ofNat 64 j).filter s.inRunningBuffers
    |>.map BitVec.toNat

/-- A host read of the data memory. -/
def State.hostMemRead (s : State) (addr : Addr) (n : Nat) : State :=
  { s.logRead (.mem addr (s.hostBytes addr n)) with
    freeCount := s.freeCount + if (s.racedAddrs addr n).isEmpty then 0 else n }

/-- A host write of the data memory. Where it breaks the duty of R82 the bytes it hit are noted. -/
def State.hostMemWrite (s : State) (addr : Addr) (data : List Byte) : State :=
  let hit := s.racedAddrs addr data.length
  { s.writeMem addr data with
    race := { s.race with
      bytes := hit.filter (fun a => !s.race.bytes.contains a) ++ s.race.bytes
      tainted := s.race.tainted || !hit.isEmpty } }

/-- One action of the host, or of the reset input. -/
def hostAct (a : HostAction) (s : State) : Host.Outcome State Fault Refusal :=
  match a with
  | .regRead off bytes =>
    if regAccessOk off bytes then .next (s.logRead (.reg off (s.readReg off)))
    else .refused .refusedHostAccess
  | .regWrite off bytes value =>
    if regAccessOk off bytes then writeReg off value s else .refused .refusedHostAccess
  | .memRead addr n =>
    if overlapsWindow s.inst addr n then .refused .refusedHostAccess else .next (s.hostMemRead addr n)
  | .memWrite addr data =>
    if overlapsWindow s.inst addr data.length then .refused .refusedHostAccess
    else .next (s.hostMemWrite addr data)
  | .wait =>
    let s1 := s.logRead (.reg 0x08#8 s.statusWord)
    .next (if s.busy then { s1 with host := .wait :: s1.host } else s1)
  | .reset => .next s.resetUnit

/-- The host's step: its next action, which leaves the list. With none left nothing happens. -/
def hostStep (s : State) : Host.Outcome State Fault Refusal :=
  match s.host with
  | [] => .next s
  | a :: rest => hostAct a { s with host := rest }

/-- Which agent moves: the one the schedule names; with no schedule left, the unit while it has a step,
else the host. DESIGN CHOICE: notes/assumptions/7.md. -/
def State.nextAgent (s : State) : Agent :=
  match s.sched with
  | a :: _ => a
  | [] => if s.busy then .unit else .host

/-- The state with the schedule's entry used up. -/
def State.popSched (s : State) : State := { s with sched := s.sched.tail }

/-- The host writes word `w` to CMD as its next action, and moves next; the unit stands ready to accept
it (IDLE, no error recorded). -/
def State.offerWord (s : State) (w : Nat) : State :=
  { s.clearError with
    mstate := .idle
    host := .regWrite 0x10#8 8 (BitVec.ofNat 64 (w % 2 ^ 32)) :: s.host
    sched := .host :: s.sched }

end Sys2Proof.Machine
end

