-- ==== Sys2Proof/Machine/Step.lean ====
section
/-! DEFINITION. The step of the whole machine: one step of one agent (spec/00_scope.md R16,
spec/20_memory.md R81). -/

namespace Sys2Proof.Machine

/-- One step. Host steps and unit steps interleave in the order State holds
(spec/45_block_fsm.md R252). -/
def step (s : State) : Host.Outcome State Fault Refusal :=
  match s.nextAgent with
  | .host => hostStep s.popSched
  | .unit => unitStep s.popSched

/-- `s` with a table row's word placed where the next step takes its command from: the host's next
action writes it to CMD. The unit has no program counter and fetches nothing (spec/10_state.md R36);
a program is the host's action list, loaded from outside (notes/assumptions/6.md). -/
def State.withFetchWord (s : State) (nbits w : Nat) : State := s.offerWord (w % 2 ^ nbits)

end Sys2Proof.Machine
end

