-- ==== Sys2Proof/Safety.lean ====
section
/-! DEFINITION. What counts as a safe run, in the terms claims use: reads of unwritten lane registers
(the spec's model fault UninitLaneRead), the invariant of the machine, runs of commands and of unit
steps, and the frames of register results. -/

namespace Sys2Proof

/-- The lane registers a command reads (the operands of its rule). -/
def Instr.laneSources : Instr → List VReg
  | .nop => []
  | .ld _ => []
  | .ld2 _ _ => []
  | .st va => [va]
  | .ldb _ => []
  | .stb va => [va]
  | .splat _ _ => []
  | .and _ va vb => [va, vb]
  | .or _ va vb => [va, vb]
  | .xor _ va vb => [va, vb]
  | .add _ va vb => [va, vb]
  | .sub _ va vb => [va, vb]
  | .andi _ va _ => [va]
  | .ori _ va _ => [va]
  | .xori _ va _ => [va]
  | .addi _ va _ => [va]
  | .shli _ va _ => [va]
  | .shri _ va _ => [va]
  | .rng _ va _ _ => [va]
  | .sel _ vm va vb => [vm, va, vb]
  | .n2a _ va _ => [va]
  | .a2n _ va => [va]
  | .cmb _ va vb => [va, vb]
  | .ilvlo _ va vb => [va, vb]
  | .ilvhi _ va vb => [va, vb]
  | .zipglo _ va vb => [va, vb]
  | .zipghi _ va vb => [va, vb]
  | .enc _ => []
  | .dec => []

/-- ENC and DEC are the macro commands; "Micro-op: every other command" (spec/00_scope.md R19). -/
def Instr.isMacro : Instr → Bool
  | .enc _ => true
  | .dec => true
  | _ => false

/-- The bit C of a case as a number (spec/30_encoding.md R101). -/
def caseNumber : CaseMode → Nat
  | .upper => 0
  | .lower => 1

/-- The fields of a command's word: the lowest bit of each and its value, OP first
(spec/30_encoding.md R101, R103, R105). -/
def Instr.fields : Instr → List (Nat × Nat)
  | .nop => [(26, 0x01)]
  | .ld vd => [(26, 0x02), (23, vd)]
  | .ld2 vd ve => [(26, 0x03), (23, vd), (20, ve)]
  | .st va => [(26, 0x04), (20, va)]
  | .ldb vd => [(26, 0x05), (23, vd)]
  | .stb va => [(26, 0x06), (20, va)]
  | .splat vd imm8 => [(26, 0x07), (23, vd), (0, imm8.toNat)]
  | .and vd va vb => [(26, 0x08), (23, vd), (20, va), (17, vb)]
  | .or vd va vb => [(26, 0x09), (23, vd), (20, va), (17, vb)]
  | .xor vd va vb => [(26, 0x0A), (23, vd), (20, va), (17, vb)]
  | .add vd va vb => [(26, 0x0B), (23, vd), (20, va), (17, vb)]
  | .sub vd va vb => [(26, 0x0C), (23, vd), (20, va), (17, vb)]
  | .andi vd va imm8 => [(26, 0x10), (23, vd), (20, va), (0, imm8.toNat)]
  | .ori vd va imm8 => [(26, 0x11), (23, vd), (20, va), (0, imm8.toNat)]
  | .xori vd va imm8 => [(26, 0x12), (23, vd), (20, va), (0, imm8.toNat)]
  | .addi vd va imm8 => [(26, 0x13), (23, vd), (20, va), (0, imm8.toNat)]
  | .shli vd va sh => [(26, 0x14), (23, vd), (20, va), (0, sh)]
  | .shri vd va sh => [(26, 0x15), (23, vd), (20, va), (0, sh)]
  | .rng vd va lo hi => [(26, 0x18), (23, vd), (20, va), (8, hi.toNat), (0, lo.toNat)]
  | .sel vd vm va vb => [(26, 0x19), (23, vd), (20, va), (17, vb), (14, vm)]
  | .n2a vd va c => [(26, 0x1A), (23, vd), (20, va), (0, caseNumber c)]
  | .a2n vd va => [(26, 0x1B), (23, vd), (20, va)]
  | .cmb vd va vb => [(26, 0x1C), (23, vd), (20, va), (17, vb)]
  | .ilvlo vd va vb => [(26, 0x20), (23, vd), (20, va), (17, vb)]
  | .ilvhi vd va vb => [(26, 0x21), (23, vd), (20, va), (17, vb)]
  | .zipglo vd va vb => [(26, 0x22), (23, vd), (20, va), (17, vb)]
  | .zipghi vd va vb => [(26, 0x23), (23, vd), (20, va), (17, vb)]
  | .enc c => [(26, 0x30), (0, caseNumber c)]
  | .dec => [(26, 0x31)]

/-- A command's word as a number: every field at its place, every other bit 0
(spec/30_encoding.md R103). -/
def Instr.wordNumber (i : Instr) : Nat := (i.fields.map fun f => f.2 * 2 ^ f.1).sum

end Sys2Proof

namespace Sys2Proof.Machine

/-- UninitLaneRead (spec/60_exceptions.md R300, spec/10_state.md R31): the command reads a lane register
whose `init` bit is clear. The hardware "returns an unspecified value"; a claim about such a run
says nothing. DESIGN CHOICE, unsafe: the model goes on with the value the register holds
(notes/assumptions/4.md). -/
def State.readsUninit (s : State) (i : Instr) : Bool := i.laneSources.any fun r => !s.init[r]

/-- Two states that differ at most in what never-written lane registers hold (spec/10_state.md R31). -/
structure AgreeOnWritten (s t : State) : Prop where
  rest : t = { s with v := t.v }
  written : ∀ r : VReg, s.init[r] = true → t.v[r] = s.v[r]

/-- The register a command writes lane by lane holds `f`, its `init` bit is set, and nothing else has
changed: no other lane register, no other field of the state, no byte of memory. -/
structure WritesLanes (s t : State) (vd : VReg) (f : Nat → Byte) : Prop where
  lanes : ∀ i, i < s.lanes → t.lane vd i = f i
  others : ∀ r : VReg, r ≠ vd → t.v[r] = s.v[r]
  init_dest : t.init[vd] = true
  init_others : ∀ r : VReg, r ≠ vd → t.init[r] = s.init[r]
  rest : t = { s with v := t.v, init := t.init }
  memory : ∀ a : Addr, t.mem.read a.toNat = s.mem.read a.toNat

/-- The macro command the unit's MOP and MCASE stand for. -/
def State.macroInstr (s : State) : Instr :=
  match s.mop with
  | .enc => .enc s.mcase
  | .dec => .dec

/-- The invariant of the machine: what holds in every state a run reaches (spec/10_state.md R45, R50,
R51, R52; spec/45_block_fsm.md R253 to R260; spec/93_implementation_defined.md U10). -/
structure State.Inv (s : State) : Prop where
  /-- Memory is in its canonical form. -/
  mem_wf : s.mem.wf = true
  /-- Every lane register holds W bytes (R30). -/
  lanes_wf : ∀ r : VReg, (s.v[r]).length = s.lanes
  /-- "BUSY = 1 implies ERR = 0" (R45). -/
  busy_no_error : s.busy = true → s.err = .none
  /-- DONE is clear while a macro runs (R45, D39). -/
  busy_not_done : s.busy = true → s.done = false
  /-- MWORD is the word of the macro being run (R37). -/
  busy_word : s.busy = true → s.mword = encode s.macroInstr
  /-- With no error recorded, ERRCMD and ERRADDR read 0 (R281, R292). -/
  no_error_record : s.err = .none → s.errcmd = 0#32 ∧ s.erraddr = 0#64
  /-- ERRADDR is 0 for every error but MEM_FAULT (R52). -/
  erraddr_fault : s.err ≠ .memFault → s.erraddr = 0#64
  /-- "CASE reads 0 after a DEC" (R45). -/
  dec_case : s.mop = .dec → s.mcase = .upper
  /-- "CNT is even in every DEC state" (R259). -/
  dec_even : s.busy = true → s.mop = .dec → s.cnt.toNat % 2 = 0
  /-- In TAIL less than a block remains (R254, R258). -/
  tail_short : s.mstate = .tail →
    s.cnt.toNat < (match s.mop with | .enc => s.lanes | .dec => 2 * s.lanes)
  /-- What remains never exceeds what the macro was given. -/
  cnt_le : s.busy = true → s.cnt.toNat ≤ s.race.cnt0.toNat
  /-- SRC is as far past its start as elements are consumed (R253 to R259). -/
  src_progress : s.busy = true → s.src = s.race.src0 + (s.race.cnt0 - s.cnt)
  /-- DST is as far past its start as the output of those elements is long (R253 to R259). -/
  dst_progress : s.busy = true → s.dst = s.race.dst0 + BitVec.ofNat 64
    (match s.mop with
      | .enc => 2 * (s.race.cnt0.toNat - s.cnt.toNat)
      | .dec => (s.race.cnt0.toNat - s.cnt.toNat) / 2)

/-- The match and mask of every row of spec/opcode_table.json, in its order. -/
def commandTable : List (CmdWord × CmdWord) :=
  [(0x04000000#32, 0xFFFFFFFF#32),
   (0x08000000#32, 0xFC7FFFFF#32),
   (0x0C000000#32, 0xFC0FFFFF#32),
   (0x10000000#32, 0xFF8FFFFF#32),
   (0x14000000#32, 0xFC7FFFFF#32),
   (0x18000000#32, 0xFF8FFFFF#32),
   (0x1C000000#32, 0xFC7FFF00#32),
   (0x20000000#32, 0xFC01FFFF#32),
   (0x24000000#32, 0xFC01FFFF#32),
   (0x28000000#32, 0xFC01FFFF#32),
   (0x2C000000#32, 0xFC01FFFF#32),
   (0x30000000#32, 0xFC01FFFF#32),
   (0x40000000#32, 0xFC0FFF00#32),
   (0x44000000#32, 0xFC0FFF00#32),
   (0x48000000#32, 0xFC0FFF00#32),
   (0x4C000000#32, 0xFC0FFF00#32),
   (0x50000000#32, 0xFC0FFFF8#32),
   (0x54000000#32, 0xFC0FFFF8#32),
   (0x60000000#32, 0xFC0F0000#32),
   (0x64000000#32, 0xFC003FFF#32),
   (0x68000000#32, 0xFC0FFFFE#32),
   (0x6C000000#32, 0xFC0FFFFF#32),
   (0x70000000#32, 0xFC01FFFF#32),
   (0x80000000#32, 0xFC01FFFF#32),
   (0x84000000#32, 0xFC01FFFF#32),
   (0x88000000#32, 0xFC01FFFF#32),
   (0x8C000000#32, 0xFC01FFFF#32),
   (0xC0000000#32, 0xFFFFFFFE#32),
   (0xC4000000#32, 0xFFFFFFFF#32)]

/-- The words that are commands of an instance of width `w`, in the words of spec/30_encoding.md R103 and
R108: a row's `(w & mask) = match`, but for LD2 with D = E and for a reorder command at W = 1. -/
def legalWord (W : Width) (w : CmdWord) : Bool :=
  (commandTable.any fun r => w &&& r.2 == r.1) &&
  !(w.extractLsb' 26 6 == 0x03#6 && w.extractLsb' 23 3 == w.extractLsb' 20 3) &&
  !(W == .w1 && 0x20#6 ≤ w.extractLsb' 26 6 && w.extractLsb' 26 6 ≤ 0x23#6)

/-- Commands carried out one after another. -/
def runCommands : List Instr → State → Host.Outcome State Fault Refusal
  | [], s => .next s
  | i :: is, s =>
    match exec i s with
    | .next t => runCommands is t
    | .fault f => .fault f
    | .refused r => .refused r

/-- `k` unit steps, with no host step between. -/
def unitRun : Nat → State → Host.Outcome State Fault Refusal
  | 0, s => .next s
  | k + 1, s =>
    match unitStep s with
    | .next t => unitRun k t
    | .fault f => .fault f
    | .refused r => .refused r

/-- The number of unit steps of a macro run that meets no MEM_FAULT (spec/45_block_fsm.md R264), from the
state in which it was accepted. -/
def State.macroSteps (s : State) : Nat :=
  match s.mop with
  | .enc => s.cnt.toNat / s.lanes + 1 + s.cnt.toNat % s.lanes + 1
  | .dec => s.cnt.toNat / (2 * s.lanes) + 1 + s.cnt.toNat % (2 * s.lanes) / 2 + 1

/-- OUT0 of a macro command on `n` input elements (spec/20_memory.md R82). -/
def macroOutLen (i : Instr) (n : Nat) : Nat :=
  match i with
  | .enc _ => 2 * n
  | _ => n / 2

/-- No byte of the macro's source range is a byte of its destination range (spec/45_block_fsm.md R265). -/
def State.disjointBuffers (s : State) (i : Instr) : Prop :=
  ∀ a b, a < s.cnt.toNat → b < macroOutLen i s.cnt.toNat →
    s.src + BitVec.ofNat 64 a ≠ s.dst + BitVec.ofNat 64 b

/-- "ENC BULK block, W >= 2" with micro-ops (spec/45_block_fsm.md R269). -/
def encBlockCommands (c : CaseMode) : List Instr :=
  [.ld 0, .shri 1 0 4, .andi 2 0 0x0F#8, .n2a 1 1 c, .n2a 2 2 c, .ilvlo 3 1 2, .ilvhi 4 1 2,
   .zipglo 5 3 4, .zipghi 6 3 4, .st 5, .st 6]

/-- "ENC one element, and the ENC BULK block when W = 1" (R269). -/
def encElementCommands (c : CaseMode) : List Instr :=
  [.ldb 0, .shri 1 0 4, .andi 2 0 0x0F#8, .n2a 1 1 c, .n2a 2 2 c, .stb 1, .stb 2]

/-- "DEC BULK block" (R269). -/
def decBlockCommands : List Instr := [.ld2 0 1, .a2n 0 0, .a2n 1 1, .cmb 2 0 1, .st 2]

/-- "DEC one pair" (R269). -/
def decPairCommands : List Instr := [.ldb 0, .ldb 1, .a2n 0 0, .a2n 1 1, .cmb 2 0 1, .stb 2]

/-- The commands run from `s` and the unit step taken from `m`, where neither meets a MEM_FAULT, write the
same bytes and leave the same cursors (R269). -/
def SameBlock (cmds : List Instr) (s m : State) : Prop :=
  ∀ t u : State, runCommands cmds s = .next t → t.err = .none →
    unitStep m = .next u → u.err = .none →
    t.src = u.src ∧ t.dst = u.dst ∧ ∀ a : Addr, t.mem.read a.toNat = u.mem.read a.toNat

/-- No racing host write has hit one of the `n` bytes at `addr` (spec/20_memory.md R82). -/
def State.cleanRange (s : State) (addr : Addr) (n : Nat) : Prop :=
  ∀ j, j < n → (addr + BitVec.ofNat 64 j).toNat ∉ s.race.bytes

/-- A run of the macro `op` in state `m`, begun in `s` and not raced since (R82 bounds a race to the run
in which it falls). -/
def State.unraced (s : State) (op : MOp) (c : CaseMode) (m : MState) : State :=
  { s with mop := op, mcase := c, mstate := m, race := { s.race with tainted := false } }

end Sys2Proof.Machine
end

