-- ==== Sys2Proof/Certificates/Slice0/Obligations.lean ====
section
/-! DEFINITION. The statements for the provers, from the numbered rules of spec/. A lane register's value
at reset is the model's choice (notes/assumptions/4.md): no statement rests on it. A byte nobody wrote
and the bytes of a race are free values (notes/assumptions/5.md, 8.md): a statement about a free value
holds of every value. -/

open Sys2Proof Sys2Proof.Machine

/-! ## Reset -/

/-- R54: the reset input gives the listed state in one step, whatever ran before; memory and the instance
stay. That the host's actions, the schedule and the read log stay too is the model's choice
(notes/assumptions/19.md). -/
def Obligations.ResetGivesTheListedState : Prop :=
  ∀ s : State, ∃ t, hostAct .reset s = .next t ∧
    (∀ r : VReg, t.init[r] = false) ∧
    t.mstate = .idle ∧ t.mop = .enc ∧ t.mcase = .upper ∧ t.mword = 0#32 ∧
    t.idWord = s.idWord ∧ t.statusWord = 0#64 ∧
    t.busy = false ∧ t.done = false ∧ t.drop = false ∧ t.err = .none ∧
    t.src = 0#64 ∧ t.dst = 0#64 ∧ t.cnt = 0#64 ∧ t.errcmd = 0#32 ∧ t.erraddr = 0#64 ∧
    t.mem = s.mem ∧ t.inst = s.inst ∧
    t.host = s.host ∧ t.sched = s.sched ∧ t.reads = s.reads

/-- The invariant holds right after reset, for every instance and every canonical memory, and at
State.reset. -/
def Obligations.ResetMeetsTheInvariant : Prop :=
  (∀ (inst : Instance) (m : Memory), m.wf = true → (State.resetOf inst m).Inv) ∧ State.reset.Inv

/-! ## The host port -/

/-- R47: a CMD write that is accepted and decodes to `i` makes the step `exec i`, on the state with the
host's action and the schedule's entry used up. R16, R81, R252: every step is one whole step of one
agent, the unit's or the host's next action. Which agent moves, that the host's program is a list of
actions, and that a host without one changes nothing, are the model's choices
(notes/assumptions/6.md, 7.md and 18.md). -/
def Obligations.StepRunsTheDecodedCommand : Prop :=
  (∀ (s : State) (v : Word64) (rest : List HostAction) (i : Instr),
    s.nextAgent = .host → s.host = .regWrite 0x10#8 8 v :: rest →
    s.busy = false → s.err = .none → decode s.inst.width (v.extractLsb' 0 32) = some i →
    step s = exec i { s with host := rest, sched := s.sched.tail }) ∧
  (∀ s : State, s.nextAgent = .unit → step s = unitStep { s with sched := s.sched.tail }) ∧
  (∀ (s : State) (a : HostAction) (rest : List HostAction),
    s.nextAgent = .host → s.host = a :: rest →
    step s = hostAct a { s with host := rest, sched := s.sched.tail }) ∧
  (∀ s : State, s.nextAgent = .host → s.host = [] →
    step s = .next { s with sched := s.sched.tail }) ∧
  (∀ (s : State) (a : Agent) (rest : List Agent), s.sched = a :: rest → s.nextAgent = a) ∧
  (∀ s : State, s.sched = [] → s.nextAgent = if s.busy then .unit else .host)

/-- R290: the dropped writes change nothing but DROP, and DROP is cleared only by a write of STATUS with
bit 6 set or by reset. -/
def Obligations.DroppedWritesOnlySetDrop : Prop :=
  (∀ (s : State) (v : Word64), (s.busy = true ∨ s.err ≠ .none) →
    hostAct (.regWrite 0x10#8 8 v) s = .next { s with drop := true }) ∧
  (∀ (s : State) (v : Word64) (off : BitVec 8), off ∈ [0x18#8, 0x20#8, 0x28#8] → s.busy = true →
    hostAct (.regWrite off 8 v) s = .next { s with drop := true }) ∧
  (∀ s t : State, step s = .next t → s.drop = true →
    (∀ a rest, s.nextAgent = .host → s.host = a :: rest →
      a ≠ .reset ∧ ∀ v, a = .regWrite 0x08#8 8 v → v.getLsbD 6 = false) →
    t.drop = true)

/-- R53: writes to SRC, DST and CNT are dropped while BUSY and take effect otherwise, whatever ERR is. -/
def Obligations.CursorWritesByBusy : Prop :=
  ∀ (s : State) (v : Word64),
    (s.busy = true →
      hostAct (.regWrite 0x18#8 8 v) s = .next { s with drop := true } ∧
      hostAct (.regWrite 0x20#8 8 v) s = .next { s with drop := true } ∧
      hostAct (.regWrite 0x28#8 8 v) s = .next { s with drop := true }) ∧
    (s.busy = false →
      hostAct (.regWrite 0x18#8 8 v) s = .next { s with src := v } ∧
      hostAct (.regWrite 0x20#8 8 v) s = .next { s with dst := v } ∧
      hostAct (.regWrite 0x28#8 8 v) s = .next { s with cnt := v })

/-- R46, R291: what a write of STATUS does, in every state, and that after ERRCLR an idle unit carries out
commands again. -/
def Obligations.StatusWriteDoesExactlyThis : Prop :=
  ∀ (s : State) (v : Word64), ∃ t, hostAct (.regWrite 0x08#8 8 v) s = .next t ∧
    t.done = (if v.getLsbD 5 then false else s.done) ∧
    t.drop = (if v.getLsbD 6 then false else s.drop) ∧
    t.err = (if v.getLsbD 7 then .none else s.err) ∧
    t.errcmd = (if v.getLsbD 7 then 0#32 else s.errcmd) ∧
    t.erraddr = (if v.getLsbD 7 then 0#64 else s.erraddr) ∧
    t = { s with done := t.done, drop := t.drop, err := t.err, errcmd := t.errcmd,
                 erraddr := t.erraddr } ∧
    (v.getLsbD 7 = true → s.busy = false → ∀ (u : Word64) (i : Instr),
      decode t.inst.width (u.extractLsb' 0 32) = some i →
      hostAct (.regWrite 0x10#8 8 u) t = exec i t)

/-- R45: the fields of a read of STATUS. R114: `wait` reads STATUS, and goes on reading it while BUSY = 1;
that it is an action of the host's list is the model's choice (notes/assumptions/6.md). -/
def Obligations.StatusReadsItsFields : Prop :=
  ∀ s : State,
    hostAct (.regRead 0x08#8 8) s = .next { s with reads := .reg 0x08#8 s.statusWord :: s.reads } ∧
    s.statusWord.getLsbD 0 = (s.mstate != .idle) ∧
    (s.statusWord.extractLsb' 1 2).toNat
      = (match s.mstate with | .idle => 0 | .bulk => 1 | .tail => 2) ∧
    s.statusWord.getLsbD 3 = (s.mop == .dec) ∧
    s.statusWord.getLsbD 4 = (s.mcase == .lower) ∧
    s.statusWord.getLsbD 5 = s.done ∧
    s.statusWord.getLsbD 6 = s.drop ∧
    s.statusWord.getLsbD 7 = false ∧
    (s.statusWord.extractLsb' 8 4).toNat
      = (match s.err with | .none => 0 | .illegal => 1 | .oddLen => 2 | .memFault => 3) ∧
    s.statusWord.extractLsb' 12 52 = 0#52 ∧
    hostAct .wait s = .next { s with
      reads := .reg 0x08#8 s.statusWord :: s.reads
      host := if s.busy then .wait :: s.host else s.host }

/-- R44: the fields of ID, its value for W = 32 and LUT, and that neither a write nor reset changes it. -/
def Obligations.IdReadsTheInstance : Prop :=
  ∀ s : State,
    hostAct (.regRead 0x00#8 8) s = .next { s with reads := .reg 0x00#8 s.idWord :: s.reads } ∧
    (s.idWord.extractLsb' 0 8).toNat = s.inst.width.lanes ∧
    (s.idWord.extractLsb' 8 8).toNat = min s.inst.width.lanes 16 ∧
    (s.idWord.extractLsb' 16 4).toNat = 8 ∧
    s.idWord.getLsbD 20 = (s.inst.mapper == .lut) ∧
    s.idWord.extractLsb' 21 3 = 0#3 ∧
    s.idWord.extractLsb' 24 8 = 0x01#8 ∧
    s.idWord.extractLsb' 32 32 = 0#32 ∧
    (s.inst.width = .w32 → s.inst.mapper = .lut → s.idWord = 0x0000000001181020#64) ∧
    (∀ v : Word64, hostAct (.regWrite 0x00#8 8 v) s = .next s) ∧
    (∀ t : State, hostAct .reset s = .next t → t.idWord = s.idWord)

/-- R41: the reserved offsets read 0, and a write to one changes nothing, DROP included. -/
def Obligations.ReservedOffsetsReadZero : Prop :=
  ∀ (s : State) (off : BitVec 8) (v : Word64), 0x40 ≤ off.toNat → off.toNat % 8 = 0 →
    hostAct (.regRead off 8) s = .next { s with reads := .reg off 0#64 :: s.reads } ∧
    hostAct (.regWrite off 8 v) s = .next s

/-- R42, R47 to R52, R77: what the other registers read, that a read changes nothing of the unit, and
that a write to a read-only register is ignored. -/
def Obligations.RegisterMapReadsAndReadOnlyWrites : Prop :=
  ∀ s : State,
    hostAct (.regRead 0x10#8 8) s = .next { s with reads := .reg 0x10#8 0#64 :: s.reads } ∧
    hostAct (.regRead 0x18#8 8) s = .next { s with reads := .reg 0x18#8 s.src :: s.reads } ∧
    hostAct (.regRead 0x20#8 8) s = .next { s with reads := .reg 0x20#8 s.dst :: s.reads } ∧
    hostAct (.regRead 0x28#8 8) s = .next { s with reads := .reg 0x28#8 s.cnt :: s.reads } ∧
    hostAct (.regRead 0x30#8 8) s
      = .next { s with reads := .reg 0x30#8 (BitVec.ofNat 64 s.errcmd.toNat) :: s.reads } ∧
    hostAct (.regRead 0x38#8 8) s = .next { s with reads := .reg 0x38#8 s.erraddr :: s.reads } ∧
    (∀ (v : Word64) (off : BitVec 8), off ∈ [0x00#8, 0x30#8, 0x38#8] →
      hostAct (.regWrite off 8 v) s = .next s)

/-- R40, R300: a window access of another width or alignment is refused. -/
def Obligations.UnalignedWindowAccessIsRefused : Prop :=
  ∀ (s : State) (off : BitVec 8) (n : Nat) (v : Word64), (n ≠ 8 ∨ off.toNat % 8 ≠ 0) →
    hostAct (.regRead off n) s = .refused .refusedHostAccess ∧
    hostAct (.regWrite off n v) s = .refused .refusedHostAccess

/-- R81, R82: host reads and writes of the data memory. Outside a running macro's buffers a read returns
the memory's bytes; a write stores its bytes and nothing else; a write into those buffers is noted,
what was noted stays noted, and a later unit read of such a byte gives a free value. The model's
choices: the free value for "any value" (notes/assumptions/8.md), any number of bytes in one host step
(20.md), and buffers counted modulo 2^64 (17.md). -/
def Obligations.HostMemoryAccessesAndRaces : Prop :=
  (∀ (s : State) (a : Addr) (n : Nat), overlapsWindow s.inst a n = false →
    ∃ t data, hostAct (.memRead a n) s = .next t ∧ t.reads = .mem a data :: s.reads ∧
      data.length = n ∧
      (∀ j, j < n → s.inRunningBuffers (a + BitVec.ofNat 64 j) = false →
        data[j]? = some (s.mem.read (a + BitVec.ofNat 64 j).toNat)) ∧
      t = { s with reads := t.reads, freeCount := t.freeCount }) ∧
  (∀ (s : State) (a : Addr) (data : List Byte), data.length ≤ 2 ^ 64 →
    overlapsWindow s.inst a data.length = false →
    ∃ t, hostAct (.memWrite a data) s = .next t ∧
      (∀ j (h : j < data.length), t.mem.read (a + BitVec.ofNat 64 j).toNat = data[j]) ∧
      (∀ x : Addr, (∀ j, j < data.length → x ≠ a + BitVec.ofNat 64 j) →
        t.mem.read x.toNat = s.mem.read x.toNat) ∧
      t = { s with
        mem := t.mem
        race := { s.race with bytes := t.race.bytes, tainted := t.race.tainted } } ∧
      (∀ x : Nat, x ∈ t.race.bytes ↔ x ∈ s.race.bytes ∨
        ∃ j, j < data.length ∧ s.inRunningBuffers (a + BitVec.ofNat 64 j) = true ∧
          x = (a + BitVec.ofNat 64 j).toNat) ∧
      (t.race.tainted = true ↔ s.race.tainted = true ∨
        ∃ j, j < data.length ∧ s.inRunningBuffers (a + BitVec.ofNat 64 j) = true)) ∧
  (∀ (s : State) (a : Addr), a.toNat ∈ s.race.bytes → s.unitBytes a 1 = [Config.freeByte s.freeCount]) ∧
  (∀ s t : State, step s = .next t → ∀ x ∈ s.race.bytes, x ∈ t.race.bytes)

/-! ## Encoding -/

/-- R106, R107, R109, R282: a word the table does not hold, or that breaks an operand constraint, records
ILLEGAL with the word and changes nothing else. -/
def Obligations.IllegalWordsOnlyRecordTheError : Prop :=
  ∀ (s : State) (v : Word64), s.busy = false → s.err = .none →
    legalWord s.inst.width (v.extractLsb' 0 32) = false →
    hostAct (.regWrite 0x10#8 8 v) s
      = .next { s with err := .illegal, errcmd := v.extractLsb' 0 32, erraddr := 0#64 }

/-- R103, R106, R107, R108, R110: the decoder accepts exactly the table's words, on all 2^32 words and in
every width; R101, R103, R105: the word of each command is the number that its OP and its operands
make at their places. -/
def Obligations.DecodeAcceptsExactlyTheTable : Prop :=
  (∀ (W : Width) (w : CmdWord), (decode W w).isSome = legalWord W w) ∧
  (∀ i : Instr, (encode i).toNat = i.wordNumber)

/-- R115: the sample words, both ways, and with them every other word of V-ENC
(spec/95_test_vectors.md). -/
def Obligations.SampleWordsDecodeAndEncode : Prop :=
  ∀ p ∈ ([(.nop, 0x04000000#32), (.enc .upper, 0xC0000000#32), (.enc .lower, 0xC0000001#32),
      (.dec, 0xC4000000#32), (.a2n 0 0, 0x6C000000#32), (.cmb 2 0 1, 0x71020000#32),
      (.ilvlo 3 1 2, 0x81940000#32), (.sel 3 1 2 0, 0x65A04000#32), (.andi 2 0 0x0F#8, 0x4100000F#32),
      (.rng 1 0 0x30#8 0x39#8, 0x60803930#32), (.shri 1 0 4, 0x54800004#32),
      (.n2a 1 1 .lower, 0x68900001#32), (.splat 7 0x30#8, 0x1F800030#32), (.ld 0, 0x08000000#32),
      (.ldb 1, 0x14800000#32), (.ld2 0 1, 0x0C100000#32), (.st 5, 0x10500000#32),
      (.stb 2, 0x18200000#32), (.and 1 2 3, 0x20A60000#32), (.or 1 2 3, 0x24A60000#32),
      (.xor 1 2 3, 0x28A60000#32), (.add 1 2 3, 0x2CA60000#32), (.sub 1 2 3, 0x30A60000#32),
      (.ori 1 1 0x20#8, 0x44900020#32), (.xori 1 1 0xFF#8, 0x489000FF#32),
      (.addi 0 0 0xD0#8, 0x4C0000D0#32), (.shli 0 0 4, 0x50000004#32), (.ilvhi 4 1 2, 0x86140000#32),
      (.zipglo 5 3 4, 0x8AB80000#32), (.zipghi 6 3 4, 0x8F380000#32)]
        : List (Instr × CmdWord)),
    decode .w8 p.2 = some p.1 ∧ encode p.1 = p.2

/-- Decoding the word of a well-formed command gives the command back, for every command, every operand
and every width. -/
def Obligations.DecodeOfEncodeIsTheCommand : Prop :=
  ∀ (W : Width) (i : Instr), i.wf W = true → decode W (encode i) = some i

/-- A word that decodes is the word of the command it decodes to, and that command is well formed: each
command has one word (R103, R107). -/
def Obligations.EncodeOfDecodeIsTheWord : Prop :=
  ∀ (W : Width) (w : CmdWord) (i : Instr), decode W w = some i → encode i = w ∧ i.wf W = true

/-- R210, R108: LD2 with D = E and, at W = 1, the four reorder commands raise ILLEGAL, by decoding and by
their own rule; at W >= 2 the group width is even and n is 1, 2 or 4. -/
def Obligations.OperandConstraintsRaiseIllegal : Prop :=
  (∀ (s : State) (r : VReg),
    decode s.inst.width (encode (.ld2 r r)) = none ∧
    exec (.ld2 r r) s
      = .next { s with err := .illegal, errcmd := encode (.ld2 r r), erraddr := 0#64 }) ∧
  (∀ (s : State) (i : Instr) (vd va vb : VReg), s.inst.width = .w1 →
    i ∈ [.ilvlo vd va vb, .ilvhi vd va vb, .zipglo vd va vb, .zipghi vd va vb] →
    decode s.inst.width (encode i) = none ∧
    exec i s = .next { s with err := .illegal, errcmd := encode i, erraddr := 0#64 }) ∧
  (∀ s : State, s.inst.width ≠ .w1 → s.group % 2 = 0 ∧ s.groups ∈ [1, 2, 4])

/-! ## Lane commands -/

/-- R180: NOP changes no state; its one word; ILLEGAL with any of bits [25:0] set; dropped while BUSY or
with an error recorded. -/
def Obligations.NopChangesNothing : Prop :=
  (∀ s : State, exec .nop s = .next s) ∧
  (∀ W : Width, decode W 0x04000000#32 = some .nop) ∧
  (∀ (s : State) (w : CmdWord), s.busy = false → s.err = .none →
    w.extractLsb' 26 6 = 0x01#6 → w.extractLsb' 0 26 ≠ 0#26 →
    hostAct (.regWrite 0x10#8 8 (w.zeroExtend 64)) s
      = .next { s with err := .illegal, errcmd := w, erraddr := 0#64 }) ∧
  (∀ s : State, (s.busy = true ∨ s.err ≠ .none) →
    hostAct (.regWrite 0x10#8 8 0x04000000#64) s = .next { s with drop := true })

/-- R181: SPLAT writes IMM8 into every lane of Vd and sets its init bit; it reads no lane register. -/
def Obligations.SplatBroadcasts : Prop :=
  ∀ (s : State) (vd : VReg) (imm8 : Byte),
    (∃ t, exec (.splat vd imm8) s = .next t ∧ WritesLanes s t vd fun _ => imm8) ∧
    s.readsUninit (.splat vd imm8) = false ∧
    (encode (.splat vd imm8)).toNat = 0x07 * 2 ^ 26 + vd.val * 2 ^ 23 + imm8.toNat

/-- The pseudocode of R182 to R186, with its frame: AND, OR, XOR, ADD and SUB write Vd from the old Va and
Vb, modulo 256, and nothing else. -/
def Obligations.RegisterLogicAndArithmetic : Prop :=
  ∀ (s : State) (vd va vb : VReg),
    (∃ t, exec (.and vd va vb) s = .next t ∧
      WritesLanes s t vd fun i => s.lane va i &&& s.lane vb i) ∧
    (∃ t, exec (.or vd va vb) s = .next t ∧
      WritesLanes s t vd fun i => s.lane va i ||| s.lane vb i) ∧
    (∃ t, exec (.xor vd va vb) s = .next t ∧
      WritesLanes s t vd fun i => s.lane va i ^^^ s.lane vb i) ∧
    (∃ t, exec (.add vd va vb) s = .next t ∧ WritesLanes s t vd fun i =>
      BitVec.ofNat 8 (((s.lane va i).toNat + (s.lane vb i).toNat) % 256)) ∧
    (∃ t, exec (.sub vd va vb) s = .next t ∧ WritesLanes s t vd fun i =>
      BitVec.ofNat 8 (((s.lane va i).toNat + 256 - (s.lane vb i).toNat) % 256))

/-- The pseudocode of R187 to R192 as the numbers of R13, with its frame: the immediate and the shift forms
write Vd from the old Va and nothing else. -/
def Obligations.ImmediateFormsAndShifts : Prop :=
  ∀ (s : State) (vd va : VReg) (imm8 : Byte) (sh : ShiftAmt),
    (∃ t, exec (.andi vd va imm8) s = .next t ∧ WritesLanes s t vd fun i => s.lane va i &&& imm8) ∧
    (∃ t, exec (.ori vd va imm8) s = .next t ∧ WritesLanes s t vd fun i => s.lane va i ||| imm8) ∧
    (∃ t, exec (.xori vd va imm8) s = .next t ∧ WritesLanes s t vd fun i => s.lane va i ^^^ imm8) ∧
    (∃ t, exec (.addi vd va imm8) s = .next t ∧ WritesLanes s t vd fun i =>
      BitVec.ofNat 8 (((s.lane va i).toNat + imm8.toNat) % 256)) ∧
    (∃ t, exec (.shli vd va sh) s = .next t ∧ WritesLanes s t vd fun i =>
      BitVec.ofNat 8 ((s.lane va i).toNat * 2 ^ sh.val % 256)) ∧
    (∃ t, exec (.shri vd va sh) s = .next t ∧ WritesLanes s t vd fun i =>
      BitVec.ofNat 8 ((s.lane va i).toNat / 2 ^ sh.val))

/-- The pseudocode of R140, with its frame: the comparison is unsigned and inclusive. -/
def Obligations.RngGivesTheRangeMask : Prop :=
  ∀ (s : State) (vd va : VReg) (lo hi : Byte), ∃ t, exec (.rng vd va lo hi) s = .next t ∧
    WritesLanes s t vd fun i =>
      if lo.toNat ≤ (s.lane va i).toNat ∧ (s.lane va i).toNat ≤ hi.toNat then 0xFF#8 else 0x00#8

/-- The pseudocode of R142, bit by bit, with its frame. -/
def Obligations.SelSelectsPerBit : Prop :=
  ∀ (s : State) (vd vm va vb : VReg), ∃ t, exec (.sel vd vm va vb) s = .next t ∧
    WritesLanes s t vd (t.lane vd) ∧
    ∀ i k, i < s.lanes → k < 8 → (t.lane vd i).getLsbD k =
      if (s.lane vm i).getLsbD k then (s.lane va i).getLsbD k else (s.lane vb i).getLsbD k

/-- R143: with a mask in Vm, SEL is a lane select, and a blend on the top bit of each mask lane agrees;
every RNG result is a mask. -/
def Obligations.SelOnAMaskSelectsLanes : Prop :=
  (∀ (s : State) (vd vm va vb : VReg),
    (∀ i, i < s.lanes → s.lane vm i = 0x00#8 ∨ s.lane vm i = 0xFF#8) →
    ∃ t, exec (.sel vd vm va vb) s = .next t ∧ ∀ i, i < s.lanes →
      t.lane vd i = (if s.lane vm i = 0xFF#8 then s.lane va i else s.lane vb i) ∧
      t.lane vd i = if (s.lane vm i).getLsbD 7 then s.lane va i else s.lane vb i) ∧
  (∀ (s t : State) (vd va : VReg) (lo hi : Byte), exec (.rng vd va lo hi) s = .next t →
    ∀ i, i < s.lanes → t.lane vd i = 0x00#8 ∨ t.lane vd i = 0xFF#8)

/-- R144: the three ASCII classes are disjoint. -/
def Obligations.AsciiClassesAreDisjoint : Prop :=
  ∀ x : Byte,
    ¬ (rngByte 0x30#8 0x39#8 x = 0xFF#8 ∧ rngByte 0x41#8 0x46#8 x = 0xFF#8) ∧
    ¬ (rngByte 0x30#8 0x39#8 x = 0xFF#8 ∧ rngByte 0x61#8 0x66#8 x = 0xFF#8) ∧
    ¬ (rngByte 0x41#8 0x46#8 x = 0xFF#8 ∧ rngByte 0x61#8 0x66#8 x = 0xFF#8)

/-- The pseudocode of R160 with the hex digits of R17, for either mapper, with its frame. -/
def Obligations.N2aGivesTheHexDigit : Prop :=
  ∀ (s : State) (vd va : VReg) (c : CaseMode), ∃ t, exec (.n2a vd va c) s = .next t ∧
    WritesLanes s t vd fun i =>
      let n := (s.lane va i).toNat % 16
      BitVec.ofNat 8 (if n ≤ 9 then 0x30 + n else
        match c with | .upper => 0x37 + n | .lower => 0x57 + n)

/-- R8, R162: MAPPER changes no result of any command or unit step; the two techniques agree on every
byte and both cases. -/
def Obligations.MapperChangesNoResult : Prop :=
  (∀ (c : CaseMode) (x : Byte), n2aLut c x = n2aArith c x) ∧
  (∀ (i : Instr) (s t : State) (m : Mapper), exec i s = .next t →
    exec i { s with inst := { s.inst with mapper := m } }
      = .next { t with inst := { t.inst with mapper := m } }) ∧
  (∀ (s t : State) (m : Mapper), unitStep s = .next t →
    unitStep { s with inst := { s.inst with mapper := m } }
      = .next { t with inst := { t.inst with mapper := m } })

/-- The result of R163 (`Vd[i] = hexval(x)`, R17), with its frame: every other byte gives 0. -/
def Obligations.A2nGivesTheHexValue : Prop :=
  ∀ (s : State) (vd va : VReg), ∃ t, exec (.a2n vd va) s = .next t ∧
    WritesLanes s t vd fun i =>
      let x := (s.lane va i).toNat
      BitVec.ofNat 8 (if 0x30 ≤ x ∧ x ≤ 0x39 then x - 0x30
        else if 0x41 ≤ x ∧ x ≤ 0x46 then x - 0x37
        else if 0x61 ≤ x ∧ x ≤ 0x66 then x - 0x57 else 0)

/-- The pseudocode of R164, with its frame: the high operand loses its upper nibble, the low operand is
not masked. -/
def Obligations.CmbCombinesNibbles : Prop :=
  ∀ (s : State) (vd va vb : VReg), ∃ t, exec (.cmb vd va vb) s = .next t ∧
    WritesLanes s t vd fun i => BitVec.ofNat 8 ((s.lane va i).toNat * 16 % 256) ||| s.lane vb i

/-- R166: the nibble-level round trip, for either mapper and both cases, and that a digit comes back up to
case. -/
def Obligations.NibbleRoundTrip : Prop :=
  ∀ (m : Mapper) (c : CaseMode) (x : Byte),
    hexval (hexdigit (hiNibble x) c) = x >>> 4 ∧
    hexval (hexdigit (loNibble x) c) = x &&& 0x0F#8 ∧
    combine (a2nByte (n2aByte m c (x >>> 4))) (a2nByte (n2aByte m c (x &&& 0x0F#8))) = x ∧
    ((0x30#8 ≤ x ∧ x ≤ 0x39#8) → n2aByte m c (a2nByte x) = x) ∧
    ((0x41#8 ≤ x ∧ x ≤ 0x46#8) →
      n2aByte m c (a2nByte x) = match c with | .upper => x | .lower => x + 0x20#8) ∧
    ((0x61#8 ≤ x ∧ x ≤ 0x66#8) →
      n2aByte m c (a2nByte x) = match c with | .upper => x - 0x20#8 | .lower => x)

/-- R141: the SWAR form gives the mask of R140 in every lane, for every word and every bounds. -/
def Obligations.SwarEqualsTheRangeMask : Prop :=
  ∀ (x : Word64) (lo hi : Byte) (k : Nat), k < 8 →
    (rngSwar x lo hi).extractLsb' (8 * k) 8 = rngByte lo hi (x.extractLsb' (8 * k) 8)

/-- The loops of R211 and R212, with their frame. -/
def Obligations.InterleaveWithinGroups : Prop :=
  ∀ (s : State) (vd va vb : VReg), s.inst.width ≠ .w1 →
    (∃ t, exec (.ilvlo vd va vb) s = .next t ∧ WritesLanes s t vd (t.lane vd) ∧
      ∀ g k, g < s.groups → k < s.group / 2 →
        t.lane vd (g * s.group + 2 * k) = s.lane va (g * s.group + k) ∧
        t.lane vd (g * s.group + 2 * k + 1) = s.lane vb (g * s.group + k)) ∧
    (∃ t, exec (.ilvhi vd va vb) s = .next t ∧ WritesLanes s t vd (t.lane vd) ∧
      ∀ g k, g < s.groups → k < s.group / 2 →
        t.lane vd (g * s.group + 2 * k) = s.lane va (g * s.group + s.group / 2 + k) ∧
        t.lane vd (g * s.group + 2 * k + 1) = s.lane vb (g * s.group + s.group / 2 + k))

/-- The loops of R213 and R214, with their frame. -/
def Obligations.ZipPermutesGroups : Prop :=
  ∀ (s : State) (vd va vb : VReg), s.inst.width ≠ .w1 →
    (∃ t, exec (.zipglo vd va vb) s = .next t ∧ WritesLanes s t vd (t.lane vd) ∧
      ∀ j k, j < s.groups → k < s.group →
        t.lane vd (j * s.group + k) =
          if j % 2 = 0 then s.lane va (j / 2 * s.group + k) else s.lane vb (j / 2 * s.group + k)) ∧
    (∃ t, exec (.zipghi vd va vb) s = .next t ∧ WritesLanes s t vd (t.lane vd) ∧
      ∀ j k, j < s.groups → k < s.group →
        t.lane vd (j * s.group + k) =
          if (j + s.groups) % 2 = 0 then s.lane va ((j + s.groups) / 2 * s.group + k)
          else s.lane vb ((j + s.groups) / 2 * s.group + k))

/-- R215: split, map, interleave and permute a register: the two results hold the hex text of its bytes
in order, for every W >= 2. -/
def Obligations.ReorderedRegistersHoldTheHexText : Prop :=
  ∀ (s : State) (c : CaseMode), s.inst.width ≠ .w1 →
    ∃ t, runCommands [.shri 1 0 4, .andi 2 0 0x0F#8, .n2a 1 1 c, .n2a 2 2 c, .ilvlo 3 1 2,
        .ilvhi 4 1 2, .zipglo 5 3 4, .zipghi 6 3 4] s = .next t ∧
      ∀ i, i < s.lanes →
        (t.lanesOf 5 ++ t.lanesOf 6)[2 * i]? = some (hexdigit (hiNibble (s.lane 0 i)) c) ∧
        (t.lanesOf 5 ++ t.lanesOf 6)[2 * i + 1]? = some (hexdigit (loNibble (s.lane 0 i)) c)

/-! ## Loads and stores -/

/-- The pseudocode of R230 and R233 where the access is admitted, with its frame. A byte that a racing
host write hit (R82) is any value: its lane is not constrained. -/
def Obligations.LoadsFillLanesAndAdvanceSrc : Prop :=
  (∀ (s : State) (vd : VReg), admitted s.inst .rd s.src s.lanes = true →
    ∃ t, exec (.ld vd) s = .next t ∧
      (∀ i, i < s.lanes → (s.src + BitVec.ofNat 64 i).toNat ∉ s.race.bytes →
        t.lane vd i = s.mem.read (s.src + BitVec.ofNat 64 i).toNat) ∧
      t.src = s.src + BitVec.ofNat 64 s.lanes ∧
      t.init[vd] = true ∧ (∀ r : VReg, r ≠ vd → t.v[r] = s.v[r] ∧ t.init[r] = s.init[r]) ∧
      (∀ a : Addr, t.mem.read a.toNat = s.mem.read a.toNat) ∧
      t = { s with v := t.v, init := t.init, src := t.src, freeCount := t.freeCount }) ∧
  (∀ (s : State) (vd : VReg), admitted s.inst .rd s.src 1 = true →
    ∃ t, exec (.ldb vd) s = .next t ∧
      (s.src.toNat ∉ s.race.bytes → t.lane vd 0 = s.mem.read s.src.toNat) ∧
      (∀ i, 1 ≤ i → i < s.lanes → t.lane vd i = 0x00#8) ∧
      t.src = s.src + 1#64 ∧
      t.init[vd] = true ∧ (∀ r : VReg, r ≠ vd → t.v[r] = s.v[r] ∧ t.init[r] = s.init[r]) ∧
      (∀ a : Addr, t.mem.read a.toNat = s.mem.read a.toNat) ∧
      t = { s with v := t.v, init := t.init, src := t.src, freeCount := t.freeCount })

/-- The pseudocode of R231 where the access is admitted, with its frame. -/
def Obligations.Ld2Deinterleaves : Prop :=
  ∀ (s : State) (vd ve : VReg), vd ≠ ve → admitted s.inst .rd s.src (2 * s.lanes) = true →
    ∃ t, exec (.ld2 vd ve) s = .next t ∧
      (∀ i, i < s.lanes →
        ((s.src + BitVec.ofNat 64 (2 * i)).toNat ∉ s.race.bytes →
          t.lane vd i = s.mem.read (s.src + BitVec.ofNat 64 (2 * i)).toNat) ∧
        ((s.src + BitVec.ofNat 64 (2 * i + 1)).toNat ∉ s.race.bytes →
          t.lane ve i = s.mem.read (s.src + BitVec.ofNat 64 (2 * i + 1)).toNat)) ∧
      t.src = s.src + BitVec.ofNat 64 (2 * s.lanes) ∧
      t.init[vd] = true ∧ t.init[ve] = true ∧
      (∀ r : VReg, r ≠ vd → r ≠ ve → t.v[r] = s.v[r] ∧ t.init[r] = s.init[r]) ∧
      (∀ a : Addr, t.mem.read a.toNat = s.mem.read a.toNat) ∧
      t = { s with v := t.v, init := t.init, src := t.src, freeCount := t.freeCount }

/-- The pseudocode of R232 and R234 where the access is admitted, with its frame: the stored bytes, no
other byte of memory, and DST. -/
def Obligations.StoresWriteLanesAndAdvanceDst : Prop :=
  ∀ (s : State) (va : VReg),
    (admitted s.inst .wr s.dst s.lanes = true →
      ∃ t, exec (.st va) s = .next t ∧
        (∀ i, i < s.lanes → t.mem.read (s.dst + BitVec.ofNat 64 i).toNat = s.lane va i) ∧
        (∀ a : Addr, (∀ i, i < s.lanes → a ≠ s.dst + BitVec.ofNat 64 i) →
          t.mem.read a.toNat = s.mem.read a.toNat) ∧
        t = { s with mem := t.mem, dst := s.dst + BitVec.ofNat 64 s.lanes }) ∧
    (admitted s.inst .wr s.dst 1 = true →
      ∃ t, exec (.stb va) s = .next t ∧
        t.mem.read s.dst.toNat = s.lane va 0 ∧
        (∀ a : Addr, a ≠ s.dst → t.mem.read a.toNat = s.mem.read a.toNat) ∧
        t = { s with mem := t.mem, dst := s.dst + 1#64 })

/-- R74, R285 for the five memory micro-ops: an access that is not admitted records MEM_FAULT with the
command's word and the access's start address and changes nothing else; a range that wraps is not
admitted. -/
def Obligations.UnadmittedAccessOnlyRecordsMemFault : Prop :=
  (∀ (s : State) (vd : VReg), admitted s.inst .rd s.src s.lanes = false → exec (.ld vd) s
    = .next { s with err := .memFault, errcmd := encode (.ld vd), erraddr := s.src }) ∧
  (∀ (s : State) (vd ve : VReg), vd ≠ ve → admitted s.inst .rd s.src (2 * s.lanes) = false →
    exec (.ld2 vd ve) s
      = .next { s with err := .memFault, errcmd := encode (.ld2 vd ve), erraddr := s.src }) ∧
  (∀ (s : State) (vd : VReg), admitted s.inst .rd s.src 1 = false → exec (.ldb vd) s
    = .next { s with err := .memFault, errcmd := encode (.ldb vd), erraddr := s.src }) ∧
  (∀ (s : State) (va : VReg), admitted s.inst .wr s.dst s.lanes = false → exec (.st va) s
    = .next { s with err := .memFault, errcmd := encode (.st va), erraddr := s.dst }) ∧
  (∀ (s : State) (va : VReg), admitted s.inst .wr s.dst 1 = false → exec (.stb va) s
    = .next { s with err := .memFault, errcmd := encode (.stb va), erraddr := s.dst }) ∧
  (∀ (inst : Instance) (kind : AccessKind) (a : Addr) (n : Nat), 2 ^ 64 < a.toNat + n →
    admitted inst kind a n = false)

/-- R235: past an admitted range a cursor wraps only to 0, and only when the range ends at 2^64 - 1. -/
def Obligations.CursorWrapsOnlyToZero : Prop :=
  ∀ (inst : Instance) (kind : AccessKind) (a : Addr) (n : Nat), admitted inst kind a n = true →
    ((a + BitVec.ofNat 64 n).toNat = a.toNat + n ∧ a.toNat + n < 2 ^ 64) ∨
    (a.toNat + n = 2 ^ 64 ∧ a + BitVec.ofNat 64 n = 0#64)

/-- The sentence of R71 about the window: no admitted access has a byte in it. -/
def Obligations.WindowIsNeverAdmitted : Prop :=
  ∀ (inst : Instance) (kind : AccessKind) (a : Addr) (n j : Nat),
    admitted inst kind a n = true → j < n → 256 ≤ (a + BitVec.ofNat 64 j - inst.hxuBase).toNat

/-- R236, for every micro-op: CNT is neither changed nor read. -/
def Obligations.MicroOpsNeverTouchCnt : Prop :=
  ∀ (i : Instr) (s t : State) (c : Word64), i.isMacro = false → exec i s = .next t →
    t.cnt = s.cnt ∧ exec i { s with cnt := c } = .next { t with cnt := c }

/-! ## Macro commands and unit steps -/

/-- The acceptance of R250, for every SRC, DST and CNT, with its frame. The race ledger, the model's own
(notes/assumptions/8.md), starts the run at the registers as they are (R82), unraced, and keeps what
it has noted. -/
def Obligations.EncIsAccepted : Prop :=
  ∀ (s : State) (c : CaseMode), ∃ t, exec (.enc c) s = .next t ∧
    t.mop = .enc ∧ t.mcase = c ∧ t.done = false ∧ t.mstate = .bulk ∧ t.busy = true ∧
    t.mword = (match c with | .upper => 0xC0000000#32 | .lower => 0xC0000001#32) ∧
    t.race = ⟨s.src, s.dst, s.cnt, s.race.bytes, false⟩ ∧
    t = { s with mop := t.mop, mcase := t.mcase, mword := t.mword, done := t.done,
                 mstate := t.mstate, race := t.race }

/-- R283 and the acceptance of R251: DEC with CNT odd records ODD_LEN and changes nothing else; with CNT
even it is accepted. The race ledger, the model's own (notes/assumptions/8.md), starts the run at the
registers as they are (R82), unraced, and keeps what it has noted. -/
def Obligations.DecIsAcceptedOrOddLength : Prop :=
  ∀ s : State,
    (s.cnt.toNat % 2 = 1 →
      exec .dec s = .next { s with err := .oddLen, errcmd := 0xC4000000#32, erraddr := 0#64 }) ∧
    (s.cnt.toNat % 2 = 0 → ∃ t, exec .dec s = .next t ∧
      t.mop = .dec ∧ t.mcase = .upper ∧ t.mword = 0xC4000000#32 ∧ t.done = false ∧
      t.mstate = .bulk ∧ t.busy = true ∧
      t.race = ⟨s.src, s.dst, s.cnt, s.race.bytes, false⟩ ∧
      t = { s with mop := t.mop, mcase := t.mcase, mword := t.mword, done := t.done,
                   mstate := t.mstate, race := t.race })

/-- R252: an idle unit has no step, and a unit that is not idle has one, which changes the state. -/
def Obligations.UnitStepsExactlyWhenNotIdle : Prop :=
  (∀ s : State, s.mstate = .idle → unitStep s = .next s) ∧
  (∀ s : State, s.Inv → s.mstate ≠ .idle → ∃ t, unitStep s = .next t ∧ t ≠ s)

/-- R35, R252, R330: a unit step neither reads nor writes the lane registers, and what it does apart from
memory does not depend on memory's contents. -/
def Obligations.UnitStepsIgnoreLanesAndData : Prop :=
  ∀ s t : State, unitStep s = .next t →
    t.v = s.v ∧ t.init = s.init ∧
    (∀ (v : Vector LaneReg 8) (b : Vector Bool 8),
      unitStep { s with v := v, init := b } = .next { t with v := v, init := b }) ∧
    (∀ m : Memory, ∃ m', unitStep { s with mem := m } = .next { t with mem := m' })

/-- R253 and R255 where both ranges are admitted: one block of W bytes, or one byte, becomes its hex text,
and nothing else changes. A byte that a racing host write hit before, and every byte of a run that a
host write has raced, is any value (R82, spec/93_implementation_defined.md U8); the rest follows the
rules in such a run too. -/
def Obligations.EncodeStepWritesItsHexText : Prop :=
  ∀ (s : State) (n : Nat), s.mop = .enc →
    (s.mstate = .bulk ∧ n = s.lanes ∨ s.mstate = .tail ∧ n = 1) → n ≤ s.cnt.toNat →
    admitted s.inst .rd s.src n = true → admitted s.inst .wr s.dst (2 * n) = true →
    ∃ t, unitStep s = .next t ∧
      (∀ i, i < n → s.race.tainted = false → (s.src + BitVec.ofNat 64 i).toNat ∉ s.race.bytes →
        t.mem.read (s.dst + BitVec.ofNat 64 (2 * i)).toNat
          = hexdigit (hiNibble (s.mem.read (s.src + BitVec.ofNat 64 i).toNat)) s.mcase ∧
        t.mem.read (s.dst + BitVec.ofNat 64 (2 * i + 1)).toNat
          = hexdigit (loNibble (s.mem.read (s.src + BitVec.ofNat 64 i).toNat)) s.mcase) ∧
      (∀ a : Addr, (∀ j, j < 2 * n → a ≠ s.dst + BitVec.ofNat 64 j) →
        t.mem.read a.toNat = s.mem.read a.toNat) ∧
      (s.race.tainted = false → s.cleanRange s.src n → t.freeCount = s.freeCount) ∧
      t = { s with
        mem := t.mem
        src := s.src + BitVec.ofNat 64 n
        dst := s.dst + BitVec.ofNat 64 (2 * n)
        cnt := s.cnt - BitVec.ofNat 64 n
        freeCount := t.freeCount }

/-- R257 and R259 where both ranges are admitted: one block of 2W characters, or one pair, becomes its
bytes, and nothing else changes; raced bytes and raced runs as above (R82, U8). -/
def Obligations.DecodeStepWritesItsBytes : Prop :=
  ∀ (s : State) (n : Nat), s.mop = .dec →
    (s.mstate = .bulk ∧ n = s.lanes ∨ s.mstate = .tail ∧ n = 1) → 2 * n ≤ s.cnt.toNat →
    admitted s.inst .rd s.src (2 * n) = true → admitted s.inst .wr s.dst n = true →
    ∃ t, unitStep s = .next t ∧
      (∀ i, i < n → s.race.tainted = false →
        (s.src + BitVec.ofNat 64 (2 * i)).toNat ∉ s.race.bytes →
        (s.src + BitVec.ofNat 64 (2 * i + 1)).toNat ∉ s.race.bytes →
        t.mem.read (s.dst + BitVec.ofNat 64 i).toNat
          = combine (hexval (s.mem.read (s.src + BitVec.ofNat 64 (2 * i)).toNat))
              (hexval (s.mem.read (s.src + BitVec.ofNat 64 (2 * i + 1)).toNat))) ∧
      (∀ a : Addr, (∀ j, j < n → a ≠ s.dst + BitVec.ofNat 64 j) →
        t.mem.read a.toNat = s.mem.read a.toNat) ∧
      (s.race.tainted = false → s.cleanRange s.src (2 * n) → t.freeCount = s.freeCount) ∧
      t = { s with
        mem := t.mem
        src := s.src + BitVec.ofNat 64 (2 * n)
        dst := s.dst + BitVec.ofNat 64 n
        cnt := s.cnt - BitVec.ofNat 64 (2 * n)
        freeCount := t.freeCount }

/-- R254, R256, R258, R260: the transitions, each changing nothing else; no step goes from TAIL back to
BULK. -/
def Obligations.TransitionStepsOnlyMoveOn : Prop :=
  (∀ s : State, s.mop = .enc → s.mstate = .bulk → s.cnt.toNat < s.lanes →
    unitStep s = .next { s with mstate := .tail }) ∧
  (∀ s : State, s.mop = .enc → s.mstate = .tail → s.cnt = 0#64 →
    unitStep s = .next { s with mstate := .idle, done := true }) ∧
  (∀ s : State, s.mop = .dec → s.mstate = .bulk → s.cnt.toNat < 2 * s.lanes →
    unitStep s = .next { s with mstate := .tail }) ∧
  (∀ s : State, s.mop = .dec → s.mstate = .tail → s.cnt = 0#64 →
    unitStep s = .next { s with mstate := .idle, done := true }) ∧
  (∀ s t : State, s.mstate = .tail → unitStep s = .next t → t.mstate ≠ .bulk)

/-- R263: a step whose range is not admitted ends the run, records MEM_FAULT with MWORD, and moves no
byte and no cursor; the read range is checked first. -/
def Obligations.UnadmittedBlockAborts : Prop :=
  ∀ (s : State) (nIn nOut : Nat),
    (s.mop = .enc ∧ s.mstate = .bulk ∧ nIn = s.lanes ∧ nOut = 2 * s.lanes ∨
     s.mop = .enc ∧ s.mstate = .tail ∧ nIn = 1 ∧ nOut = 2 ∨
     s.mop = .dec ∧ s.mstate = .bulk ∧ nIn = 2 * s.lanes ∧ nOut = s.lanes ∨
     s.mop = .dec ∧ s.mstate = .tail ∧ nIn = 2 ∧ nOut = 1) →
    nIn ≤ s.cnt.toNat →
    (admitted s.inst .rd s.src nIn = false → unitStep s = .next { s with
      err := .memFault, errcmd := s.mword, erraddr := s.src, mstate := .idle }) ∧
    (admitted s.inst .rd s.src nIn = true → admitted s.inst .wr s.dst nOut = false →
      unitStep s = .next { s with
        err := .memFault, errcmd := s.mword, erraddr := s.dst, mstate := .idle })

/-- R264: every macro run ends, after exactly the stated number of unit steps, a function of CNT0 and W
alone, or earlier with a MEM_FAULT. -/
def Obligations.MacroRunEndsInTheStatedSteps : Prop :=
  ∀ (s s0 : State) (i : Instr), i.isMacro = true → s.busy = false → s.err = .none →
    exec i s = .next s0 → s0.busy = true →
    ∃ k t, k ≤ s0.macroSteps ∧ unitRun k s0 = .next t ∧ t.busy = false ∧
      (∀ j, j < k → ∃ u, unitRun j s0 = .next u ∧ u.busy = true) ∧
      (t.err = .none → k = s0.macroSteps ∧ t.done = true) ∧
      (t.err ≠ .none → t.err = .memFault ∧ k < s0.macroSteps)

/-- R265 for ENC: at the end of a run without MEM_FAULT, race or overlap, the destination holds the hex
text of the source, no other byte has changed, and the registers are as stated. What a race before
this run left of a source byte is any value (R82, notes/assumptions/8.md): its two characters are
not constrained. -/
def Obligations.EncodeRunWritesTheHexText : Prop :=
  ∀ (s s0 t : State) (c : CaseMode) (k : Nat),
    s.busy = false → s.err = .none →
    s.disjointBuffers (.enc c) → exec (.enc c) s = .next s0 →
    unitRun k s0 = .next t → t.busy = false → t.err = .none →
    t.src = s.src + s.cnt ∧ t.dst = s.dst + BitVec.ofNat 64 (2 * s.cnt.toNat) ∧ t.cnt = 0#64 ∧
    t.mstate = .idle ∧ t.done = true ∧ t.mop = .enc ∧ t.mcase = c ∧
    (∀ i, i < s.cnt.toNat → (s.src + BitVec.ofNat 64 i).toNat ∉ s.race.bytes →
      t.mem.read (s.dst + BitVec.ofNat 64 (2 * i)).toNat
        = hexdigit (hiNibble (s.mem.read (s.src + BitVec.ofNat 64 i).toNat)) c ∧
      t.mem.read (s.dst + BitVec.ofNat 64 (2 * i + 1)).toNat
        = hexdigit (loNibble (s.mem.read (s.src + BitVec.ofNat 64 i).toNat)) c) ∧
    (∀ a : Addr, (∀ j, j < 2 * s.cnt.toNat → a ≠ s.dst + BitVec.ofNat 64 j) →
      t.mem.read a.toNat = s.mem.read a.toNat)

/-- R265 for DEC, with source bytes raced before as for ENC. -/
def Obligations.DecodeRunWritesTheBytes : Prop :=
  ∀ (s s0 t : State) (k : Nat),
    s.busy = false → s.err = .none →
    s.disjointBuffers .dec → exec .dec s = .next s0 →
    unitRun k s0 = .next t → t.busy = false → t.err = .none →
    t.src = s.src + s.cnt ∧ t.dst = s.dst + BitVec.ofNat 64 (s.cnt.toNat / 2) ∧ t.cnt = 0#64 ∧
    t.mstate = .idle ∧ t.done = true ∧ t.mop = .dec ∧ t.mcase = .upper ∧
    (∀ i, i < s.cnt.toNat / 2 → (s.src + BitVec.ofNat 64 (2 * i)).toNat ∉ s.race.bytes →
      (s.src + BitVec.ofNat 64 (2 * i + 1)).toNat ∉ s.race.bytes →
      t.mem.read (s.dst + BitVec.ofNat 64 i).toNat
        = combine (hexval (s.mem.read (s.src + BitVec.ofNat 64 (2 * i)).toNat))
            (hexval (s.mem.read (s.src + BitVec.ofNat 64 (2 * i + 1)).toNat))) ∧
    (∀ a : Addr, (∀ j, j < s.cnt.toNat / 2 → a ≠ s.dst + BitVec.ofNat 64 j) →
      t.mem.read a.toNat = s.mem.read a.toNat)

/-- The round trip of R267, for either case: DEC run over the output of an ENC run writes back the bytes,
for non-overlapping buffers and runs without MEM_FAULT or race. A byte that stands in a raced place,
or whose characters do (R82, notes/assumptions/8.md), is not constrained. -/
def Obligations.EncodeThenDecodeGivesTheBytesBack : Prop :=
  ∀ (s s0 t t0 r : State) (c : CaseMode) (d : Addr) (k1 k2 : Nat),
    s.busy = false → s.err = .none →
    s.disjointBuffers (.enc c) → exec (.enc c) s = .next s0 →
    unitRun k1 s0 = .next t → t.busy = false → t.err = .none →
    State.disjointBuffers
      { t with src := s.dst, dst := d, cnt := BitVec.ofNat 64 (2 * s.cnt.toNat) } .dec →
    exec .dec { t with src := s.dst, dst := d, cnt := BitVec.ofNat 64 (2 * s.cnt.toNat) } = .next t0 →
    unitRun k2 t0 = .next r → r.busy = false → r.err = .none →
    ∀ i, i < s.cnt.toNat → (s.src + BitVec.ofNat 64 i).toNat ∉ s.race.bytes →
      (s.dst + BitVec.ofNat 64 (2 * i)).toNat ∉ s.race.bytes →
      (s.dst + BitVec.ofNat 64 (2 * i + 1)).toNat ∉ s.race.bytes →
      r.mem.read (d + BitVec.ofNat 64 i).toNat = s.mem.read (s.src + BitVec.ofNat 64 i).toNat

/-- R266: instances of different width and mapper end a run without MEM_FAULT, race or overlap in the same
memory, cursors and status: in states that differ in the instance alone. No byte of the source is one
that a race before this run made any value. -/
def Obligations.WidthAndMapperDoNotChangeTheResult : Prop :=
  ∀ (s s1 s2 t1 t2 : State) (i : Instr) (W : Width) (m : Mapper) (k1 k2 : Nat),
    i.isMacro = true → s.cleanRange s.src s.cnt.toNat → s.busy = false → s.err = .none →
    s.disjointBuffers i →
    exec i s = .next s1 → unitRun k1 s1 = .next t1 → t1.busy = false → t1.err = .none →
    exec i { s with inst := { s.inst with width := W, mapper := m } } = .next s2 →
    unitRun k2 s2 = .next t2 → t2.busy = false → t2.err = .none →
    t2 = { t1 with inst := { s.inst with width := W, mapper := m } }

/-- R269: the micro-op sequences write the bytes of one BULK or TAIL step and leave the same cursors,
where no MEM_FAULT occurs, no host write comes between, and no byte read is one that an earlier race
made any value. -/
def Obligations.MicroOpSequencesRealiseTheBlocks : Prop :=
  ∀ (s : State) (c : CaseMode), s.busy = false → s.err = .none →
    (s.inst.width ≠ .w1 → s.lanes ≤ s.cnt.toNat → s.cleanRange s.src s.lanes →
      SameBlock (encBlockCommands c) s (s.unraced .enc c .bulk)) ∧
    (s.inst.width = .w1 → 1 ≤ s.cnt.toNat → s.cleanRange s.src 1 →
      SameBlock (encElementCommands c) s (s.unraced .enc c .bulk)) ∧
    (1 ≤ s.cnt.toNat → s.cleanRange s.src 1 →
      SameBlock (encElementCommands c) s (s.unraced .enc c .tail)) ∧
    (2 * s.lanes ≤ s.cnt.toNat → s.cleanRange s.src (2 * s.lanes) →
      SameBlock decBlockCommands s (s.unraced .dec .upper .bulk)) ∧
    (2 ≤ s.cnt.toNat → s.cleanRange s.src 2 →
      SameBlock decPairCommands s (s.unraced .dec .upper .tail))

/-! ## Whole-machine rules -/

/-- The invariant is kept by every step of either agent, from every state that meets it; and no step
changes the instance (R6, R44). -/
def Obligations.InvariantIsKeptByEveryStep : Prop :=
  ∀ s t : State, step s = .next t → t.inst = s.inst ∧ (s.Inv → t.Inv)

/-- From a state that meets the invariant no step faults ("CNT = 1 never occurs in DEC TAIL", R259), and a
step that is refused is a host access the spec leaves without effect (R300). -/
def Obligations.InvariantRulesOutFaults : Prop :=
  ∀ s : State, s.Inv →
    (∃ t, step s = .next t) ∨
    (step s = .refused .refusedHostAccess ∧ s.nextAgent = .host ∧ s.host ≠ [])

/-- The last sentences of R284: a recorded error is never overwritten; only ERRCLR and reset change the
record (R51, R52, R291). -/
def Obligations.RecordedErrorIsNeverOverwritten : Prop :=
  ∀ s t : State, s.Inv → step s = .next t → s.err ≠ .none →
    (∀ a rest, s.nextAgent = .host → s.host = a :: rest →
      a ≠ .reset ∧ ∀ v, a = .regWrite 0x08#8 8 v → v.getLsbD 7 = false) →
    t.err = s.err ∧ t.errcmd = s.errcmd ∧ t.erraddr = s.erraddr

/-- R31: what a never-written lane register holds cannot be told from any command that does not read it:
two states that differ only there go to states that differ only there. -/
def Obligations.UnwrittenLanesNeverLeak : Prop :=
  ∀ (i : Instr) (s1 s2 t1 : State), AgreeOnWritten s1 s2 → s1.readsUninit i = false →
    exec i s1 = .next t1 → ∃ t2, exec i s2 = .next t2 ∧ AgreeOnWritten t1 t2
end

