-- ==== Sys2Proof/Laws/Decode.lean ====
section
/-! SUPPORT. The fields of encoded words: each layout holds its OP, its operands where R101 puts them, and
0 in every reserved bit of its format's mask. -/

namespace Sys2Proof

/-- A 3-bit field is the register whose bits stand there. -/
theorem field3_eq {w : CmdWord} {at_ : Nat} {r : Fin 8} (h : w.extractLsb' at_ 3 = bits3 r) :
    field3 w at_ = r := by
  rw [field3, h]; rfl

@[simp] theorem CaseMode.ofBit_bit (c : CaseMode) : CaseMode.ofBit (c.bit.getLsbD 0) = c := by
  cases c <;> rfl

theorem opOf_encX (op : BitVec 6) : opOf (encX op) = op := by
  apply BitVec.eq_of_getLsbD_eq
  intro i hi
  interval_cases i <;> simp [opOf, encX, place]

theorem mask_encX (op : BitVec 6) :
    encX op &&& Format.x.mask = place op 26 := by
  apply BitVec.eq_of_getLsbD_eq
  intro i hi
  interval_cases i <;> simp [encX, Format.mask, place]

theorem opOf_encXC (op : BitVec 6) (c : CaseMode) : opOf (encXC op c) = op := by
  apply BitVec.eq_of_getLsbD_eq
  intro i hi
  interval_cases i <;> simp [opOf, encXC, place]

theorem mask_encXC (op : BitVec 6) (c : CaseMode) :
    encXC op c &&& Format.xc.mask = place op 26 := by
  apply BitVec.eq_of_getLsbD_eq
  intro i hi
  interval_cases i <;> simp [encXC, Format.mask, place]

theorem c_encXC (op : BitVec 6) (c : CaseMode) : (Fields.of (encXC op c)).c = c := by
  cases c <;> simp [Fields.of, encXC, place, CaseMode.bit, CaseMode.ofBit]

theorem opOf_encR2 (op : BitVec 6) (d a : VReg) : opOf (encR2 op d a) = op := by
  apply BitVec.eq_of_getLsbD_eq
  intro i hi
  interval_cases i <;> simp [opOf, encR2, place]

theorem mask_encR2 (op : BitVec 6) (d a : VReg) :
    encR2 op d a &&& Format.r2.mask = place op 26 := by
  apply BitVec.eq_of_getLsbD_eq
  intro i hi
  interval_cases i <;> simp [encR2, Format.mask, place]

theorem d_encR2 (op : BitVec 6) (d a : VReg) : (Fields.of (encR2 op d a)).d = d := by
  apply field3_eq
  apply BitVec.eq_of_getLsbD_eq
  intro i hi
  interval_cases i <;> simp [encR2, place]

theorem a_encR2 (op : BitVec 6) (d a : VReg) : (Fields.of (encR2 op d a)).a = a := by
  apply field3_eq
  apply BitVec.eq_of_getLsbD_eq
  intro i hi
  interval_cases i <;> simp [encR2, place]

theorem opOf_encR3 (op : BitVec 6) (d a b : VReg) : opOf (encR3 op d a b) = op := by
  apply BitVec.eq_of_getLsbD_eq
  intro i hi
  interval_cases i <;> simp [opOf, encR3, place]

theorem mask_encR3 (op : BitVec 6) (d a b : VReg) :
    encR3 op d a b &&& Format.r3.mask = place op 26 := by
  apply BitVec.eq_of_getLsbD_eq
  intro i hi
  interval_cases i <;> simp [encR3, Format.mask, place]

theorem d_encR3 (op : BitVec 6) (d a b : VReg) : (Fields.of (encR3 op d a b)).d = d := by
  apply field3_eq
  apply BitVec.eq_of_getLsbD_eq
  intro i hi
  interval_cases i <;> simp [encR3, place]

theorem a_encR3 (op : BitVec 6) (d a b : VReg) : (Fields.of (encR3 op d a b)).a = a := by
  apply field3_eq
  apply BitVec.eq_of_getLsbD_eq
  intro i hi
  interval_cases i <;> simp [encR3, place]

theorem b_encR3 (op : BitVec 6) (d a b : VReg) : (Fields.of (encR3 op d a b)).b = b := by
  apply field3_eq
  apply BitVec.eq_of_getLsbD_eq
  intro i hi
  interval_cases i <;> simp [encR3, place]

theorem opOf_encR4 (op : BitVec 6) (d a b m : VReg) : opOf (encR4 op d a b m) = op := by
  apply BitVec.eq_of_getLsbD_eq
  intro i hi
  interval_cases i <;> simp [opOf, encR4, place]

theorem mask_encR4 (op : BitVec 6) (d a b m : VReg) :
    encR4 op d a b m &&& Format.r4.mask = place op 26 := by
  apply BitVec.eq_of_getLsbD_eq
  intro i hi
  interval_cases i <;> simp [encR4, Format.mask, place]

theorem d_encR4 (op : BitVec 6) (d a b m : VReg) : (Fields.of (encR4 op d a b m)).d = d := by
  apply field3_eq
  apply BitVec.eq_of_getLsbD_eq
  intro i hi
  interval_cases i <;> simp [encR4, place]

theorem a_encR4 (op : BitVec 6) (d a b m : VReg) : (Fields.of (encR4 op d a b m)).a = a := by
  apply field3_eq
  apply BitVec.eq_of_getLsbD_eq
  intro i hi
  interval_cases i <;> simp [encR4, place]

theorem b_encR4 (op : BitVec 6) (d a b m : VReg) : (Fields.of (encR4 op d a b m)).b = b := by
  apply field3_eq
  apply BitVec.eq_of_getLsbD_eq
  intro i hi
  interval_cases i <;> simp [encR4, place]

theorem m_encR4 (op : BitVec 6) (d a b m : VReg) : (Fields.of (encR4 op d a b m)).m = m := by
  apply field3_eq
  apply BitVec.eq_of_getLsbD_eq
  intro i hi
  interval_cases i <;> simp [encR4, place]

theorem opOf_encI8 (op : BitVec 6) (d a : VReg) (k : Byte) : opOf (encI8 op d a k) = op := by
  apply BitVec.eq_of_getLsbD_eq
  intro i hi
  interval_cases i <;> simp [opOf, encI8, place]

theorem mask_encI8 (op : BitVec 6) (d a : VReg) (k : Byte) :
    encI8 op d a k &&& Format.i8.mask = place op 26 := by
  apply BitVec.eq_of_getLsbD_eq
  intro i hi
  interval_cases i <;> simp [encI8, Format.mask, place]

theorem d_encI8 (op : BitVec 6) (d a : VReg) (k : Byte) : (Fields.of (encI8 op d a k)).d = d := by
  apply field3_eq
  apply BitVec.eq_of_getLsbD_eq
  intro i hi
  interval_cases i <;> simp [encI8, place]

theorem a_encI8 (op : BitVec 6) (d a : VReg) (k : Byte) : (Fields.of (encI8 op d a k)).a = a := by
  apply field3_eq
  apply BitVec.eq_of_getLsbD_eq
  intro i hi
  interval_cases i <;> simp [encI8, place]

theorem lo_encI8 (op : BitVec 6) (d a : VReg) (k : Byte) : (Fields.of (encI8 op d a k)).lo = k := by
  apply BitVec.eq_of_getLsbD_eq
  intro i hi
  interval_cases i <;> simp [Fields.of, encI8, place]

theorem opOf_encI16 (op : BitVec 6) (d a : VReg) (h l : Byte) : opOf (encI16 op d a h l) = op := by
  apply BitVec.eq_of_getLsbD_eq
  intro i hi
  interval_cases i <;> simp [opOf, encI16, place]

theorem mask_encI16 (op : BitVec 6) (d a : VReg) (h l : Byte) :
    encI16 op d a h l &&& Format.i16.mask = place op 26 := by
  apply BitVec.eq_of_getLsbD_eq
  intro i hi
  interval_cases i <;> simp [encI16, Format.mask, place]

theorem d_encI16 (op : BitVec 6) (d a : VReg) (h l : Byte) : (Fields.of (encI16 op d a h l)).d = d := by
  apply field3_eq
  apply BitVec.eq_of_getLsbD_eq
  intro i hi
  interval_cases i <;> simp [encI16, place]

theorem a_encI16 (op : BitVec 6) (d a : VReg) (h l : Byte) : (Fields.of (encI16 op d a h l)).a = a := by
  apply field3_eq
  apply BitVec.eq_of_getLsbD_eq
  intro i hi
  interval_cases i <;> simp [encI16, place]

theorem hi_encI16 (op : BitVec 6) (d a : VReg) (h l : Byte) : (Fields.of (encI16 op d a h l)).hi = h := by
  apply BitVec.eq_of_getLsbD_eq
  intro i hi
  interval_cases i <;> simp [Fields.of, encI16, place]

theorem lo_encI16 (op : BitVec 6) (d a : VReg) (h l : Byte) : (Fields.of (encI16 op d a h l)).lo = l := by
  apply BitVec.eq_of_getLsbD_eq
  intro i hi
  interval_cases i <;> simp [Fields.of, encI16, place]

theorem opOf_encSH (op : BitVec 6) (d a : VReg) (n : ShiftAmt) : opOf (encSH op d a n) = op := by
  apply BitVec.eq_of_getLsbD_eq
  intro i hi
  interval_cases i <;> simp [opOf, encSH, place]

theorem mask_encSH (op : BitVec 6) (d a : VReg) (n : ShiftAmt) :
    encSH op d a n &&& Format.sh.mask = place op 26 := by
  apply BitVec.eq_of_getLsbD_eq
  intro i hi
  interval_cases i <;> simp [encSH, Format.mask, place]

theorem d_encSH (op : BitVec 6) (d a : VReg) (n : ShiftAmt) : (Fields.of (encSH op d a n)).d = d := by
  apply field3_eq
  apply BitVec.eq_of_getLsbD_eq
  intro i hi
  interval_cases i <;> simp [encSH, place]

theorem a_encSH (op : BitVec 6) (d a : VReg) (n : ShiftAmt) : (Fields.of (encSH op d a n)).a = a := by
  apply field3_eq
  apply BitVec.eq_of_getLsbD_eq
  intro i hi
  interval_cases i <;> simp [encSH, place]

theorem sh_encSH (op : BitVec 6) (d a : VReg) (n : ShiftAmt) : (Fields.of (encSH op d a n)).sh = n := by
  apply field3_eq
  apply BitVec.eq_of_getLsbD_eq
  intro i hi
  interval_cases i <;> simp [encSH, place]

theorem opOf_encN (op : BitVec 6) (d a : VReg) (c : CaseMode) : opOf (encN op d a c) = op := by
  apply BitVec.eq_of_getLsbD_eq
  intro i hi
  interval_cases i <;> simp [opOf, encN, place]

theorem mask_encN (op : BitVec 6) (d a : VReg) (c : CaseMode) :
    encN op d a c &&& Format.n.mask = place op 26 := by
  apply BitVec.eq_of_getLsbD_eq
  intro i hi
  interval_cases i <;> simp [encN, Format.mask, place]

theorem d_encN (op : BitVec 6) (d a : VReg) (c : CaseMode) : (Fields.of (encN op d a c)).d = d := by
  apply field3_eq
  apply BitVec.eq_of_getLsbD_eq
  intro i hi
  interval_cases i <;> simp [encN, place]

theorem a_encN (op : BitVec 6) (d a : VReg) (c : CaseMode) : (Fields.of (encN op d a c)).a = a := by
  apply field3_eq
  apply BitVec.eq_of_getLsbD_eq
  intro i hi
  interval_cases i <;> simp [encN, place]

theorem c_encN (op : BitVec 6) (d a : VReg) (c : CaseMode) : (Fields.of (encN op d a c)).c = c := by
  cases c <;> simp [Fields.of, encN, place, CaseMode.bit, CaseMode.ofBit]

theorem opOf_encSP (op : BitVec 6) (d : VReg) (k : Byte) : opOf (encSP op d k) = op := by
  apply BitVec.eq_of_getLsbD_eq
  intro i hi
  interval_cases i <;> simp [opOf, encSP, place]

theorem mask_encSP (op : BitVec 6) (d : VReg) (k : Byte) :
    encSP op d k &&& Format.sp.mask = place op 26 := by
  apply BitVec.eq_of_getLsbD_eq
  intro i hi
  interval_cases i <;> simp [encSP, Format.mask, place]

theorem d_encSP (op : BitVec 6) (d : VReg) (k : Byte) : (Fields.of (encSP op d k)).d = d := by
  apply field3_eq
  apply BitVec.eq_of_getLsbD_eq
  intro i hi
  interval_cases i <;> simp [encSP, place]

theorem lo_encSP (op : BitVec 6) (d : VReg) (k : Byte) : (Fields.of (encSP op d k)).lo = k := by
  apply BitVec.eq_of_getLsbD_eq
  intro i hi
  interval_cases i <;> simp [Fields.of, encSP, place]

theorem opOf_encL (op : BitVec 6) (d : VReg) : opOf (encL op d) = op := by
  apply BitVec.eq_of_getLsbD_eq
  intro i hi
  interval_cases i <;> simp [opOf, encL, place]

theorem mask_encL (op : BitVec 6) (d : VReg) :
    encL op d &&& Format.l.mask = place op 26 := by
  apply BitVec.eq_of_getLsbD_eq
  intro i hi
  interval_cases i <;> simp [encL, Format.mask, place]

theorem d_encL (op : BitVec 6) (d : VReg) : (Fields.of (encL op d)).d = d := by
  apply field3_eq
  apply BitVec.eq_of_getLsbD_eq
  intro i hi
  interval_cases i <;> simp [encL, place]

theorem opOf_encL2 (op : BitVec 6) (d e : VReg) : opOf (encL2 op d e) = op := by
  apply BitVec.eq_of_getLsbD_eq
  intro i hi
  interval_cases i <;> simp [opOf, encL2, place]

theorem mask_encL2 (op : BitVec 6) (d e : VReg) :
    encL2 op d e &&& Format.l2.mask = place op 26 := by
  apply BitVec.eq_of_getLsbD_eq
  intro i hi
  interval_cases i <;> simp [encL2, Format.mask, place]

theorem d_encL2 (op : BitVec 6) (d e : VReg) : (Fields.of (encL2 op d e)).d = d := by
  apply field3_eq
  apply BitVec.eq_of_getLsbD_eq
  intro i hi
  interval_cases i <;> simp [encL2, place]

theorem a_encL2 (op : BitVec 6) (d e : VReg) : (Fields.of (encL2 op d e)).a = e := by
  apply field3_eq
  apply BitVec.eq_of_getLsbD_eq
  intro i hi
  interval_cases i <;> simp [encL2, place]

theorem opOf_encS (op : BitVec 6) (a : VReg) : opOf (encS op a) = op := by
  apply BitVec.eq_of_getLsbD_eq
  intro i hi
  interval_cases i <;> simp [opOf, encS, place]

theorem mask_encS (op : BitVec 6) (a : VReg) :
    encS op a &&& Format.s.mask = place op 26 := by
  apply BitVec.eq_of_getLsbD_eq
  intro i hi
  interval_cases i <;> simp [encS, Format.mask, place]

theorem a_encS (op : BitVec 6) (a : VReg) : (Fields.of (encS op a)).a = a := by
  apply field3_eq
  apply BitVec.eq_of_getLsbD_eq
  intro i hi
  interval_cases i <;> simp [encS, place]

/-! ## Words as numbers -/

/-- A field alone is its value at its place. -/
theorem toNat_place {k : Nat} (f : BitVec k) {lo : Nat} (h : lo + k ≤ 32) :
    (place f lo).toNat = f.toNat * 2 ^ lo := by
  have h1 : f.toNat < 2 ^ k := f.isLt
  have h2 : f.toNat * 2 ^ lo < 2 ^ 32 :=
    calc f.toNat * 2 ^ lo < 2 ^ k * 2 ^ lo := Nat.mul_lt_mul_of_pos_right h1 (Nat.two_pow_pos lo)
      _ = 2 ^ (lo + k) := by rw [← pow_add, Nat.add_comm]
      _ ≤ 2 ^ 32 := Nat.pow_le_pow_right (by decide) h
  have h3 : f.toNat < 2 ^ 32 := h1.trans_le (Nat.pow_le_pow_right (by decide) (by omega))
  rw [place, BitVec.toNat_shiftLeft, BitVec.toNat_setWidth, Nat.mod_eq_of_lt h3, Nat.shiftLeft_eq,
    Nat.mod_eq_of_lt h2]

/-- A field put below the set bits of a word is added to it. -/
theorem toNat_or_place {k : Nat} {x : CmdWord} (f : BitVec k) {lo : Nat} (h : lo + k ≤ 32)
    (hx : 2 ^ (lo + k) ∣ x.toNat) : (x ||| place f lo).toNat = x.toNat + f.toNat * 2 ^ lo := by
  obtain ⟨q, hq⟩ := hx
  have hf : f.toNat * 2 ^ lo < 2 ^ (lo + k) := by
    rw [pow_add, Nat.mul_comm]
    exact Nat.mul_lt_mul_of_pos_left f.isLt (Nat.two_pow_pos lo)
  rw [BitVec.toNat_or, toNat_place f h, hq, Nat.mul_comm, ← Nat.shiftLeft_eq,
    Nat.shiftLeft_add_eq_or_of_lt hf]

end Sys2Proof
end

