-- ==== Sys2Proof/Laws/State.lean ====
section
/-! SUPPORT. One lemma per field per update of State, true by rfl, so that no later proof unfolds a record
update. -/

namespace Sys2Proof.Machine

/-! ## setV -/

@[simp] theorem State.setV_inst (s : State) (r : VReg) (f : Nat → Byte) :
    (s.setV r f).inst = s.inst := rfl
@[simp] theorem State.setV_v (s : State) (r : VReg) (f : Nat → Byte) :
    (s.setV r f).v = s.v.set r ((List.range s.lanes).map f) := rfl
@[simp] theorem State.setV_init (s : State) (r : VReg) (f : Nat → Byte) :
    (s.setV r f).init = s.init.set r true := rfl
@[simp] theorem State.setV_mstate (s : State) (r : VReg) (f : Nat → Byte) :
    (s.setV r f).mstate = s.mstate := rfl
@[simp] theorem State.setV_mop (s : State) (r : VReg) (f : Nat → Byte) :
    (s.setV r f).mop = s.mop := rfl
@[simp] theorem State.setV_mcase (s : State) (r : VReg) (f : Nat → Byte) :
    (s.setV r f).mcase = s.mcase := rfl
@[simp] theorem State.setV_mword (s : State) (r : VReg) (f : Nat → Byte) :
    (s.setV r f).mword = s.mword := rfl
@[simp] theorem State.setV_src (s : State) (r : VReg) (f : Nat → Byte) :
    (s.setV r f).src = s.src := rfl
@[simp] theorem State.setV_dst (s : State) (r : VReg) (f : Nat → Byte) :
    (s.setV r f).dst = s.dst := rfl
@[simp] theorem State.setV_cnt (s : State) (r : VReg) (f : Nat → Byte) :
    (s.setV r f).cnt = s.cnt := rfl
@[simp] theorem State.setV_done (s : State) (r : VReg) (f : Nat → Byte) :
    (s.setV r f).done = s.done := rfl
@[simp] theorem State.setV_drop (s : State) (r : VReg) (f : Nat → Byte) :
    (s.setV r f).drop = s.drop := rfl
@[simp] theorem State.setV_err (s : State) (r : VReg) (f : Nat → Byte) :
    (s.setV r f).err = s.err := rfl
@[simp] theorem State.setV_errcmd (s : State) (r : VReg) (f : Nat → Byte) :
    (s.setV r f).errcmd = s.errcmd := rfl
@[simp] theorem State.setV_erraddr (s : State) (r : VReg) (f : Nat → Byte) :
    (s.setV r f).erraddr = s.erraddr := rfl
@[simp] theorem State.setV_mem (s : State) (r : VReg) (f : Nat → Byte) :
    (s.setV r f).mem = s.mem := rfl
@[simp] theorem State.setV_host (s : State) (r : VReg) (f : Nat → Byte) :
    (s.setV r f).host = s.host := rfl
@[simp] theorem State.setV_sched (s : State) (r : VReg) (f : Nat → Byte) :
    (s.setV r f).sched = s.sched := rfl
@[simp] theorem State.setV_reads (s : State) (r : VReg) (f : Nat → Byte) :
    (s.setV r f).reads = s.reads := rfl
@[simp] theorem State.setV_race (s : State) (r : VReg) (f : Nat → Byte) :
    (s.setV r f).race = s.race := rfl
@[simp] theorem State.setV_freeCount (s : State) (r : VReg) (f : Nat → Byte) :
    (s.setV r f).freeCount = s.freeCount := rfl

/-! ## raise -/

@[simp] theorem State.raise_inst (s : State) (e : ErrCode) (w : CmdWord) (a : Addr) :
    (s.raise e w a).inst = s.inst := rfl
@[simp] theorem State.raise_v (s : State) (e : ErrCode) (w : CmdWord) (a : Addr) :
    (s.raise e w a).v = s.v := rfl
@[simp] theorem State.raise_init (s : State) (e : ErrCode) (w : CmdWord) (a : Addr) :
    (s.raise e w a).init = s.init := rfl
@[simp] theorem State.raise_mstate (s : State) (e : ErrCode) (w : CmdWord) (a : Addr) :
    (s.raise e w a).mstate = s.mstate := rfl
@[simp] theorem State.raise_mop (s : State) (e : ErrCode) (w : CmdWord) (a : Addr) :
    (s.raise e w a).mop = s.mop := rfl
@[simp] theorem State.raise_mcase (s : State) (e : ErrCode) (w : CmdWord) (a : Addr) :
    (s.raise e w a).mcase = s.mcase := rfl
@[simp] theorem State.raise_mword (s : State) (e : ErrCode) (w : CmdWord) (a : Addr) :
    (s.raise e w a).mword = s.mword := rfl
@[simp] theorem State.raise_src (s : State) (e : ErrCode) (w : CmdWord) (a : Addr) :
    (s.raise e w a).src = s.src := rfl
@[simp] theorem State.raise_dst (s : State) (e : ErrCode) (w : CmdWord) (a : Addr) :
    (s.raise e w a).dst = s.dst := rfl
@[simp] theorem State.raise_cnt (s : State) (e : ErrCode) (w : CmdWord) (a : Addr) :
    (s.raise e w a).cnt = s.cnt := rfl
@[simp] theorem State.raise_done (s : State) (e : ErrCode) (w : CmdWord) (a : Addr) :
    (s.raise e w a).done = s.done := rfl
@[simp] theorem State.raise_drop (s : State) (e : ErrCode) (w : CmdWord) (a : Addr) :
    (s.raise e w a).drop = s.drop := rfl
@[simp] theorem State.raise_err (s : State) (e : ErrCode) (w : CmdWord) (a : Addr) :
    (s.raise e w a).err = e := rfl
@[simp] theorem State.raise_errcmd (s : State) (e : ErrCode) (w : CmdWord) (a : Addr) :
    (s.raise e w a).errcmd = w := rfl
@[simp] theorem State.raise_erraddr (s : State) (e : ErrCode) (w : CmdWord) (a : Addr) :
    (s.raise e w a).erraddr = if e = .memFault then a else 0#64 := rfl
@[simp] theorem State.raise_mem (s : State) (e : ErrCode) (w : CmdWord) (a : Addr) :
    (s.raise e w a).mem = s.mem := rfl
@[simp] theorem State.raise_host (s : State) (e : ErrCode) (w : CmdWord) (a : Addr) :
    (s.raise e w a).host = s.host := rfl
@[simp] theorem State.raise_sched (s : State) (e : ErrCode) (w : CmdWord) (a : Addr) :
    (s.raise e w a).sched = s.sched := rfl
@[simp] theorem State.raise_reads (s : State) (e : ErrCode) (w : CmdWord) (a : Addr) :
    (s.raise e w a).reads = s.reads := rfl
@[simp] theorem State.raise_race (s : State) (e : ErrCode) (w : CmdWord) (a : Addr) :
    (s.raise e w a).race = s.race := rfl
@[simp] theorem State.raise_freeCount (s : State) (e : ErrCode) (w : CmdWord) (a : Addr) :
    (s.raise e w a).freeCount = s.freeCount := rfl

/-! ## clearError -/

@[simp] theorem State.clearError_inst (s : State) : s.clearError.inst = s.inst := rfl
@[simp] theorem State.clearError_v (s : State) : s.clearError.v = s.v := rfl
@[simp] theorem State.clearError_init (s : State) : s.clearError.init = s.init := rfl
@[simp] theorem State.clearError_mstate (s : State) : s.clearError.mstate = s.mstate := rfl
@[simp] theorem State.clearError_mop (s : State) : s.clearError.mop = s.mop := rfl
@[simp] theorem State.clearError_mcase (s : State) : s.clearError.mcase = s.mcase := rfl
@[simp] theorem State.clearError_mword (s : State) : s.clearError.mword = s.mword := rfl
@[simp] theorem State.clearError_src (s : State) : s.clearError.src = s.src := rfl
@[simp] theorem State.clearError_dst (s : State) : s.clearError.dst = s.dst := rfl
@[simp] theorem State.clearError_cnt (s : State) : s.clearError.cnt = s.cnt := rfl
@[simp] theorem State.clearError_done (s : State) : s.clearError.done = s.done := rfl
@[simp] theorem State.clearError_drop (s : State) : s.clearError.drop = s.drop := rfl
@[simp] theorem State.clearError_err (s : State) : s.clearError.err = .none := rfl
@[simp] theorem State.clearError_errcmd (s : State) : s.clearError.errcmd = 0#32 := rfl
@[simp] theorem State.clearError_erraddr (s : State) : s.clearError.erraddr = 0#64 := rfl
@[simp] theorem State.clearError_mem (s : State) : s.clearError.mem = s.mem := rfl
@[simp] theorem State.clearError_host (s : State) : s.clearError.host = s.host := rfl
@[simp] theorem State.clearError_sched (s : State) : s.clearError.sched = s.sched := rfl
@[simp] theorem State.clearError_reads (s : State) : s.clearError.reads = s.reads := rfl
@[simp] theorem State.clearError_race (s : State) : s.clearError.race = s.race := rfl
@[simp] theorem State.clearError_freeCount (s : State) : s.clearError.freeCount = s.freeCount := rfl

/-! ## abort -/

@[simp] theorem State.abort_inst (s : State) (a : Addr) : (s.abort a).inst = s.inst := rfl
@[simp] theorem State.abort_v (s : State) (a : Addr) : (s.abort a).v = s.v := rfl
@[simp] theorem State.abort_init (s : State) (a : Addr) : (s.abort a).init = s.init := rfl
@[simp] theorem State.abort_mstate (s : State) (a : Addr) : (s.abort a).mstate = .idle := rfl
@[simp] theorem State.abort_mop (s : State) (a : Addr) : (s.abort a).mop = s.mop := rfl
@[simp] theorem State.abort_mcase (s : State) (a : Addr) : (s.abort a).mcase = s.mcase := rfl
@[simp] theorem State.abort_mword (s : State) (a : Addr) : (s.abort a).mword = s.mword := rfl
@[simp] theorem State.abort_src (s : State) (a : Addr) : (s.abort a).src = s.src := rfl
@[simp] theorem State.abort_dst (s : State) (a : Addr) : (s.abort a).dst = s.dst := rfl
@[simp] theorem State.abort_cnt (s : State) (a : Addr) : (s.abort a).cnt = s.cnt := rfl
@[simp] theorem State.abort_done (s : State) (a : Addr) : (s.abort a).done = s.done := rfl
@[simp] theorem State.abort_drop (s : State) (a : Addr) : (s.abort a).drop = s.drop := rfl
@[simp] theorem State.abort_err (s : State) (a : Addr) : (s.abort a).err = .memFault := rfl
@[simp] theorem State.abort_errcmd (s : State) (a : Addr) : (s.abort a).errcmd = s.mword := rfl
@[simp] theorem State.abort_erraddr (s : State) (a : Addr) : (s.abort a).erraddr = a := rfl
@[simp] theorem State.abort_mem (s : State) (a : Addr) : (s.abort a).mem = s.mem := rfl
@[simp] theorem State.abort_host (s : State) (a : Addr) : (s.abort a).host = s.host := rfl
@[simp] theorem State.abort_sched (s : State) (a : Addr) : (s.abort a).sched = s.sched := rfl
@[simp] theorem State.abort_reads (s : State) (a : Addr) : (s.abort a).reads = s.reads := rfl
@[simp] theorem State.abort_race (s : State) (a : Addr) : (s.abort a).race = s.race := rfl
@[simp] theorem State.abort_freeCount (s : State) (a : Addr) :
    (s.abort a).freeCount = s.freeCount := rfl

/-! ## dropWrite -/

@[simp] theorem State.dropWrite_inst (s : State) : s.dropWrite.inst = s.inst := rfl
@[simp] theorem State.dropWrite_v (s : State) : s.dropWrite.v = s.v := rfl
@[simp] theorem State.dropWrite_init (s : State) : s.dropWrite.init = s.init := rfl
@[simp] theorem State.dropWrite_mstate (s : State) : s.dropWrite.mstate = s.mstate := rfl
@[simp] theorem State.dropWrite_mop (s : State) : s.dropWrite.mop = s.mop := rfl
@[simp] theorem State.dropWrite_mcase (s : State) : s.dropWrite.mcase = s.mcase := rfl
@[simp] theorem State.dropWrite_mword (s : State) : s.dropWrite.mword = s.mword := rfl
@[simp] theorem State.dropWrite_src (s : State) : s.dropWrite.src = s.src := rfl
@[simp] theorem State.dropWrite_dst (s : State) : s.dropWrite.dst = s.dst := rfl
@[simp] theorem State.dropWrite_cnt (s : State) : s.dropWrite.cnt = s.cnt := rfl
@[simp] theorem State.dropWrite_done (s : State) : s.dropWrite.done = s.done := rfl
@[simp] theorem State.dropWrite_drop (s : State) : s.dropWrite.drop = true := rfl
@[simp] theorem State.dropWrite_err (s : State) : s.dropWrite.err = s.err := rfl
@[simp] theorem State.dropWrite_errcmd (s : State) : s.dropWrite.errcmd = s.errcmd := rfl
@[simp] theorem State.dropWrite_erraddr (s : State) : s.dropWrite.erraddr = s.erraddr := rfl
@[simp] theorem State.dropWrite_mem (s : State) : s.dropWrite.mem = s.mem := rfl
@[simp] theorem State.dropWrite_host (s : State) : s.dropWrite.host = s.host := rfl
@[simp] theorem State.dropWrite_sched (s : State) : s.dropWrite.sched = s.sched := rfl
@[simp] theorem State.dropWrite_reads (s : State) : s.dropWrite.reads = s.reads := rfl
@[simp] theorem State.dropWrite_race (s : State) : s.dropWrite.race = s.race := rfl
@[simp] theorem State.dropWrite_freeCount (s : State) : s.dropWrite.freeCount = s.freeCount := rfl

/-! ## logRead -/

@[simp] theorem State.logRead_inst (s : State) (x : HostRead) : (s.logRead x).inst = s.inst := rfl
@[simp] theorem State.logRead_v (s : State) (x : HostRead) : (s.logRead x).v = s.v := rfl
@[simp] theorem State.logRead_init (s : State) (x : HostRead) : (s.logRead x).init = s.init := rfl
@[simp] theorem State.logRead_mstate (s : State) (x : HostRead) :
    (s.logRead x).mstate = s.mstate := rfl
@[simp] theorem State.logRead_mop (s : State) (x : HostRead) : (s.logRead x).mop = s.mop := rfl
@[simp] theorem State.logRead_mcase (s : State) (x : HostRead) :
    (s.logRead x).mcase = s.mcase := rfl
@[simp] theorem State.logRead_mword (s : State) (x : HostRead) :
    (s.logRead x).mword = s.mword := rfl
@[simp] theorem State.logRead_src (s : State) (x : HostRead) : (s.logRead x).src = s.src := rfl
@[simp] theorem State.logRead_dst (s : State) (x : HostRead) : (s.logRead x).dst = s.dst := rfl
@[simp] theorem State.logRead_cnt (s : State) (x : HostRead) : (s.logRead x).cnt = s.cnt := rfl
@[simp] theorem State.logRead_done (s : State) (x : HostRead) : (s.logRead x).done = s.done := rfl
@[simp] theorem State.logRead_drop (s : State) (x : HostRead) : (s.logRead x).drop = s.drop := rfl
@[simp] theorem State.logRead_err (s : State) (x : HostRead) : (s.logRead x).err = s.err := rfl
@[simp] theorem State.logRead_errcmd (s : State) (x : HostRead) :
    (s.logRead x).errcmd = s.errcmd := rfl
@[simp] theorem State.logRead_erraddr (s : State) (x : HostRead) :
    (s.logRead x).erraddr = s.erraddr := rfl
@[simp] theorem State.logRead_mem (s : State) (x : HostRead) : (s.logRead x).mem = s.mem := rfl
@[simp] theorem State.logRead_host (s : State) (x : HostRead) : (s.logRead x).host = s.host := rfl
@[simp] theorem State.logRead_sched (s : State) (x : HostRead) :
    (s.logRead x).sched = s.sched := rfl
@[simp] theorem State.logRead_reads (s : State) (x : HostRead) :
    (s.logRead x).reads = x :: s.reads := rfl
@[simp] theorem State.logRead_race (s : State) (x : HostRead) : (s.logRead x).race = s.race := rfl
@[simp] theorem State.logRead_freeCount (s : State) (x : HostRead) :
    (s.logRead x).freeCount = s.freeCount := rfl

/-! ## advanceSrc -/

@[simp] theorem State.advanceSrc_inst (s : State) (n : Nat) : (s.advanceSrc n).inst = s.inst := rfl
@[simp] theorem State.advanceSrc_v (s : State) (n : Nat) : (s.advanceSrc n).v = s.v := rfl
@[simp] theorem State.advanceSrc_init (s : State) (n : Nat) : (s.advanceSrc n).init = s.init := rfl
@[simp] theorem State.advanceSrc_mstate (s : State) (n : Nat) :
    (s.advanceSrc n).mstate = s.mstate := rfl
@[simp] theorem State.advanceSrc_mop (s : State) (n : Nat) : (s.advanceSrc n).mop = s.mop := rfl
@[simp] theorem State.advanceSrc_mcase (s : State) (n : Nat) :
    (s.advanceSrc n).mcase = s.mcase := rfl
@[simp] theorem State.advanceSrc_mword (s : State) (n : Nat) :
    (s.advanceSrc n).mword = s.mword := rfl
@[simp] theorem State.advanceSrc_src (s : State) (n : Nat) :
    (s.advanceSrc n).src = s.src + BitVec.ofNat 64 n := rfl
@[simp] theorem State.advanceSrc_dst (s : State) (n : Nat) : (s.advanceSrc n).dst = s.dst := rfl
@[simp] theorem State.advanceSrc_cnt (s : State) (n : Nat) : (s.advanceSrc n).cnt = s.cnt := rfl
@[simp] theorem State.advanceSrc_done (s : State) (n : Nat) : (s.advanceSrc n).done = s.done := rfl
@[simp] theorem State.advanceSrc_drop (s : State) (n : Nat) : (s.advanceSrc n).drop = s.drop := rfl
@[simp] theorem State.advanceSrc_err (s : State) (n : Nat) : (s.advanceSrc n).err = s.err := rfl
@[simp] theorem State.advanceSrc_errcmd (s : State) (n : Nat) :
    (s.advanceSrc n).errcmd = s.errcmd := rfl
@[simp] theorem State.advanceSrc_erraddr (s : State) (n : Nat) :
    (s.advanceSrc n).erraddr = s.erraddr := rfl
@[simp] theorem State.advanceSrc_mem (s : State) (n : Nat) : (s.advanceSrc n).mem = s.mem := rfl
@[simp] theorem State.advanceSrc_host (s : State) (n : Nat) : (s.advanceSrc n).host = s.host := rfl
@[simp] theorem State.advanceSrc_sched (s : State) (n : Nat) :
    (s.advanceSrc n).sched = s.sched := rfl
@[simp] theorem State.advanceSrc_reads (s : State) (n : Nat) :
    (s.advanceSrc n).reads = s.reads := rfl
@[simp] theorem State.advanceSrc_race (s : State) (n : Nat) : (s.advanceSrc n).race = s.race := rfl
@[simp] theorem State.advanceSrc_freeCount (s : State) (n : Nat) :
    (s.advanceSrc n).freeCount = s.freeCount := rfl

/-! ## advanceDst -/

@[simp] theorem State.advanceDst_inst (s : State) (n : Nat) : (s.advanceDst n).inst = s.inst := rfl
@[simp] theorem State.advanceDst_v (s : State) (n : Nat) : (s.advanceDst n).v = s.v := rfl
@[simp] theorem State.advanceDst_init (s : State) (n : Nat) : (s.advanceDst n).init = s.init := rfl
@[simp] theorem State.advanceDst_mstate (s : State) (n : Nat) :
    (s.advanceDst n).mstate = s.mstate := rfl
@[simp] theorem State.advanceDst_mop (s : State) (n : Nat) : (s.advanceDst n).mop = s.mop := rfl
@[simp] theorem State.advanceDst_mcase (s : State) (n : Nat) :
    (s.advanceDst n).mcase = s.mcase := rfl
@[simp] theorem State.advanceDst_mword (s : State) (n : Nat) :
    (s.advanceDst n).mword = s.mword := rfl
@[simp] theorem State.advanceDst_src (s : State) (n : Nat) : (s.advanceDst n).src = s.src := rfl
@[simp] theorem State.advanceDst_dst (s : State) (n : Nat) :
    (s.advanceDst n).dst = s.dst + BitVec.ofNat 64 n := rfl
@[simp] theorem State.advanceDst_cnt (s : State) (n : Nat) : (s.advanceDst n).cnt = s.cnt := rfl
@[simp] theorem State.advanceDst_done (s : State) (n : Nat) : (s.advanceDst n).done = s.done := rfl
@[simp] theorem State.advanceDst_drop (s : State) (n : Nat) : (s.advanceDst n).drop = s.drop := rfl
@[simp] theorem State.advanceDst_err (s : State) (n : Nat) : (s.advanceDst n).err = s.err := rfl
@[simp] theorem State.advanceDst_errcmd (s : State) (n : Nat) :
    (s.advanceDst n).errcmd = s.errcmd := rfl
@[simp] theorem State.advanceDst_erraddr (s : State) (n : Nat) :
    (s.advanceDst n).erraddr = s.erraddr := rfl
@[simp] theorem State.advanceDst_mem (s : State) (n : Nat) : (s.advanceDst n).mem = s.mem := rfl
@[simp] theorem State.advanceDst_host (s : State) (n : Nat) : (s.advanceDst n).host = s.host := rfl
@[simp] theorem State.advanceDst_sched (s : State) (n : Nat) :
    (s.advanceDst n).sched = s.sched := rfl
@[simp] theorem State.advanceDst_reads (s : State) (n : Nat) :
    (s.advanceDst n).reads = s.reads := rfl
@[simp] theorem State.advanceDst_race (s : State) (n : Nat) : (s.advanceDst n).race = s.race := rfl
@[simp] theorem State.advanceDst_freeCount (s : State) (n : Nat) :
    (s.advanceDst n).freeCount = s.freeCount := rfl

/-! ## writeMem -/

@[simp] theorem State.writeMem_inst (s : State) (a : Addr) (d : List Byte) :
    (s.writeMem a d).inst = s.inst := rfl
@[simp] theorem State.writeMem_v (s : State) (a : Addr) (d : List Byte) :
    (s.writeMem a d).v = s.v := rfl
@[simp] theorem State.writeMem_init (s : State) (a : Addr) (d : List Byte) :
    (s.writeMem a d).init = s.init := rfl
@[simp] theorem State.writeMem_mstate (s : State) (a : Addr) (d : List Byte) :
    (s.writeMem a d).mstate = s.mstate := rfl
@[simp] theorem State.writeMem_mop (s : State) (a : Addr) (d : List Byte) :
    (s.writeMem a d).mop = s.mop := rfl
@[simp] theorem State.writeMem_mcase (s : State) (a : Addr) (d : List Byte) :
    (s.writeMem a d).mcase = s.mcase := rfl
@[simp] theorem State.writeMem_mword (s : State) (a : Addr) (d : List Byte) :
    (s.writeMem a d).mword = s.mword := rfl
@[simp] theorem State.writeMem_src (s : State) (a : Addr) (d : List Byte) :
    (s.writeMem a d).src = s.src := rfl
@[simp] theorem State.writeMem_dst (s : State) (a : Addr) (d : List Byte) :
    (s.writeMem a d).dst = s.dst := rfl
@[simp] theorem State.writeMem_cnt (s : State) (a : Addr) (d : List Byte) :
    (s.writeMem a d).cnt = s.cnt := rfl
@[simp] theorem State.writeMem_done (s : State) (a : Addr) (d : List Byte) :
    (s.writeMem a d).done = s.done := rfl
@[simp] theorem State.writeMem_drop (s : State) (a : Addr) (d : List Byte) :
    (s.writeMem a d).drop = s.drop := rfl
@[simp] theorem State.writeMem_err (s : State) (a : Addr) (d : List Byte) :
    (s.writeMem a d).err = s.err := rfl
@[simp] theorem State.writeMem_errcmd (s : State) (a : Addr) (d : List Byte) :
    (s.writeMem a d).errcmd = s.errcmd := rfl
@[simp] theorem State.writeMem_erraddr (s : State) (a : Addr) (d : List Byte) :
    (s.writeMem a d).erraddr = s.erraddr := rfl
@[simp] theorem State.writeMem_mem (s : State) (a : Addr) (d : List Byte) :
    (s.writeMem a d).mem = s.mem.writeBytes a d := rfl
@[simp] theorem State.writeMem_host (s : State) (a : Addr) (d : List Byte) :
    (s.writeMem a d).host = s.host := rfl
@[simp] theorem State.writeMem_sched (s : State) (a : Addr) (d : List Byte) :
    (s.writeMem a d).sched = s.sched := rfl
@[simp] theorem State.writeMem_reads (s : State) (a : Addr) (d : List Byte) :
    (s.writeMem a d).reads = s.reads := rfl
@[simp] theorem State.writeMem_race (s : State) (a : Addr) (d : List Byte) :
    (s.writeMem a d).race = s.race := rfl
@[simp] theorem State.writeMem_freeCount (s : State) (a : Addr) (d : List Byte) :
    (s.writeMem a d).freeCount = s.freeCount := rfl

/-! ## acceptMacro -/

@[simp] theorem State.acceptMacro_inst (s : State) (o : MOp) (c : CaseMode) (w : CmdWord) :
    (s.acceptMacro o c w).inst = s.inst := rfl
@[simp] theorem State.acceptMacro_v (s : State) (o : MOp) (c : CaseMode) (w : CmdWord) :
    (s.acceptMacro o c w).v = s.v := rfl
@[simp] theorem State.acceptMacro_init (s : State) (o : MOp) (c : CaseMode) (w : CmdWord) :
    (s.acceptMacro o c w).init = s.init := rfl
@[simp] theorem State.acceptMacro_mstate (s : State) (o : MOp) (c : CaseMode) (w : CmdWord) :
    (s.acceptMacro o c w).mstate = .bulk := rfl
@[simp] theorem State.acceptMacro_mop (s : State) (o : MOp) (c : CaseMode) (w : CmdWord) :
    (s.acceptMacro o c w).mop = o := rfl
@[simp] theorem State.acceptMacro_mcase (s : State) (o : MOp) (c : CaseMode) (w : CmdWord) :
    (s.acceptMacro o c w).mcase = c := rfl
@[simp] theorem State.acceptMacro_mword (s : State) (o : MOp) (c : CaseMode) (w : CmdWord) :
    (s.acceptMacro o c w).mword = w := rfl
@[simp] theorem State.acceptMacro_src (s : State) (o : MOp) (c : CaseMode) (w : CmdWord) :
    (s.acceptMacro o c w).src = s.src := rfl
@[simp] theorem State.acceptMacro_dst (s : State) (o : MOp) (c : CaseMode) (w : CmdWord) :
    (s.acceptMacro o c w).dst = s.dst := rfl
@[simp] theorem State.acceptMacro_cnt (s : State) (o : MOp) (c : CaseMode) (w : CmdWord) :
    (s.acceptMacro o c w).cnt = s.cnt := rfl
@[simp] theorem State.acceptMacro_done (s : State) (o : MOp) (c : CaseMode) (w : CmdWord) :
    (s.acceptMacro o c w).done = false := rfl
@[simp] theorem State.acceptMacro_drop (s : State) (o : MOp) (c : CaseMode) (w : CmdWord) :
    (s.acceptMacro o c w).drop = s.drop := rfl
@[simp] theorem State.acceptMacro_err (s : State) (o : MOp) (c : CaseMode) (w : CmdWord) :
    (s.acceptMacro o c w).err = s.err := rfl
@[simp] theorem State.acceptMacro_errcmd (s : State) (o : MOp) (c : CaseMode) (w : CmdWord) :
    (s.acceptMacro o c w).errcmd = s.errcmd := rfl
@[simp] theorem State.acceptMacro_erraddr (s : State) (o : MOp) (c : CaseMode) (w : CmdWord) :
    (s.acceptMacro o c w).erraddr = s.erraddr := rfl
@[simp] theorem State.acceptMacro_mem (s : State) (o : MOp) (c : CaseMode) (w : CmdWord) :
    (s.acceptMacro o c w).mem = s.mem := rfl
@[simp] theorem State.acceptMacro_host (s : State) (o : MOp) (c : CaseMode) (w : CmdWord) :
    (s.acceptMacro o c w).host = s.host := rfl
@[simp] theorem State.acceptMacro_sched (s : State) (o : MOp) (c : CaseMode) (w : CmdWord) :
    (s.acceptMacro o c w).sched = s.sched := rfl
@[simp] theorem State.acceptMacro_reads (s : State) (o : MOp) (c : CaseMode) (w : CmdWord) :
    (s.acceptMacro o c w).reads = s.reads := rfl
@[simp] theorem State.acceptMacro_race (s : State) (o : MOp) (c : CaseMode) (w : CmdWord) :
    (s.acceptMacro o c w).race = ⟨s.src, s.dst, s.cnt, s.race.bytes, false⟩ := rfl
@[simp] theorem State.acceptMacro_freeCount (s : State) (o : MOp) (c : CaseMode) (w : CmdWord) :
    (s.acceptMacro o c w).freeCount = s.freeCount := rfl

/-! ## toTail -/

@[simp] theorem State.toTail_inst (s : State) : s.toTail.inst = s.inst := rfl
@[simp] theorem State.toTail_v (s : State) : s.toTail.v = s.v := rfl
@[simp] theorem State.toTail_init (s : State) : s.toTail.init = s.init := rfl
@[simp] theorem State.toTail_mstate (s : State) : s.toTail.mstate = .tail := rfl
@[simp] theorem State.toTail_mop (s : State) : s.toTail.mop = s.mop := rfl
@[simp] theorem State.toTail_mcase (s : State) : s.toTail.mcase = s.mcase := rfl
@[simp] theorem State.toTail_mword (s : State) : s.toTail.mword = s.mword := rfl
@[simp] theorem State.toTail_src (s : State) : s.toTail.src = s.src := rfl
@[simp] theorem State.toTail_dst (s : State) : s.toTail.dst = s.dst := rfl
@[simp] theorem State.toTail_cnt (s : State) : s.toTail.cnt = s.cnt := rfl
@[simp] theorem State.toTail_done (s : State) : s.toTail.done = s.done := rfl
@[simp] theorem State.toTail_drop (s : State) : s.toTail.drop = s.drop := rfl
@[simp] theorem State.toTail_err (s : State) : s.toTail.err = s.err := rfl
@[simp] theorem State.toTail_errcmd (s : State) : s.toTail.errcmd = s.errcmd := rfl
@[simp] theorem State.toTail_erraddr (s : State) : s.toTail.erraddr = s.erraddr := rfl
@[simp] theorem State.toTail_mem (s : State) : s.toTail.mem = s.mem := rfl
@[simp] theorem State.toTail_host (s : State) : s.toTail.host = s.host := rfl
@[simp] theorem State.toTail_sched (s : State) : s.toTail.sched = s.sched := rfl
@[simp] theorem State.toTail_reads (s : State) : s.toTail.reads = s.reads := rfl
@[simp] theorem State.toTail_race (s : State) : s.toTail.race = s.race := rfl
@[simp] theorem State.toTail_freeCount (s : State) : s.toTail.freeCount = s.freeCount := rfl

/-! ## finish -/

@[simp] theorem State.finish_inst (s : State) : s.finish.inst = s.inst := rfl
@[simp] theorem State.finish_v (s : State) : s.finish.v = s.v := rfl
@[simp] theorem State.finish_init (s : State) : s.finish.init = s.init := rfl
@[simp] theorem State.finish_mstate (s : State) : s.finish.mstate = .idle := rfl
@[simp] theorem State.finish_mop (s : State) : s.finish.mop = s.mop := rfl
@[simp] theorem State.finish_mcase (s : State) : s.finish.mcase = s.mcase := rfl
@[simp] theorem State.finish_mword (s : State) : s.finish.mword = s.mword := rfl
@[simp] theorem State.finish_src (s : State) : s.finish.src = s.src := rfl
@[simp] theorem State.finish_dst (s : State) : s.finish.dst = s.dst := rfl
@[simp] theorem State.finish_cnt (s : State) : s.finish.cnt = s.cnt := rfl
@[simp] theorem State.finish_done (s : State) : s.finish.done = true := rfl
@[simp] theorem State.finish_drop (s : State) : s.finish.drop = s.drop := rfl
@[simp] theorem State.finish_err (s : State) : s.finish.err = s.err := rfl
@[simp] theorem State.finish_errcmd (s : State) : s.finish.errcmd = s.errcmd := rfl
@[simp] theorem State.finish_erraddr (s : State) : s.finish.erraddr = s.erraddr := rfl
@[simp] theorem State.finish_mem (s : State) : s.finish.mem = s.mem := rfl
@[simp] theorem State.finish_host (s : State) : s.finish.host = s.host := rfl
@[simp] theorem State.finish_sched (s : State) : s.finish.sched = s.sched := rfl
@[simp] theorem State.finish_reads (s : State) : s.finish.reads = s.reads := rfl
@[simp] theorem State.finish_race (s : State) : s.finish.race = s.race := rfl
@[simp] theorem State.finish_freeCount (s : State) : s.finish.freeCount = s.freeCount := rfl

/-! ## popSched -/

@[simp] theorem State.popSched_inst (s : State) : s.popSched.inst = s.inst := rfl
@[simp] theorem State.popSched_v (s : State) : s.popSched.v = s.v := rfl
@[simp] theorem State.popSched_init (s : State) : s.popSched.init = s.init := rfl
@[simp] theorem State.popSched_mstate (s : State) : s.popSched.mstate = s.mstate := rfl
@[simp] theorem State.popSched_mop (s : State) : s.popSched.mop = s.mop := rfl
@[simp] theorem State.popSched_mcase (s : State) : s.popSched.mcase = s.mcase := rfl
@[simp] theorem State.popSched_mword (s : State) : s.popSched.mword = s.mword := rfl
@[simp] theorem State.popSched_src (s : State) : s.popSched.src = s.src := rfl
@[simp] theorem State.popSched_dst (s : State) : s.popSched.dst = s.dst := rfl
@[simp] theorem State.popSched_cnt (s : State) : s.popSched.cnt = s.cnt := rfl
@[simp] theorem State.popSched_done (s : State) : s.popSched.done = s.done := rfl
@[simp] theorem State.popSched_drop (s : State) : s.popSched.drop = s.drop := rfl
@[simp] theorem State.popSched_err (s : State) : s.popSched.err = s.err := rfl
@[simp] theorem State.popSched_errcmd (s : State) : s.popSched.errcmd = s.errcmd := rfl
@[simp] theorem State.popSched_erraddr (s : State) : s.popSched.erraddr = s.erraddr := rfl
@[simp] theorem State.popSched_mem (s : State) : s.popSched.mem = s.mem := rfl
@[simp] theorem State.popSched_host (s : State) : s.popSched.host = s.host := rfl
@[simp] theorem State.popSched_sched (s : State) : s.popSched.sched = s.sched.tail := rfl
@[simp] theorem State.popSched_reads (s : State) : s.popSched.reads = s.reads := rfl
@[simp] theorem State.popSched_race (s : State) : s.popSched.race = s.race := rfl
@[simp] theorem State.popSched_freeCount (s : State) : s.popSched.freeCount = s.freeCount := rfl

end Sys2Proof.Machine
end

