-- ==== Sys2Proof/Laws/Memory.lean ====
section
/-! SUPPORT. What the memory operations do: read after write, the canonical form is kept, and canonical
memories that list the same bytes are equal. -/

namespace Sys2Proof.Machine

namespace Memory

@[simp] theorem wfAbove_nil (lo : Nat) : wfAbove lo [] = true := rfl

theorem wfAbove_cons {lo k : Nat} {b : Byte} {m : Memory} :
    wfAbove lo ((k, b) :: m) = true ↔ lo ≤ k ∧ k < 2 ^ 64 ∧ wfAbove (k + 1) m = true := by
  simp [wfAbove, and_assoc]

theorem write_wfAbove {lo a : Nat} {b : Byte} (hlo : lo ≤ a) (ha : a < 2 ^ 64) :
    ∀ {m : Memory}, wfAbove lo m = true → wfAbove lo (m.write a b) = true
  | [], _ => wfAbove_cons.mpr ⟨hlo, ha, rfl⟩
  | (k, c) :: m, hm => by
    obtain ⟨h1, h2, h3⟩ := wfAbove_cons.mp hm
    unfold write
    split
    · subst k; exact wfAbove_cons.mpr ⟨h1, h2, h3⟩
    · split
      · exact wfAbove_cons.mpr ⟨hlo, ha, wfAbove_cons.mpr ⟨by omega, h2, h3⟩⟩
      · exact wfAbove_cons.mpr ⟨h1, h2, write_wfAbove (by omega) ha h3⟩

/-- A write keeps the canonical form. -/
theorem write_wf {m : Memory} {a : Nat} (b : Byte) (hm : m.wf = true) (ha : a < 2 ^ 64) :
    (m.write a b).wf = true :=
  write_wfAbove (Nat.zero_le _) ha hm

/-- The byte just written is the one listed. -/
@[simp] theorem lookup_write_same (a : Nat) (b : Byte) :
    ∀ m : Memory, (m.write a b).lookup a = some b
  | [] => by simp [write, lookup]
  | (k, c) :: m => by
    unfold write
    split
    · simp [lookup]
    · split
      · simp [lookup]
      · simp [lookup, *, lookup_write_same a b m]

/-- A write leaves what is listed at every other address. -/
theorem lookup_write_other {a a' : Nat} (b : Byte) (ha : a' ≠ a) :
    ∀ m : Memory, (m.write a b).lookup a' = m.lookup a'
  | [] => by simp [write, lookup, Ne.symm ha]
  | (k, c) :: m => by
    unfold write
    split
    · subst k; simp [lookup, Ne.symm ha]
    · split
      · rcases Nat.lt_or_ge a' a with h | h
        · have h1 : k ≠ a' := by omega
          have h2 : a' < k := by omega
          simp [lookup, Ne.symm ha, h, h1, h2]
        · simp [lookup, Ne.symm ha, Nat.not_lt.mpr h]
      · simp [lookup, lookup_write_other b ha m]

/-- Reading back the byte just written. -/
@[simp] theorem read_write_same (m : Memory) (a : Nat) (b : Byte) : (m.write a b).read a = b := by
  simp [read]

/-- A write leaves every other address alone. -/
theorem read_write_other (m : Memory) {a a' : Nat} (b : Byte) (ha : a' ≠ a) :
    (m.write a b).read a' = m.read a' := by
  simp [read, lookup_write_other b ha m]

/-- A listed byte is what its address reads as, whatever the platform put there. -/
theorem read_of_lookup {m : Memory} {a : Nat} {b : Byte} (h : m.lookup a = some b) : m.read a = b := by
  simp [read, h]

/-- An unlisted address reads as what the platform put there. -/
theorem read_of_unlisted {m : Memory} {a : Nat} (h : m.lookup a = none) :
    m.read a = Config.platformByte a := by
  simp [read, h]

theorem ext_above {lo : Nat} :
    ∀ {m m' : Memory}, wfAbove lo m = true → wfAbove lo m' = true →
      (∀ a, lo ≤ a → m.lookup a = m'.lookup a) → m = m'
  | [], [], _, _, _ => rfl
  | [], (k, b) :: m', _, hm', h => by
    simpa [lookup] using h k (wfAbove_cons.mp hm').1
  | (k, b) :: m, [], hm, _, h => by
    simpa [lookup] using h k (wfAbove_cons.mp hm).1
  | (k, b) :: m, (k', b') :: m', hm, hm', h => by
    obtain ⟨h1, -, h3⟩ := wfAbove_cons.mp hm
    obtain ⟨h1', -, h3'⟩ := wfAbove_cons.mp hm'
    have hk : k = k' := by
      rcases Nat.lt_trichotomy k k' with hlt | heq | hgt
      · simpa [lookup, Nat.ne_of_gt hlt, hlt] using h k h1
      · exact heq
      · simpa [lookup, Nat.ne_of_gt hgt, hgt] using (h k' h1').symm
    subst k'
    have hb : b = b' := by simpa [lookup] using h k h1
    subst b'
    congr 1
    refine ext_above h3 h3' fun a ha => ?_
    have hka : k ≠ a := by omega
    have hnlt : ¬ a < k := by omega
    simpa [lookup, hka, hnlt] using h a (by omega)

/-- Canonical memories that list the same bytes are equal. -/
theorem ext_of_lookup {m m' : Memory} (hm : m.wf = true) (hm' : m'.wf = true)
    (h : ∀ a, m.lookup a = m'.lookup a) : m = m' :=
  ext_above hm hm' fun a _ => h a

@[simp] theorem readBytes_length (m : Memory) (a : Addr) (n : Nat) :
    (m.readBytes a n).length = n := by simp [readBytes]

theorem readBytes_getD (m : Memory) (a : Addr) {n i : Nat} (h : i < n) (d : Byte) :
    (m.readBytes a n).getD i d = m.read (a + BitVec.ofNat 64 i).toNat := by
  simp [readBytes, List.getD, h]

/-- Writing bytes keeps the canonical form. -/
theorem writeBytes_wf : ∀ {d : List Byte} {m : Memory} {a : Addr}, m.wf = true →
    (m.writeBytes a d).wf = true
  | [], _, _, hm => hm
  | b :: d, _, a, hm => writeBytes_wf (d := d) (write_wf b hm a.isLt)

theorem addr_succ (a : Addr) (j : Nat) :
    a + 1#64 + BitVec.ofNat 64 j = a + BitVec.ofNat 64 (j + 1) := by
  apply BitVec.eq_of_toNat_eq
  simp
  omega

/-- Writing two pieces one after the other is writing them joined. -/
theorem writeBytes_append : ∀ (d e : List Byte) (m : Memory) (a : Addr),
    (m.writeBytes a d).writeBytes (a + BitVec.ofNat 64 d.length) e = m.writeBytes a (d ++ e)
  | [], e, m, a => by simp [writeBytes]
  | b :: d, e, m, a => by
    have := writeBytes_append d e (m.write a.toNat b) (a + 1#64)
    rw [addr_succ] at this
    simpa [writeBytes] using this

/-- Writing bytes leaves every address outside them alone. -/
theorem writeBytes_read_other : ∀ {d : List Byte} (m : Memory) {a x : Addr},
    (∀ j, j < d.length → x ≠ a + BitVec.ofNat 64 j) →
    (m.writeBytes a d).read x.toNat = m.read x.toNat
  | [], _, _, _, _ => rfl
  | b :: d, m, a, x, h => by
    have h0 : x.toNat ≠ a.toNat := fun e => h 0 (by simp) (by
      rw [BitVec.eq_of_toNat_eq e]; simp)
    rw [writeBytes, writeBytes_read_other _, read_write_other _ b h0]
    intro j hj
    rw [addr_succ]
    exact h (j + 1) (by simpa using hj)

/-- Reading back the bytes just written. -/
theorem writeBytes_read_same : ∀ {d : List Byte} (m : Memory) {a : Addr} {i : Nat},
    d.length ≤ 2 ^ 64 → (h : i < d.length) →
    (m.writeBytes a d).read (a + BitVec.ofNat 64 i).toNat = d[i]
  | [], _, _, _, _, h => absurd h (by simp)
  | b :: d, m, a, 0, hl, _ => by
    have h0 : a + BitVec.ofNat 64 0 = a := by simp
    rw [writeBytes, h0, writeBytes_read_other _, read_write_same]
    · rfl
    · intro j hj e
      rw [addr_succ] at e
      have := congrArg BitVec.toNat e
      simp at this hl
      omega
  | b :: d, m, a, i + 1, hl, h => by
    have h' : i < d.length := by simpa using h
    rw [← addr_succ a i, writeBytes]
    exact writeBytes_read_same _ (by simp at hl; omega) h'

end Memory

end Sys2Proof.Machine
end

