-- ==== Sys2Proof/Laws/Ops.lean ====
section
/-! SUPPORT. What the shared operations do, once each: lane registers, admission, unit reads, loads and
stores at the cursors, reorder commands, and block moves. -/

namespace Sys2Proof.Machine

/-! ## Lane registers -/

theorem Width.lanes_pos (w : Width) : 0 < w.lanes := by cases w <;> decide

theorem State.lanes_pos (s : State) : 0 < s.lanes := Width.lanes_pos _

theorem State.lanes_congr {s t : State} (h : t.inst = s.inst) : t.lanes = s.lanes := by
  simp [State.lanes, h]

/-- The register written. -/
theorem State.setV_v_self (s : State) (r : VReg) (f : Nat → Byte) :
    (s.setV r f).v[r] = (List.range s.lanes).map f := by
  simp

/-- Every other register. -/
theorem State.setV_v_other (s : State) {r r' : VReg} (f : Nat → Byte) (h : r' ≠ r) :
    (s.setV r f).v[r'] = s.v[r'] := by
  have : r.val ≠ r'.val := fun e => h (Fin.ext e.symm)
  simp [this]

theorem State.setV_init_get (s : State) (r r' : VReg) (f : Nat → Byte) :
    (s.setV r f).init[r'] = if r = r' then true else s.init[r'] := by
  simp [Vector.getElem_set, Fin.ext_iff]

theorem State.lane_setV_self (s : State) (r : VReg) (f : Nat → Byte) {i : Nat} (h : i < s.lanes) :
    (s.setV r f).lane r i = f i := by
  simp [State.lane, List.getD, h]

theorem State.lane_setV_other (s : State) {r r' : VReg} (f : Nat → Byte) (h : r' ≠ r) (i : Nat) :
    (s.setV r f).lane r' i = s.lane r' i := by
  rw [State.lane, State.setV_v_other s f h, State.lane]

/-- `setV` writes the lanes of one register and nothing else. -/
theorem State.writesLanes_setV (s : State) (r : VReg) (f : Nat → Byte) :
    WritesLanes s (s.setV r f) r f where
  lanes _ h := s.lane_setV_self r f h
  others _ h := s.setV_v_other f h
  init_dest := by simp
  init_others r' h := by rw [State.setV_init_get, if_neg (Ne.symm h)]
  rest := rfl
  memory _ := rfl

/-- Frame and result of the lane-wise forms. -/
theorem laneMap1_writes (f : Byte → Byte) (vd va : VReg) (s : State) :
    WritesLanes s (laneMap1 f vd va s) vd fun i => f (s.lane va i) :=
  s.writesLanes_setV _ _

theorem laneMap2_writes (f : Byte → Byte → Byte) (vd va vb : VReg) (s : State) :
    WritesLanes s (laneMap2 f vd va vb s) vd fun i => f (s.lane va i) (s.lane vb i) :=
  s.writesLanes_setV _ _

theorem laneMap3_writes (f : Byte → Byte → Byte → Byte) (vd vm va vb : VReg) (s : State) :
    WritesLanes s (laneMap3 f vd vm va vb s) vd
      fun i => f (s.lane vm i) (s.lane va i) (s.lane vb i) :=
  s.writesLanes_setV _ _

theorem laneMapImm_writes (f : Byte → Byte → Byte) (vd va : VReg) (k : Byte) (s : State) :
    WritesLanes s (laneMapImm f vd va k s) vd fun i => f (s.lane va i) k :=
  s.writesLanes_setV _ _

/-! ## Admission -/

/-- An admitted range does not wrap (spec/20_memory.md R74). -/
theorem admitted_no_wrap {inst : Instance} {k : AccessKind} {a : Addr} {n : Nat}
    (h : admitted inst k a n = true) : a.toNat + n ≤ 2 ^ 64 := by
  simp [admitted] at h
  omega

/-- The platform accepts an admitted range. -/
theorem admitted_platform {inst : Instance} {k : AccessKind} {a : Addr} {n : Nat}
    (h : admitted inst k a n = true) : platformAdmits inst k a n = true := by
  simp [admitted] at h
  exact h.2

/-! ## Unit reads -/

@[simp] theorem State.unitBytes_length (s : State) (a : Addr) (n : Nat) :
    (s.unitBytes a n).length = n := by simp [State.unitBytes]

/-- A byte no racing write hit reads as memory has it. -/
theorem State.unitBytes_getD {s : State} {a : Addr} {n i : Nat} (h : i < n)
    (hc : (a + BitVec.ofNat 64 i).toNat ∉ s.race.bytes) (d : Byte) :
    (s.unitBytes a n).getD i d = s.mem.read (a + BitVec.ofNat 64 i).toNat := by
  simp only [State.unitBytes, List.getD, List.getElem?_map, List.getElem?_range h, Option.map_some,
    Option.getD_some, List.contains_iff_mem, if_neg hc]

/-- A read with no raced byte returns the memory's bytes. -/
theorem State.unitBytes_of_clean {s : State} {a : Addr} {n : Nat} (h : s.cleanRange a n) :
    s.unitBytes a n = s.mem.readBytes a n := by
  simp only [State.unitBytes, Memory.readBytes]
  refine List.map_congr_left fun j hj => ?_
  simp only [List.contains_iff_mem, if_neg (h j (List.mem_range.mp hj))]

/-- A read with no raced byte uses up no free value. -/
theorem State.afterUnitRead_of_clean {s : State} {a : Addr} {n : Nat} (h : s.cleanRange a n) :
    s.afterUnitRead a n = s := by
  have h0 : s.anyRaced a n = false := by
    simp only [State.anyRaced, List.any_eq_false, List.mem_range]
    intro j hj
    simpa using h j hj
  simp [State.afterUnitRead, h0]

/-- A unit read uses up free values and changes nothing else. -/
theorem State.afterUnitRead_eq (s : State) (a : Addr) (n : Nat) :
    s.afterUnitRead a n = { s with freeCount := (s.afterUnitRead a n).freeCount } := rfl

@[simp] theorem State.macroBytes_length (s : State) (d : List Byte) :
    (s.macroBytes d).length = d.length := by
  unfold State.macroBytes
  split <;> simp

theorem State.macroBytes_of_untainted {s : State} (h : s.race.tainted = false) (d : List Byte) :
    s.macroBytes d = d := by simp [State.macroBytes, h]

theorem State.afterMacroBytes_eq (s : State) (n : Nat) :
    s.afterMacroBytes n = { s with freeCount := (s.afterMacroBytes n).freeCount } := rfl

/-! ## Loads, stores, reorder commands: their two outcomes -/

theorem loadAtSrc_cases (i : Instr) (n : Nat) (w : List Byte → State → State) (s : State) :
    (admitted s.inst .rd s.src n = true ∧ loadAtSrc i n w s =
      .next ((w (s.unitBytes s.src n) (s.afterUnitRead s.src n)).advanceSrc n)) ∨
    (admitted s.inst .rd s.src n = false ∧
      loadAtSrc i n w s = .next (s.raise .memFault (encode i) s.src)) := by
  unfold loadAtSrc
  split
  · exact .inl ⟨‹_›, rfl⟩
  · exact .inr ⟨by simpa using ‹¬ (admitted _ _ _ _ = true)›, rfl⟩

theorem storeAtDst_cases (i : Instr) (d : List Byte) (s : State) :
    (admitted s.inst .wr s.dst d.length = true ∧
      storeAtDst i d s = .next ((s.writeMem s.dst d).advanceDst d.length)) ∨
    (admitted s.inst .wr s.dst d.length = false ∧
      storeAtDst i d s = .next (s.raise .memFault (encode i) s.dst)) := by
  unfold storeAtDst
  split
  · exact .inl ⟨‹_›, rfl⟩
  · exact .inr ⟨by simpa using ‹¬ (admitted _ _ _ _ = true)›, rfl⟩

theorem reorder_cases (i : Instr) (p : State → (Nat → Byte) → (Nat → Byte) → Nat → Byte)
    (vd va vb : VReg) (s : State) :
    (s.inst.width = .w1 ∧ reorder i p vd va vb s = .next (s.raise .illegal (encode i) 0#64)) ∨
    (s.inst.width ≠ .w1 ∧
      reorder i p vd va vb s = .next (s.setV vd (p s (s.lane va) (s.lane vb)))) := by
  unfold reorder
  split
  · exact .inl ⟨‹_›, rfl⟩
  · exact .inr ⟨‹_›, rfl⟩

@[simp] theorem State.lanesOf_length (s : State) (r : VReg) : (s.lanesOf r).length = s.lanes := by
  simp [State.lanesOf]

/-! ## Block moves -/

@[simp] theorem encBlock_length (c : CaseMode) (x : List Byte) :
    (encBlock c x).length = 2 * x.length := by
  induction x with
  | nil => rfl
  | cons b x ih => simp [encBlock, ih]; omega

theorem decBlock_length_two : ∀ x : List Byte, (decBlock x).length = x.length / 2
  | [] => rfl
  | [_] => by simp [decBlock]
  | _ :: _ :: x => by simp only [decBlock, List.length_cons, decBlock_length_two x]; omega

/-- Everything a block move can do: abort at the first range that is not admitted, the read range first,
or move the block and advance. -/
theorem moveBlock_cases (nIn nOut : Nat) (f : List Byte → List Byte) (s : State) :
    (admitted s.inst .rd s.src nIn = false ∧ moveBlock nIn nOut f s = s.abort s.src) ∨
    (admitted s.inst .rd s.src nIn = true ∧ admitted s.inst .wr s.dst nOut = false ∧
      moveBlock nIn nOut f s = s.abort s.dst) ∨
    (admitted s.inst .rd s.src nIn = true ∧ admitted s.inst .wr s.dst nOut = true ∧
      ∃ d k, d.length = (f (s.unitBytes s.src nIn)).length ∧
        (s.race.tainted = false → d = f (s.unitBytes s.src nIn)) ∧
        (s.race.tainted = false → s.cleanRange s.src nIn → k = s.freeCount) ∧
        moveBlock nIn nOut f s =
          { s with
            mem := s.mem.writeBytes s.dst d
            src := s.src + BitVec.ofNat 64 nIn
            dst := s.dst + BitVec.ofNat 64 nOut
            cnt := s.cnt - BitVec.ofNat 64 nIn
            freeCount := k }) := by
  unfold moveBlock
  split
  · split
    · refine .inr (.inr ⟨‹_›, ‹_›, (s.afterUnitRead s.src nIn).macroBytes (f (s.unitBytes s.src nIn)),
        ((s.afterUnitRead s.src nIn).afterMacroBytes (f (s.unitBytes s.src nIn)).length).freeCount,
        by simp, fun h => ?_, ?_, rfl⟩)
      · exact State.macroBytes_of_untainted (s := s.afterUnitRead s.src nIn) h _
      · intro ht hc
        simp [State.afterUnitRead_of_clean hc, State.afterMacroBytes, ht]
    · exact .inr (.inl ⟨‹_›, by simpa using ‹¬ (admitted _ .wr _ _ = true)›, rfl⟩)
  · exact .inl ⟨by simpa using ‹¬ (admitted _ _ _ _ = true)›, rfl⟩

end Sys2Proof.Machine
end

