-- ==== Sys2Proof/Laws/PerInstr.lean ====
section
/-! SUPPORT. Statements made per instruction: one lemma per constructor of Instr. -/

namespace Sys2Proof.Laws.EncodeMatchesFormat

/-- The OP value and the format that the opcode map of spec/30_encoding.md R105 gives a command. -/
def rowOf : Instr → BitVec 6 × Format
  | .nop => (0x01#6, .x)
  | .ld _ => (0x02#6, .l)
  | .ld2 _ _ => (0x03#6, .l2)
  | .st _ => (0x04#6, .s)
  | .ldb _ => (0x05#6, .l)
  | .stb _ => (0x06#6, .s)
  | .splat _ _ => (0x07#6, .sp)
  | .and _ _ _ => (0x08#6, .r3)
  | .or _ _ _ => (0x09#6, .r3)
  | .xor _ _ _ => (0x0A#6, .r3)
  | .add _ _ _ => (0x0B#6, .r3)
  | .sub _ _ _ => (0x0C#6, .r3)
  | .andi _ _ _ => (0x10#6, .i8)
  | .ori _ _ _ => (0x11#6, .i8)
  | .xori _ _ _ => (0x12#6, .i8)
  | .addi _ _ _ => (0x13#6, .i8)
  | .shli _ _ _ => (0x14#6, .sh)
  | .shri _ _ _ => (0x15#6, .sh)
  | .rng _ _ _ _ => (0x18#6, .i16)
  | .sel _ _ _ _ => (0x19#6, .r4)
  | .n2a _ _ _ => (0x1A#6, .n)
  | .a2n _ _ => (0x1B#6, .r2)
  | .cmb _ _ _ => (0x1C#6, .r3)
  | .ilvlo _ _ _ => (0x20#6, .r3)
  | .ilvhi _ _ _ => (0x21#6, .r3)
  | .zipglo _ _ _ => (0x22#6, .r3)
  | .zipghi _ _ _ => (0x23#6, .r3)
  | .enc _ => (0x30#6, .xc)
  | .dec => (0x31#6, .x)

/-- The encoded word has the table's OP and a 0 in every reserved bit of the table's format (R103,
R105). -/
def Statement (i : Instr) : Prop :=
  opOf (encode i) = (rowOf i).1 ∧ encode i &&& (rowOf i).2.mask = place (rowOf i).1 26

theorem nop : Statement .nop :=
  ⟨opOf_encX _, mask_encX _⟩

theorem ld (vd : VReg) : Statement (.ld vd) :=
  ⟨opOf_encL _ _, mask_encL _ _⟩

theorem ld2 (vd : VReg) (ve : VReg) : Statement (.ld2 vd ve) :=
  ⟨opOf_encL2 _ _ _, mask_encL2 _ _ _⟩

theorem st (va : VReg) : Statement (.st va) :=
  ⟨opOf_encS _ _, mask_encS _ _⟩

theorem ldb (vd : VReg) : Statement (.ldb vd) :=
  ⟨opOf_encL _ _, mask_encL _ _⟩

theorem stb (va : VReg) : Statement (.stb va) :=
  ⟨opOf_encS _ _, mask_encS _ _⟩

theorem splat (vd : VReg) (imm8 : Byte) : Statement (.splat vd imm8) :=
  ⟨opOf_encSP _ _ _, mask_encSP _ _ _⟩

theorem and (vd : VReg) (va : VReg) (vb : VReg) : Statement (.and vd va vb) :=
  ⟨opOf_encR3 _ _ _ _, mask_encR3 _ _ _ _⟩

theorem or (vd : VReg) (va : VReg) (vb : VReg) : Statement (.or vd va vb) :=
  ⟨opOf_encR3 _ _ _ _, mask_encR3 _ _ _ _⟩

theorem xor (vd : VReg) (va : VReg) (vb : VReg) : Statement (.xor vd va vb) :=
  ⟨opOf_encR3 _ _ _ _, mask_encR3 _ _ _ _⟩

theorem add (vd : VReg) (va : VReg) (vb : VReg) : Statement (.add vd va vb) :=
  ⟨opOf_encR3 _ _ _ _, mask_encR3 _ _ _ _⟩

theorem sub (vd : VReg) (va : VReg) (vb : VReg) : Statement (.sub vd va vb) :=
  ⟨opOf_encR3 _ _ _ _, mask_encR3 _ _ _ _⟩

theorem andi (vd : VReg) (va : VReg) (imm8 : Byte) : Statement (.andi vd va imm8) :=
  ⟨opOf_encI8 _ _ _ _, mask_encI8 _ _ _ _⟩

theorem ori (vd : VReg) (va : VReg) (imm8 : Byte) : Statement (.ori vd va imm8) :=
  ⟨opOf_encI8 _ _ _ _, mask_encI8 _ _ _ _⟩

theorem xori (vd : VReg) (va : VReg) (imm8 : Byte) : Statement (.xori vd va imm8) :=
  ⟨opOf_encI8 _ _ _ _, mask_encI8 _ _ _ _⟩

theorem addi (vd : VReg) (va : VReg) (imm8 : Byte) : Statement (.addi vd va imm8) :=
  ⟨opOf_encI8 _ _ _ _, mask_encI8 _ _ _ _⟩

theorem shli (vd : VReg) (va : VReg) (sh : ShiftAmt) : Statement (.shli vd va sh) :=
  ⟨opOf_encSH _ _ _ _, mask_encSH _ _ _ _⟩

theorem shri (vd : VReg) (va : VReg) (sh : ShiftAmt) : Statement (.shri vd va sh) :=
  ⟨opOf_encSH _ _ _ _, mask_encSH _ _ _ _⟩

theorem rng (vd : VReg) (va : VReg) (lo : Byte) (hi : Byte) : Statement (.rng vd va lo hi) :=
  ⟨opOf_encI16 _ _ _ _ _, mask_encI16 _ _ _ _ _⟩

theorem sel (vd : VReg) (vm : VReg) (va : VReg) (vb : VReg) : Statement (.sel vd vm va vb) :=
  ⟨opOf_encR4 _ _ _ _ _, mask_encR4 _ _ _ _ _⟩

theorem n2a (vd : VReg) (va : VReg) (c : CaseMode) : Statement (.n2a vd va c) :=
  ⟨opOf_encN _ _ _ _, mask_encN _ _ _ _⟩

theorem a2n (vd : VReg) (va : VReg) : Statement (.a2n vd va) :=
  ⟨opOf_encR2 _ _ _, mask_encR2 _ _ _⟩

theorem cmb (vd : VReg) (va : VReg) (vb : VReg) : Statement (.cmb vd va vb) :=
  ⟨opOf_encR3 _ _ _ _, mask_encR3 _ _ _ _⟩

theorem ilvlo (vd : VReg) (va : VReg) (vb : VReg) : Statement (.ilvlo vd va vb) :=
  ⟨opOf_encR3 _ _ _ _, mask_encR3 _ _ _ _⟩

theorem ilvhi (vd : VReg) (va : VReg) (vb : VReg) : Statement (.ilvhi vd va vb) :=
  ⟨opOf_encR3 _ _ _ _, mask_encR3 _ _ _ _⟩

theorem zipglo (vd : VReg) (va : VReg) (vb : VReg) : Statement (.zipglo vd va vb) :=
  ⟨opOf_encR3 _ _ _ _, mask_encR3 _ _ _ _⟩

theorem zipghi (vd : VReg) (va : VReg) (vb : VReg) : Statement (.zipghi vd va vb) :=
  ⟨opOf_encR3 _ _ _ _, mask_encR3 _ _ _ _⟩

theorem enc (c : CaseMode) : Statement (.enc c) :=
  ⟨opOf_encXC _ _, mask_encXC _ _⟩

theorem dec : Statement .dec :=
  ⟨opOf_encX _, mask_encX _⟩

end Sys2Proof.Laws.EncodeMatchesFormat
end

