-- ==== Sys2Proof/Laws/Step.lean ====
section
/-! SUPPORT. Everything a command, a unit step, a host action and a step can do, once each; later proofs
about all commands or all steps split these cases. -/

namespace Sys2Proof.Machine

/-- A command ends in one of seven ways, each with a next state. -/
theorem exec_cases (i : Instr) (s : State) :
    exec i s = .next s ∨
    (∃ vd f, exec i s = .next (s.setV vd f)) ∨
    (∃ e a, e ≠ .none ∧ exec i s = .next (s.raise e (encode i) a)) ∨
    (∃ n vd f, exec i s = .next (((s.afterUnitRead s.src n).setV vd f).advanceSrc n)) ∨
    (∃ n vd f ve g,
      exec i s = .next ((((s.afterUnitRead s.src n).setV vd f).setV ve g).advanceSrc n)) ∨
    (∃ d, exec i s = .next ((s.writeMem s.dst d).advanceDst d.length)) ∨
    (∃ c, i = .enc c ∧ exec i s = .next (s.acceptMacro .enc c (encode i))) ∨
    (i = .dec ∧ s.cnt.toNat % 2 = 0 ∧ exec i s = .next (s.acceptMacro .dec .upper (encode i))) := by
  have reo : ∀ (i : Instr) p vd va vb, exec i s = reorder i p vd va vb s →
      (∃ vd f, exec i s = .next (s.setV vd f)) ∨
      (∃ e a, e ≠ ErrCode.none ∧ exec i s = .next (s.raise e (encode i) a)) := by
    intro i p vd va vb h
    rcases reorder_cases i p vd va vb s with ⟨-, h'⟩ | ⟨-, h'⟩
    · exact .inr ⟨.illegal, _, by decide, h.trans h'⟩
    · exact .inl ⟨_, _, h.trans h'⟩
  have sto : ∀ (i : Instr) d, exec i s = storeAtDst i d s →
      (∃ e a, e ≠ ErrCode.none ∧ exec i s = .next (s.raise e (encode i) a)) ∨
      (∃ d, exec i s = .next ((s.writeMem s.dst d).advanceDst d.length)) := by
    intro i d h
    rcases storeAtDst_cases i d s with ⟨-, h'⟩ | ⟨-, h'⟩
    · exact .inr ⟨_, h.trans h'⟩
    · exact .inl ⟨.memFault, _, by decide, h.trans h'⟩
  cases i
  case nop => exact .inl rfl
  case ld vd =>
    rcases loadAtSrc_cases (.ld vd) s.lanes (fun b t => t.setV vd fun i => b.getD i 0#8) s with
      ⟨-, h⟩ | ⟨-, h⟩
    · exact .inr (.inr (.inr (.inl ⟨_, _, _, h⟩)))
    · exact .inr (.inr (.inl ⟨.memFault, _, by decide, h⟩))
  case ldb vd =>
    rcases loadAtSrc_cases (.ldb vd) 1 (fun b t => t.setV vd fun i => b.getD i 0x00#8) s with
      ⟨-, h⟩ | ⟨-, h⟩
    · exact .inr (.inr (.inr (.inl ⟨_, _, _, h⟩)))
    · exact .inr (.inr (.inl ⟨.memFault, _, by decide, h⟩))
  case ld2 vd ve =>
    by_cases hd : vd = ve
    · exact .inr (.inr (.inl ⟨.illegal, 0#64, by decide, by simp [exec, execLd2, hd]⟩))
    · rcases loadAtSrc_cases (.ld2 vd ve) (2 * s.lanes)
        (fun b t => (t.setV vd fun i => b.getD (2 * i) 0#8).setV ve fun i => b.getD (2 * i + 1) 0#8) s
        with ⟨-, h⟩ | ⟨-, h⟩
      · exact .inr (.inr (.inr (.inr (.inl ⟨_, _, _, _, _, by simpa [exec, execLd2, hd] using h⟩))))
      · exact .inr (.inr (.inl ⟨.memFault, _, by decide, by simpa [exec, execLd2, hd] using h⟩))
  case st va => rcases sto (.st va) _ rfl with h | h <;> simp only [h, true_or, or_true]
  case stb va => rcases sto (.stb va) _ rfl with h | h <;> simp only [h, true_or, or_true]
  case ilvlo vd va vb =>
    rcases reo (.ilvlo vd va vb) (fun s => interleaveLane s.group 0) vd va vb rfl with h | h <;>
      simp only [h, true_or, or_true]
  case ilvhi vd va vb =>
    rcases reo (.ilvhi vd va vb) (fun s => interleaveLane s.group (s.group / 2)) vd va vb rfl with h | h <;>
      simp only [h, true_or, or_true]
  case zipglo vd va vb =>
    rcases reo (.zipglo vd va vb) (fun s => zipGroupLane s.group 0) vd va vb rfl with h | h <;>
      simp only [h, true_or, or_true]
  case zipghi vd va vb =>
    rcases reo (.zipghi vd va vb) (fun s => zipGroupLane s.group s.groups) vd va vb rfl with h | h <;>
      simp only [h, true_or, or_true]
  case enc c => exact .inr (.inr (.inr (.inr (.inr (.inr (.inl ⟨c, rfl, rfl⟩))))))
  case dec =>
    by_cases h : s.cnt.toNat % 2 = 1
    · exact .inr (.inr (.inl ⟨.oddLen, 0#64, by decide, by simp [exec, execDec, h]⟩))
    · exact .inr (.inr (.inr (.inr (.inr (.inr (.inr ⟨rfl, by omega, by simp [exec, execDec, h]⟩))))))
  all_goals exact .inr (.inl ⟨_, _, rfl⟩)

/-- Every command answers a next state. -/
theorem exec_next (i : Instr) (s : State) : ∃ t, exec i s = .next t := by
  rcases exec_cases i s with h | ⟨_, _, h⟩ | ⟨_, _, _, h⟩ | ⟨_, _, _, h⟩ | ⟨_, _, _, _, _, h⟩ | ⟨_, h⟩ |
    ⟨_, _, h⟩ | ⟨_, _, h⟩ <;> exact ⟨_, h⟩

/-- A unit step ends in one of four ways, by MSTATE and what is left to do. -/
theorem unitStep_cases (s : State) :
    (s.mstate = .idle ∧ unitStep s = .next s) ∨
    (∃ nIn nOut f, s.busy = true ∧ 0 < nIn ∧ nIn ≤ s.cnt.toNat ∧
      ((s.mstate = .bulk ∧ s.mop = .enc ∧ nIn = s.lanes ∧ nOut = 2 * s.lanes ∧ f = encBlock s.mcase) ∨
       (s.mstate = .tail ∧ s.mop = .enc ∧ nIn = 1 ∧ nOut = 2 ∧ f = encBlock s.mcase) ∨
       (s.mstate = .bulk ∧ s.mop = .dec ∧ nIn = 2 * s.lanes ∧ nOut = s.lanes ∧ f = decBlock) ∨
       (s.mstate = .tail ∧ s.mop = .dec ∧ nIn = 2 ∧ nOut = 1 ∧ f = decBlock)) ∧
      unitStep s = .next (moveBlock nIn nOut f s)) ∨
    (s.mstate = .bulk ∧ s.cnt.toNat < (match s.mop with | .enc => s.lanes | .dec => 2 * s.lanes) ∧
      unitStep s = .next s.toTail) ∨
    (s.mstate = .tail ∧ s.cnt.toNat = 0 ∧ unitStep s = .next s.finish) ∨
    (s.mstate = .tail ∧ s.mop = .dec ∧ s.cnt.toNat = 1 ∧ unitStep s = .fault .noUnitRule) := by
  have hl := s.lanes_pos
  have hb : s.mstate ≠ .idle → s.busy = true := by simp [State.busy]
  cases hm : s.mstate with
  | idle => exact .inl ⟨rfl, by cases ho : s.mop <;> simp [unitStep, encStep, decStep, hm, ho]⟩
  | bulk =>
    have hb := hb (by simp [hm])
    cases ho : s.mop with
    | enc =>
      by_cases hc : s.lanes ≤ s.cnt.toNat
      · exact .inr (.inl ⟨s.lanes, _, encBlock s.mcase, hb, hl, hc, .inl ⟨rfl, rfl, rfl, rfl, rfl⟩,
          by simp [unitStep, encStep, hm, ho, hc]⟩)
      · exact .inr (.inr (.inl ⟨rfl, by simpa using hc, by simp [unitStep, encStep, hm, ho, hc]⟩))
    | dec =>
      by_cases hc : 2 * s.lanes ≤ s.cnt.toNat
      · exact .inr (.inl ⟨2 * s.lanes, _, decBlock, hb, by omega, hc,
          .inr (.inr (.inl ⟨rfl, rfl, rfl, rfl, rfl⟩)), by simp [unitStep, decStep, hm, ho, hc]⟩)
      · exact .inr (.inr (.inl ⟨rfl, by simpa using hc, by simp [unitStep, decStep, hm, ho, hc]⟩))
  | tail =>
    have hb := hb (by simp [hm])
    cases ho : s.mop with
    | enc =>
      by_cases hc : 1 ≤ s.cnt.toNat
      · exact .inr (.inl ⟨1, 2, encBlock s.mcase, hb, by omega, hc, .inr (.inl ⟨rfl, rfl, rfl, rfl, rfl⟩),
          by simp only [unitStep, encStep, hm, ho, if_pos hc]⟩)
      · exact .inr (.inr (.inr (.inl ⟨rfl, by omega,
          by simp only [unitStep, encStep, hm, ho, if_neg hc]⟩)))
    | dec =>
      by_cases hc : 2 ≤ s.cnt.toNat
      · exact .inr (.inl ⟨2, 1, decBlock, hb, by omega, hc, .inr (.inr (.inr ⟨rfl, rfl, rfl, rfl, rfl⟩)),
          by simp only [unitStep, decStep, hm, ho, if_pos hc]⟩)
      · by_cases h0 : s.cnt.toNat = 0
        · exact .inr (.inr (.inr (.inl ⟨rfl, h0,
            by simp only [unitStep, decStep, hm, ho, if_neg hc, if_pos h0]⟩)))
        · exact .inr (.inr (.inr (.inr ⟨rfl, rfl, by omega,
            by simp only [unitStep, decStep, hm, ho, if_neg hc, if_neg h0]⟩)))

/-- A write to CMD is dropped, raises ILLEGAL, or carries out the decoded command. -/
theorem writeCmd_cases (v : Word64) (s : State) :
    ((s.busy = true ∨ s.err ≠ .none) ∧ writeCmd v s = .next s.dropWrite) ∨
    (s.busy = false ∧ s.err = .none ∧ decode s.inst.width (v.extractLsb' 0 32) = none ∧
      writeCmd v s = .next (s.raise .illegal (v.extractLsb' 0 32) 0#64)) ∨
    (∃ i, s.busy = false ∧ s.err = .none ∧ decode s.inst.width (v.extractLsb' 0 32) = some i ∧
      writeCmd v s = exec i s) := by
  unfold writeCmd
  by_cases h : s.busy = true ∨ s.err ≠ .none
  · exact .inl ⟨h, by rw [if_pos (by simpa using h)]⟩
  · have hb : s.busy = false := by simp at h; exact h.1
    have he : s.err = .none := by simp at h; exact h.2
    right
    rw [if_neg (by simpa using h)]
    rcases hd : decode s.inst.width (v.extractLsb' 0 32) with _ | i
    · exact .inl ⟨hb, he, rfl, rfl⟩
    · exact .inr ⟨i, hb, he, rfl, rfl⟩

/-- A write to the window, by the register it names. -/
theorem writeReg_cases (off : BitVec 8) (v : Word64) (s : State) :
    (off = 0x08#8 ∧ writeReg off v s = .next (s.writeStatus v)) ∨
    (off = 0x10#8 ∧ writeReg off v s = writeCmd v s) ∨
    (off = 0x18#8 ∧ writeReg off v s = .next (if s.busy then s.dropWrite else { s with src := v })) ∨
    (off = 0x20#8 ∧ writeReg off v s = .next (if s.busy then s.dropWrite else { s with dst := v })) ∨
    (off = 0x28#8 ∧ writeReg off v s = .next (if s.busy then s.dropWrite else { s with cnt := v })) ∨
    (writeReg off v s = .next s) := by
  have e : ∀ k : Nat, k < 256 → off.toNat = k → off = BitVec.ofNat 8 k := fun k _ h =>
    BitVec.eq_of_toNat_eq (by simp [h]; omega)
  unfold writeReg
  split
  · exact .inl ⟨e _ (by omega) ‹_›, rfl⟩
  · exact .inr (.inl ⟨e _ (by omega) ‹_›, rfl⟩)
  · exact .inr (.inr (.inl ⟨e _ (by omega) ‹_›, rfl⟩))
  · exact .inr (.inr (.inr (.inl ⟨e _ (by omega) ‹_›, rfl⟩)))
  · exact .inr (.inr (.inr (.inr (.inl ⟨e _ (by omega) ‹_›, rfl⟩))))
  · exact .inr (.inr (.inr (.inr (.inr rfl))))

/-- A step is a host step or a unit step on the state with the schedule's entry used up. -/
theorem step_cases (s : State) :
    (s.nextAgent = .host ∧ s.host = [] ∧ step s = .next s.popSched) ∨
    (∃ a rest, s.nextAgent = .host ∧ s.host = a :: rest ∧
      step s = hostAct a { s.popSched with host := rest }) ∨
    (s.nextAgent = .unit ∧ step s = unitStep s.popSched) := by
  unfold step
  rcases hn : s.nextAgent with _ | _
  · rcases hh : s.host with _ | ⟨a, rest⟩
    · exact .inl ⟨rfl, rfl, by simp [hostStep, hh]⟩
    · exact .inr (.inl ⟨a, rest, rfl, rfl, by simp [hostStep, hh]⟩)
  · exact .inr (.inr ⟨rfl, rfl⟩)

end Sys2Proof.Machine
end

