-- ==== Sys2Proof/Tests/Slice0.lean ====
section
/-! SUPPORT. The model's own tests. Expected values are those of spec/95_test_vectors.md (named at each
test) or worked out by hand from the rule named; none is the model's own answer. The `meets_`
theorems show, for every obligation with hypotheses, a state and operands that meet them together. -/

set_option maxRecDepth 20000

namespace Sys2Proof.Tests

open Sys2Proof Sys2Proof.Machine

/-! ## Helpers -/

/-- `n` bytes of a number, the most significant first. -/
def bytes (n w : Nat) : List Byte := (List.range n).map fun i => BitVec.ofNat 8 (w >>> (8 * (n - 1 - i)))

/-- An instance after reset, beside memory holding `data` from `base` on. -/
def start (W : Width) (base : Nat) (data : List Byte) (m : Mapper := .lut) : State :=
  State.resetOf { Instance.default with width := W, mapper := m }
    (Memory.writeBytes [] (BitVec.ofNat 64 base) data)

/-- `s` with the lanes of `r` written, missing ones 0. -/
def withReg (s : State) (r : VReg) (data : List Byte) : State := s.setV r fun i => data.getD i 0#8

/-- The state reached, or `d` where there is none. -/
def nextOf (o : Host.Outcome State Fault Refusal) (d : State) : State :=
  match o with
  | .next t => t
  | _ => d

/-- A next state is reached. -/
def isNext (o : Host.Outcome State Fault Refusal) : Bool :=
  match o with
  | .next _ => true
  | _ => false

theorem eq_next_of_isNext {o : Host.Outcome State Fault Refusal} (h : isNext o = true) (d : State) :
    o = .next (nextOf o d) := by
  cases o with
  | next t => rfl
  | fault f => cases h
  | refused r => cases h

/-- The first `n` lanes of `r` in the state reached. -/
def lanesAfter (o : Host.Outcome State Fault Refusal) (r : VReg) (n : Nat) : List Byte :=
  match o with
  | .next t => (t.lanesOf r).take n
  | _ => []

/-- A host access that is refused. -/
def isRefusedAccess (o : Host.Outcome State Fault Refusal) : Bool :=
  match o with
  | .refused .refusedHostAccess => true
  | _ => false

/-- One host write of a register. -/
def w (off : BitVec 8) (v : Word64) (s : State) : State := nextOf (hostAct (.regWrite off 8 v) s) s

/-- One unit step. -/
def u (s : State) : State := nextOf (unitStep s) s

/-! ## Well-formedness (R108) -/

theorem test_wf_refuses_ld2_of_one_register : Instr.wf .w8 (.ld2 3 3) = false := by decide

theorem test_wf_refuses_reorder_at_w1 :
    [Instr.ilvlo 0 1 2, .ilvhi 0 1 2, .zipglo 0 1 2, .zipghi 0 1 2].map (Instr.wf .w1)
      = [false, false, false, false] := by decide

theorem test_wf_accepts_the_same_forms_elsewhere :
    (Instr.wf .w1 (.ld2 3 4) && [Instr.ilvlo 0 1 2, .ilvhi 0 1 2, .zipglo 0 1 2, .zipghi 0 1 2].all
      (Instr.wf .w8)) = true := by decide

/-! ## Decoding: the words of V-ENC -/

/-- V-ENC, the left column of the table and the rest of its first half. -/
def words1 : List (CmdWord × Instr) :=
  [(0x04000000#32, .nop), (0x08000000#32, .ld 0), (0x0C100000#32, .ld2 0 1), (0x10500000#32, .st 5),
   (0x14800000#32, .ldb 1), (0x18200000#32, .stb 2), (0x1F800030#32, .splat 7 0x30#8),
   (0x20A60000#32, .and 1 2 3), (0x24A60000#32, .or 1 2 3), (0x28A60000#32, .xor 1 2 3),
   (0x2CA60000#32, .add 1 2 3), (0x30A60000#32, .sub 1 2 3), (0xC0000000#32, .enc .upper),
   (0xC0000001#32, .enc .lower), (0xC4000000#32, .dec)]

/-- V-ENC, the right column. -/
def words2 : List (CmdWord × Instr) :=
  [(0x4100000F#32, .andi 2 0 0x0F#8), (0x44900020#32, .ori 1 1 0x20#8),
   (0x489000FF#32, .xori 1 1 0xFF#8), (0x4C0000D0#32, .addi 0 0 0xD0#8), (0x50000004#32, .shli 0 0 4),
   (0x54800004#32, .shri 1 0 4), (0x60803930#32, .rng 1 0 0x30#8 0x39#8), (0x65A04000#32, .sel 3 1 2 0),
   (0x68900001#32, .n2a 1 1 .lower), (0x6C000000#32, .a2n 0 0), (0x71020000#32, .cmb 2 0 1),
   (0x81940000#32, .ilvlo 3 1 2), (0x86140000#32, .ilvhi 4 1 2), (0x8AB80000#32, .zipglo 5 3 4),
   (0x8F380000#32, .zipghi 6 3 4)]

theorem test_decode_of_the_spec_words :
    ∀ p ∈ words1 ++ words2, decode .w8 p.1 = some p.2 ∧ encode p.2 = p.1 := by decide

/-- SPLAT v7, 0x30 bit by bit from the layout SP of R103: OP 000111, D 111, [22:8] 0, IMM8 00110000. -/
theorem test_decode_splat_bit_by_bit :
    decode .w8 (0b000111#6 ++ 0b111#3 ++ 0#15 ++ 0b00110000#8) = some (.splat 7 0x30#8) := by decide

/-- RNG v1, v0, 0x30, 0x39 bit by bit from the layout I16: OP, D, A, [19:16] 0, HI, LO. -/
theorem test_decode_rng_bit_by_bit :
    decode .w8 (0b011000#6 ++ 0b001#3 ++ 0b000#3 ++ 0#4 ++ 0x39#8 ++ 0x30#8)
      = some (.rng 1 0 0x30#8 0x39#8) := by decide

/-- SEL v3, v1, v2, v0 bit by bit from the layout R4: OP, D = 3, A = 2, B = 0, M = 1, [13:0] 0. -/
theorem test_decode_sel_bit_by_bit :
    decode .w8 (0b011001#6 ++ 0b011#3 ++ 0b010#3 ++ 0b000#3 ++ 0b001#3 ++ 0#14)
      = some (.sel 3 1 2 0) := by decide

/-- V-ENC, the illegal words. -/
theorem test_decode_refuses_the_illegal_words :
    ([0x00000000#32, 0x34000000#32, 0xFC000000#32, 0x04000001#32, 0xC0000002#32, 0xC4000001#32,
      0x10D00000#32, 0x1F900030#32, 0x5480000C#32, 0x0C900000#32].all
        fun x => (decode .w8 x).isNone) = true ∧
    decode .w1 0x80000000#32 = none ∧ decode .w8 0x80000000#32 = some (.ilvlo 0 0 0) := by decide

theorem test_decodeTableWord_reads_dec : decodeTableWord 32 0xC4000000 = some .dec := by decide

/-! ## One step per command -/

/-- V-ALU-16: NOP does not clear DONE or DROP. -/
theorem test_nop_keeps_done_and_drop :
    isNext (execNop { start .w8 0 [] with done := true, drop := true }) = true ∧
    (nextOf (exec .nop { start .w8 0 [] with done := true, drop := true }) .reset).statusWord
      = 0x60#64 := by decide

/-- V-LS-1. -/
theorem test_ld :
    let o := exec (.ld 0) { start .w8 0x1000 (bytes 8 0x48656C6C6F2100FF) with src := 0x1000#64 }
    lanesAfter o 0 8 = bytes 8 0x48656C6C6F2100FF ∧ (nextOf o .reset).src = 0x1008#64 := by decide

/-- V-LS-6 and V-LS-7: a range that wraps faults, one that ends at 2^64 - 1 does not. -/
theorem test_ld_at_the_top_of_memory :
    let o := exec (.ld 0) { start .w8 0 [] with src := 0xFFFFFFFFFFFFFFFC#64 }
    let p := exec (.ld 0) { start .w8 0 [] with src := 0xFFFFFFFFFFFFFFF8#64 }
    (nextOf o .reset).err = .memFault ∧ (nextOf o .reset).errcmd = 0x08000000#32 ∧
    (nextOf o .reset).erraddr = 0xFFFFFFFFFFFFFFFC#64 ∧ (nextOf o .reset).src = 0xFFFFFFFFFFFFFFFC#64 ∧
    (nextOf p .reset).err = .none ∧ (nextOf p .reset).src = 0#64 := by decide

/-- V-LS-2. -/
theorem test_ld2 :
    let o := exec (.ld2 0 1)
      { start .w8 0x2000 (bytes 16 0x34383635366336633666323166663030) with src := 0x2000#64 }
    lanesAfter o 0 8 = bytes 8 0x3436363636326630 ∧ lanesAfter o 1 8 = bytes 8 0x3835636366316630 ∧
    (nextOf o .reset).src = 0x2010#64 := by decide

/-- V-LS-3. -/
theorem test_st :
    let t := nextOf (exec (.st 5)
      { withReg (start .w8 0 []) 5 (bytes 8 0x3438363536433643) with dst := 0x3000#64 }) .reset
    t.mem.readBytes 0x3000#64 8 = bytes 8 0x3438363536433643 ∧ t.mem.lookup 0x3008 = none ∧ t.dst = 0x3008#64 := by decide

/-- V-LS-8: a write that is not admitted moves nothing. -/
theorem test_st_not_admitted :
    let s := { withReg (start .w8 0 []) 5 (bytes 8 0x3438363536433643) with dst := 0x3000#64 }
    let t := nextOf (exec (.st 5) { s with inst := { s.inst with admits := [] } }) .reset
    t.err = .memFault ∧ t.erraddr = 0x3000#64 ∧ t.mem = [] ∧ t.dst = 0x3000#64 := by decide

/-- V-LS-4. -/
theorem test_ldb :
    let o := exec (.ldb 1)
      { withReg (start .w8 0x1004 [0x6F#8]) 1 (bytes 8 0x1111111111111111) with src := 0x1004#64 }
    lanesAfter o 1 8 = bytes 8 0x6F00000000000000 ∧ (nextOf o .reset).src = 0x1005#64 := by decide

/-- V-LS-5. -/
theorem test_stb :
    let t := nextOf (exec (.stb 1)
      { withReg (start .w8 0 []) 1 (bytes 8 0x3635343332313030) with dst := 0x3008#64 }) .reset
    t.mem = [(0x3008, 0x36#8)] ∧ t.dst = 0x3009#64 := by decide

/-- V-ALU-15. -/
theorem test_splat : lanesAfter (exec (.splat 7 0x30#8) (start .w8 0 [])) 7 8
    = bytes 8 0x3030303030303030 := by decide

/-- Two registers of W = 8 lanes. -/
def pair (a b : Nat) : State := withReg (withReg (start .w8 0 []) 1 (bytes 8 a)) 2 (bytes 8 b)

/-- V-ALU-1. -/
theorem test_and : lanesAfter (exec (.and 0 1 2) (pair 0xF300000000000000 0x0F00000000000000)) 0 1
    = [0x03#8] := by decide

/-- V-ALU-2. -/
theorem test_or : lanesAfter (exec (.or 0 1 2) (pair 0x4000000000000000 0x0800000000000000)) 0 1
    = [0x48#8] := by decide

/-- V-ALU-3. -/
theorem test_xor : lanesAfter (exec (.xor 0 1 2) (pair 0x4100000000000000 0x6100000000000000)) 0 1
    = [0x20#8] := by decide

/-- V-ALU-4. -/
theorem test_add_wraps_without_carry :
    lanesAfter (exec (.add 0 1 2) (pair 0xFF00000000000000 0x0100000000000000)) 0 2
      = [0x00#8, 0x00#8] := by decide

/-- V-ALU-5; the destination is also a source (R32). -/
theorem test_sub_wraps_without_borrow :
    lanesAfter (exec (.sub 2 1 2) (pair 0x0005000000000000 0x0100000000000000)) 2 2
      = [0xFF#8, 0x05#8] := by decide

/-- V-ALU-8. -/
theorem test_andi : lanesAfter (exec (.andi 2 1 0x0F#8) (pair 0x6C00000000000000 0)) 2 1
    = [0x0C#8] := by decide

/-- V-ALU-9. -/
theorem test_ori : lanesAfter (exec (.ori 1 1 0x20#8) (pair 0x4139000000000000 0)) 1 2
    = [0x61#8, 0x39#8] := by decide

/-- V-ALU-10. -/
theorem test_xori : lanesAfter (exec (.xori 1 1 0xFF#8) (pair 0x005A000000000000 0)) 1 2
    = [0xFF#8, 0xA5#8] := by decide

/-- V-ALU-7. -/
theorem test_addi : lanesAfter (exec (.addi 1 1 0xD0#8) (pair 0x3900000000000000 0)) 1 1
    = [0x09#8] := by decide

/-- V-ALU-11. -/
theorem test_shli : lanesAfter (exec (.shli 1 1 4) (pair 0x0C1CFF0000000000 0)) 1 3
    = [0xC0#8, 0xC0#8, 0xF0#8] := by decide

/-- V-ALU-14 and V-ALU-13. -/
theorem test_shli_stays_in_its_lane :
    lanesAfter (exec (.shli 0 1 7) (pair 0x8101000000000000 0)) 0 2 = [0x80#8, 0x80#8] ∧
    lanesAfter (exec (.shli 0 1 0) (pair 0x6C00000000000000 0)) 0 1 = [0x6C#8] := by decide

/-- V-ALU-12. -/
theorem test_shri : lanesAfter (exec (.shri 0 1 4) (pair 0x6CFF0F0000000000 0)) 0 3
    = [0x06#8, 0x0F#8, 0x00#8] := by decide

/-- V-RNG-1 and V-RNG-5. -/
theorem test_rng :
    let s := withReg (start .w16 0 []) 1 (bytes 10 0x002F3031393A7F8081FF)
    lanesAfter (exec (.rng 0 1 0x30#8 0x39#8) s) 0 10 = bytes 10 0x0000FFFFFF0000000000 ∧
    lanesAfter (exec (.rng 0 1 0x7F#8 0x81#8) s) 0 10 = bytes 10 0x000000000000FFFFFF00 := by decide

/-- V-RNG-2 and V-RNG-4. -/
theorem test_rng_point_and_empty :
    let s := withReg (start .w16 0 []) 1 (bytes 10 0x002F3031393A7F8081FF)
    lanesAfter (exec (.rng 0 1 0x80#8 0x80#8) s) 0 10 = bytes 10 0x00000000000000FF0000 ∧
    lanesAfter (exec (.rng 0 1 0x40#8 0x3F#8) s) 0 10 = bytes 10 0 := by decide

/-- V-RNG-6. -/
theorem test_swar :
    rngSwar 0x35FF807F3A39302F#64 0x30#8 0x39#8 = 0xFF00000000FFFF00#64 ∧
    swarGe 0x35FF807F3A39302F#64 (swarB 0x30#8) = 0x8080808080808000#64 ∧
    swarNorm 0x8080808080808000#64 = 0xFFFFFFFFFFFFFF00#64 ∧
    swarGe (swarB 0x39#8) 0x35FF807F3A39302F#64 = 0x8000000000808080#64 := by decide

/-- V-SEL-1 to V-SEL-3, in lanes 0 to 5. -/
theorem test_sel :
    lanesAfter (exec (.sel 3 4 1 2) (withReg (pair 0x41414141AB120000 0x30303030CD340000) 4
      (bytes 8 0xFF00FF000F000000))) 3 6 = bytes 6 0x41304130CB34 := by decide

/-- V-N2A-1 with both mappers, C = 0. -/
theorem test_n2a_upper :
    let f := fun m => exec (.n2a 0 1 .upper)
      (withReg (start .w16 0 [] m) 1 (bytes 16 0x000102030405060708090A0B0C0D0E0F))
    lanesAfter (f .lut) 0 16 = bytes 16 0x30313233343536373839414243444546 ∧
    lanesAfter (f .arith) 0 16 = bytes 16 0x30313233343536373839414243444546 := by decide

/-- V-N2A-1 with C = 1, and V-N2A-2: the high bits are ignored. -/
theorem test_n2a_lower_and_high_bits :
    lanesAfter (exec (.n2a 0 1 .lower) (withReg (start .w16 0 [] .arith) 1
      (bytes 16 0x000102030405060708090A0B0C0D0E0F))) 0 16
        = bytes 16 0x30313233343536373839616263646566 ∧
    lanesAfter (exec (.n2a 0 1 .upper) (pair 0x1AFAF09F00000000 0)) 0 4 = bytes 4 0x41413046 := by decide

/-- V-A2N-1 and V-A2N-2. -/
theorem test_a2n :
    lanesAfter (exec (.a2n 0 1) (withReg (start .w32 0 []) 1
      (bytes 19 0x002F30393A404146475A606166677F80B0FFE1))) 0 19
        = bytes 19 0x000000090000_0A0F000000_0A0F_000000000000 := by decide

/-- V-CMB. -/
theorem test_cmb : lanesAfter (exec (.cmb 0 1 2) (pair 0x0A1F01F000000000 0x0B03200F00000000)) 0 4
    = bytes 4 0xABF3300F := by decide

/-- V-REO-1. -/
theorem test_reorder_w8 :
    let s := pair 0xA0A1A2A3A4A5A6A7 0xB0B1B2B3B4B5B6B7
    lanesAfter (exec (.ilvlo 0 1 2) s) 0 8 = bytes 8 0xA0B0A1B1A2B2A3B3 ∧
    lanesAfter (exec (.ilvhi 0 1 2) s) 0 8 = bytes 8 0xA4B4A5B5A6B6A7B7 ∧
    lanesAfter (exec (.zipglo 0 1 2) s) 0 8 = bytes 8 0xA0A1A2A3A4A5A6A7 ∧
    lanesAfter (exec (.zipghi 0 1 2) s) 0 8 = bytes 8 0xB0B1B2B3B4B5B6B7 := by decide

/-- V-REO-2, the interleaves: n = 2 groups of 16. -/
theorem test_interleave_w32 :
    let s := withReg (withReg (start .w32 0 []) 1
      (bytes 32 0x3030303030303030303030303030303031313131313131313131313131313131)) 2
      (bytes 32 0x3031323334353637383961626364656630313233343536373839616263646566)
    lanesAfter (exec (.ilvlo 3 1 2) s) 3 32
      = bytes 32 0x3030303130323033303430353036303731303131313231333134313531363137 ∧
    lanesAfter (exec (.ilvhi 4 1 2) s) 4 32
      = bytes 32 0x3038303930613062306330643065306631383139316131623163316431653166 := by decide

/-- V-REO-2, the permutation. -/
theorem test_zip_w32 :
    let s := withReg (withReg (start .w32 0 []) 3
      (bytes 32 0x3030303130323033303430353036303731303131313231333134313531363137)) 4
      (bytes 32 0x3038303930613062306330643065306631383139316131623163316431653166)
    lanesAfter (exec (.zipglo 5 3 4) s) 5 32
      = bytes 32 0x3030303130323033303430353036303730383039306130623063306430653066 ∧
    lanesAfter (exec (.zipghi 6 3 4) s) 6 32
      = bytes 32 0x3130313131323133313431353136313731383139316131623163316431653166 := by decide

/-- V-FSM-3: ENC lower accepted with CNT 19 at W = 8. -/
theorem test_enc_accepted :
    (nextOf (exec (.enc .lower) { start .w8 0 [] with cnt := 19#64 }) .reset).statusWord = 0x13#64 := by
  decide

/-- S4: DEC with an odd length. -/
theorem test_dec_odd_length :
    let t := nextOf (exec .dec { start .w8 0x4000 [0x55#8] with
      src := 0x2000#64, dst := 0x4000#64, cnt := 3#64 }) .reset
    t.statusWord = 0x200#64 ∧ t.errcmd = 0xC4000000#32 ∧ t.erraddr = 0#64 ∧ t.cnt = 3#64 ∧
    t.mem = [(0x4000, 0x55#8)] := by decide

/-- P4: DEC accepted. -/
theorem test_dec_accepted :
    (nextOf (exec .dec { start .w8 0 [] with cnt := 2#64 }) .reset).statusWord = 0x0B#64 := by decide

/-! ## Unit steps -/

/-- P7 step 1: one BULK block at W = 8. -/
theorem test_unit_encode_block :
    let s := nextOf (exec (.enc .upper) { start .w8 0x1000 (bytes 8 0x0001020304050607) with
      src := 0x1000#64, dst := 0x3000#64, cnt := 20#64 }) .reset
    (u s).mem.readBytes 0x3000#64 16 = bytes 16 0x30303031303230333034303530363037 ∧
    (u s).src = 0x1008#64 ∧ (u s).dst = 0x3010#64 ∧ (u s).cnt = 12#64 := by decide

/-- P7 step 2: the write range is not admitted, and the run ends. -/
theorem test_unit_abort :
    let s := start .w8 0x1000 (bytes 8 0x0001020304050607)
    let s1 := nextOf (exec (.enc .upper) { s with
      inst := { s.inst with admits := [⟨.rd, 0x1000, 0x1100, 1, 128⟩, ⟨.wr, 0x3000, 0x3018, 1, 128⟩] }
      src := 0x1008#64, dst := 0x3010#64, cnt := 12#64 }) .reset
    (u s1).statusWord = 0x300#64 ∧ (u s1).errcmd = 0xC0000000#32 ∧ (u s1).erraddr = 0x3010#64 ∧
    (u s1).cnt = 12#64 ∧ (u s1).mem = s.mem := by decide

/-- V-DEC-2, first pair of a TAIL: "0g" gives 00, "9G" gives 90. -/
theorem test_unit_decode_pair :
    let s := { nextOf (exec .dec { start .w8 0x2000 (bytes 4 0x30673947) with
      src := 0x2002#64, dst := 0x4000#64, cnt := 2#64 }) .reset with mstate := .tail }
    (u s).mem.read 0x4000 = 0x90#8 ∧ (u s).cnt = 0#64 ∧ (u s).mstate = .tail ∧
    (u (u s)).statusWord = 0x28#64 := by decide

/-! ## Memory -/

/-- R70, R81: a written byte reads as written, 0x00 included, and is listed once; nothing else is. -/
theorem test_memory_lists_what_was_written :
    Memory.write (Memory.write [(7, 0x11#8)] 5 0x22#8) 7 0x00#8 = [(5, 0x22#8), (7, 0x00#8)] ∧
    Memory.read [(5, 0x22#8), (7, 0x00#8)] 7 = 0x00#8 ∧
    Memory.lookup [(5, 0x22#8), (7, 0x00#8)] 6 = none := by decide

/-- R70: after reset every byte is the platform's, which is not known to be zero. -/
theorem test_reset_memory_is_the_platforms (a : Nat) :
    State.reset.mem.read a = Config.platformByte a := rfl

/-! ## The host port -/

/-- V-ERR-2 and V-ERR-3: dropped with an error recorded; ERRCLR and DROP cleared. -/
theorem test_error_hazard_and_clear :
    let s := (start .w8 0 []).raise .oddLen 0xC4000000#32 0#64
    let t := w 0x10#8 0x04000000#64 s
    t.statusWord = 0x240#64 ∧ t.errcmd = 0xC4000000#32 ∧
    (w 0x08#8 0xC0#64 t).statusWord = 0#64 ∧ (w 0x08#8 0xC0#64 t).errcmd = 0#32 := by decide

/-- V-ERR-1 and the illegal word 0x10D00000. -/
theorem test_illegal_word :
    (w 0x10#8 0#64 (start .w8 0 [])).statusWord = 0x100#64 ∧
    (w 0x10#8 0x10D00000#64 (start .w8 0 [])).errcmd = 0x10D00000#32 := by decide

/-- V-ERR-5 and V-ERR-7. -/
theorem test_cursor_writes :
    let s := nextOf (exec (.enc .upper) { start .w8 0 [] with src := 0x1000#64, cnt := 9#64 }) .reset
    (w 0x18#8 0x5000#64 s).src = 0x1000#64 ∧ (w 0x18#8 0x5000#64 s).drop = true ∧
    (w 0x28#8 4#64 ((start .w8 0 []).raise .illegal 0#32 0#64)).cnt = 4#64 := by decide

/-- V-ERR-9: a 4-byte write of STATUS. -/
theorem test_narrow_access_is_refused :
    isRefusedAccess (hostAct (.regWrite 0x08#8 4 0#64) (start .w8 0 [])) = true := by decide

/-- V-RST-1: ID after reset, and every other register 0. -/
theorem test_reset_registers :
    (start .w32 0 []).readReg 0x00#8 = 0x0000000001181020#64 ∧
    (start .w8 0 [] .arith).readReg 0x00#8 = 0x0000000001080808#64 ∧
    (start .w1 0 []).readReg 0x00#8 = 0x0000000001180101#64 ∧
    ∀ off ∈ [0x08#8, 0x10#8, 0x18#8, 0x20#8, 0x28#8, 0x30#8, 0x38#8, 0x40#8],
      (start .w32 0 []).readReg off = 0#64 := by decide

/-- V-RST-3: reset in the middle of ENC keeps memory. -/
theorem test_reset_keeps_memory :
    let s := nextOf (exec (.enc .upper) { start .w16 0x3000 (bytes 4 0x34383635) with
      cnt := 3#64, src := 0x1002#64, dst := 0x3004#64 }) .reset
    let t := nextOf (hostAct .reset s) .reset
    t.statusWord = 0#64 ∧ t.src = 0#64 ∧ t.dst = 0#64 ∧ t.cnt = 0#64 ∧ t.mem = s.mem := by decide

/-- A word that withFetchWord places is the one the next step runs, also while a macro runs. -/
theorem test_withFetchWord :
    lanesAfter (step (State.reset.withFetchWord 32 0x1F800030)) 7 8 = bytes 8 0x3030303030303030 ∧
    lanesAfter (step ((nextOf (exec (.enc .upper) .reset) .reset).withFetchWord 32 0x1F800030)) 7 8
      = bytes 8 0x3030303030303030 := by decide

/-! ## The hypotheses of the obligations can be met -/

/-- IDLE, with 20 bytes at 0x1000, SRC there, DST 0x3000 and CNT `n`. -/
def idle (W : Width) (n : Nat) : State :=
  { start W 0x1000 (bytes 20 0x4865) with
    src := 0x1000#64, dst := 0x3000#64, cnt := BitVec.ofNat 64 n }

/-- An ENC run in BULK. -/
def encoding (W : Width) (n : Nat) : State := nextOf (exec (.enc .lower) (idle W n)) .reset

/-- A DEC run in BULK. -/
def decoding (W : Width) (n : Nat) : State := nextOf (exec .dec (idle W n)) .reset

/-- An instance whose platform admits no access. -/
def closed (s : State) : State := { s with inst := { s.inst with admits := [] } }

/-- An instance whose platform admits reads only. -/
def readOnly (s : State) : State :=
  { s with inst := { s.inst with admits := [⟨.rd, 0, 2 ^ 64, 1, 128⟩] } }

/-- A state with an error recorded. -/
def failed : State := (idle .w8 20).raise .memFault 0x08000000#32 0x1000#64

theorem meets_ResetMeetsTheInvariant :
    Memory.wf [(0, 0x01#8), (2 ^ 64 - 1, 0xFF#8)] = true := by decide

/-- The other clauses: the unit moves, the host moves with and without an action, by the schedule and
without one. -/
theorem meets_StepRunsTheDecodedCommand_agents :
    (encoding .w8 19).nextAgent = .unit ∧ (encoding .w8 19).sched = [] ∧
    ({ idle .w8 19 with host := [.memRead 0x1000#64 4, .reset] }).nextAgent = .host ∧
    (idle .w8 19).nextAgent = .host ∧ (idle .w8 19).host = [] ∧
    ({ encoding .w8 19 with sched := [.host] }).nextAgent = .host := by decide

theorem meets_StepRunsTheDecodedCommand :
    ∃ (s : State) (v : Word64) (rest : List HostAction) (i : Instr),
      s.nextAgent = .host ∧ s.host = .regWrite 0x10#8 8 v :: rest ∧ s.busy = false ∧ s.err = .none ∧
      decode s.inst.width (v.extractLsb' 0 32) = some i :=
  ⟨{ idle .w8 20 with host := [.regWrite 0x10#8 8 0x1F800030#64, .wait] }, 0x1F800030#64, [.wait],
    .splat 7 0x30#8, by decide⟩

/-- The first clause through BUSY and through an error, the second at its first and last offset. -/
theorem meets_DroppedWritesOnlySetDrop :
    (encoding .w8 19).busy = true ∧ failed.err ≠ .none ∧ failed.busy = false ∧
    0x18#8 ∈ [0x18#8, 0x20#8, 0x28#8] ∧ 0x28#8 ∈ [0x18#8, 0x20#8, 0x28#8] := by decide

/-- The third clause: a STATUS write that clears all but DROP, and a unit step. -/
theorem meets_DroppedWritesOnlySetDrop_kept :
    (∃ s t a rest, step s = .next t ∧ s.drop = true ∧ s.nextAgent = .host ∧ s.host = a :: rest ∧
      a ≠ HostAction.reset ∧ ∀ v, a = .regWrite 0x08#8 8 v → v.getLsbD 6 = false) ∧
    (∃ s t, step s = .next t ∧ s.drop = true ∧ s.nextAgent = .unit) := by
  refine ⟨⟨{ failed with drop := true, host := [.regWrite 0x08#8 8 0xA0#64] }, _, _, [],
      eq_next_of_isNext (by decide) .reset, by decide, by decide, rfl, by decide, ?_⟩,
    ⟨{ encoding .w8 19 with drop := true }, _, eq_next_of_isNext (by decide) .reset, by decide⟩⟩
  intro v h
  injection h with _ _ h
  subst h
  decide

theorem meets_CursorWritesByBusy :
    (encoding .w8 19).busy = true ∧ (idle .w8 19).busy = false := by decide

theorem meets_StatusWriteDoesExactlyThis :
    (0x80#64).getLsbD 7 = true ∧ failed.busy = false ∧
    decode failed.inst.width ((0x04000000#64).extractLsb' 0 32) = some .nop := by decide

theorem meets_IdReadsTheInstance :
    (start .w32 0 []).inst.width = .w32 ∧ (start .w32 0 []).inst.mapper = .lut ∧
    ∃ t, hostAct .reset (idle .w8 19) = .next t :=
  ⟨by decide, by decide, _, eq_next_of_isNext (by decide) .reset⟩

theorem meets_ReservedOffsetsReadZero :
    (0x40 ≤ (0x40#8).toNat ∧ (0x40#8).toNat % 8 = 0) ∧
    (0x40 ≤ (0xF8#8).toNat ∧ (0xF8#8).toNat % 8 = 0) := by decide

theorem meets_RegisterMapReadsAndReadOnlyWrites :
    0x00#8 ∈ [0x00#8, 0x30#8, 0x38#8] ∧ 0x38#8 ∈ [0x00#8, 0x30#8, 0x38#8] := by decide

theorem meets_UnalignedWindowAccessIsRefused :
    ((4 ≠ 8 ∨ (0x08#8).toNat % 8 ≠ 0) ∧ (8 ≠ 8 ∨ (0x09#8).toNat % 8 ≠ 0)) ∧
    (8 ≠ 8 ∨ (0xFF#8).toNat % 8 ≠ 0) := by decide

/-- Accesses that end right below the window and begin right above it; the first and the last byte of a
running macro's destination; a byte a racing write hit. -/
theorem meets_HostMemoryAccessesAndRaces :
    overlapsWindow (idle .w8 19).inst 0xEFFFFFFFFFFFFFF0#64 16 = false ∧
    overlapsWindow (idle .w8 19).inst 0xF000000000000100#64 16 = false ∧
    (idle .w8 19).inRunningBuffers (0xEFFFFFFFFFFFFFF0#64 + BitVec.ofNat 64 15) = false ∧
    [0x11#8, 0x22#8].length ≤ 2 ^ 64 ∧
    overlapsWindow (encoding .w8 19).inst 0x3000#64 [0x11#8, 0x22#8].length = false ∧
    (encoding .w8 19).inRunningBuffers (0x3000#64 + BitVec.ofNat 64 0) = true ∧
    (encoding .w8 19).inRunningBuffers 0x3025#64 = true ∧
    (encoding .w8 19).inRunningBuffers 0x3026#64 = false ∧
    (0x3000#64).toNat ∈ (nextOf (hostAct (.memWrite 0x3000#64 [0x11#8]) (encoding .w8 19)) .reset).race.bytes
      := by decide

/-- The last clause: a state with a noted byte, and a step from it. -/
theorem meets_HostMemoryAccessesAndRaces_kept :
    ∃ s t : State, step s = .next t ∧ 0x3000 ∈ s.race.bytes :=
  ⟨nextOf (hostAct (.memWrite 0x3000#64 [0x11#8]) (encoding .w8 19)) .reset, _,
    eq_next_of_isNext (by decide) .reset, by decide⟩

theorem meets_IllegalWordsOnlyRecordTheError :
    (idle .w8 19).busy = false ∧ (idle .w8 19).err = .none ∧
    legalWord (idle .w8 19).inst.width ((0#64).extractLsb' 0 32) = false ∧
    legalWord (idle .w8 19).inst.width ((0x0C900000#64).extractLsb' 0 32) = false ∧
    legalWord (idle .w1 19).inst.width ((0x8C000000#64).extractLsb' 0 32) = false := by decide

theorem meets_DecodeOfEncodeIsTheCommand :
    Instr.wf .w1 (.ld2 0 7) = true ∧ Instr.wf .w8 (.zipghi 7 7 7) = true := by decide

theorem meets_EncodeOfDecodeIsTheWord :
    decode .w64 0x8F380000#32 = some (.zipghi 6 3 4) := by decide

theorem meets_OperandConstraintsRaiseIllegal :
    (idle .w1 19).inst.width = .w1 ∧
    Instr.zipghi 0 1 2 ∈ [Instr.ilvlo 0 1 2, .ilvhi 0 1 2, .zipglo 0 1 2, .zipghi 0 1 2] ∧
    (idle .w8 19).inst.width ≠ .w1 := by decide

theorem meets_NopChangesNothing :
    (idle .w8 19).busy = false ∧ (idle .w8 19).err = .none ∧
    (0x04000001#32).extractLsb' 26 6 = 0x01#6 ∧ (0x04000001#32).extractLsb' 0 26 ≠ 0#26 ∧
    (0x06000000#32).extractLsb' 26 6 = 0x01#6 ∧ (0x06000000#32).extractLsb' 0 26 ≠ 0#26 ∧
    (encoding .w8 19).busy = true ∧ failed.err ≠ .none := by decide

/-- A lane of each kind of mask, and an RNG that completes. -/
theorem meets_SelOnAMaskSelectsLanes :
    (∃ s : State, ∀ i, i < s.lanes → s.lane 4 i = 0x00#8 ∨ s.lane 4 i = 0xFF#8) ∧
    ∃ t, exec (.rng 0 1 0x30#8 0x39#8) (pair 0x303A 0) = .next t :=
  ⟨⟨withReg (start .w8 0 []) 4 (bytes 8 0xFF00FF0000FF00FF), by decide⟩,
    _, eq_next_of_isNext (by decide) .reset⟩

theorem meets_MapperChangesNoResult :
    (∃ t, exec (.n2a 0 1 .lower) (pair 0x0A0B 0) = .next t) ∧
    ∃ t, unitStep (encoding .w8 19) = .next t :=
  ⟨⟨_, eq_next_of_isNext (by decide) .reset⟩, _, eq_next_of_isNext (by decide) .reset⟩

theorem meets_NibbleRoundTrip :
    (0x30#8 ≤ 0x39#8 ∧ 0x39#8 ≤ 0x39#8) ∧ (0x41#8 ≤ 0x46#8 ∧ 0x46#8 ≤ 0x46#8) ∧
    (0x61#8 ≤ 0x66#8 ∧ 0x66#8 ≤ 0x66#8) := by decide

theorem meets_SwarEqualsTheRangeMask : 0 < 8 ∧ 7 < 8 := by decide

/-- The last group and the last pair of a group. -/
theorem meets_InterleaveWithinGroups :
    (idle .w64 0).inst.width ≠ .w1 ∧ 3 < (idle .w64 0).groups ∧ 7 < (idle .w64 0).group / 2 := by decide

theorem meets_ZipPermutesGroups :
    (idle .w64 0).inst.width ≠ .w1 ∧ 3 < (idle .w64 0).groups ∧ 15 < (idle .w64 0).group := by decide

theorem meets_ReorderedRegistersHoldTheHexText :
    (idle .w64 0).inst.width ≠ .w1 ∧ 63 < (idle .w64 0).lanes := by decide

/-- Ranges that end at 2^64 - 1. -/
theorem meets_LoadsFillLanesAndAdvanceSrc :
    admitted (idle .w8 0).inst .rd 0xFFFFFFFFFFFFFFF8#64 (idle .w8 0).lanes = true ∧
    admitted (idle .w8 0).inst .rd 0xFFFFFFFFFFFFFFFF#64 1 = true ∧
    (0xFFFFFFFFFFFFFFF8#64).toNat ∉ (idle .w8 0).race.bytes ∧
    admitted (idle .w8 0).inst .rd (idle .w8 0).src (idle .w8 0).lanes = true ∧
    admitted (idle .w8 0).inst .rd (idle .w8 0).src 1 = true ∧ 7 < (idle .w8 0).lanes := by decide

theorem meets_Ld2Deinterleaves :
    (0 : VReg) ≠ 7 ∧
    admitted (idle .w64 0).inst .rd (idle .w64 0).src (2 * (idle .w64 0).lanes) = true ∧
    63 < (idle .w64 0).lanes ∧
    ((idle .w64 0).src + BitVec.ofNat 64 127).toNat ∉ (idle .w64 0).race.bytes := by decide

theorem meets_StoresWriteLanesAndAdvanceDst :
    admitted (idle .w8 0).inst .wr (idle .w8 0).dst (idle .w8 0).lanes = true ∧
    admitted (idle .w8 0).inst .wr (idle .w8 0).dst 1 = true ∧ 7 < (idle .w8 0).lanes := by decide

/-- No rule of the platform, and a range that wraps by one byte. -/
theorem meets_UnadmittedAccessOnlyRecordsMemFault :
    let s := closed (idle .w8 0)
    admitted s.inst .rd s.src s.lanes = false ∧ admitted s.inst .rd s.src (2 * s.lanes) = false ∧
    admitted s.inst .rd s.src 1 = false ∧ admitted s.inst .wr s.dst s.lanes = false ∧
    admitted s.inst .wr s.dst 1 = false ∧ (1 : VReg) ≠ 2 ∧
    2 ^ 64 < (0xFFFFFFFFFFFFFFFF#64).toNat + 2 := by decide

theorem meets_CursorWrapsOnlyToZero :
    admitted (idle .w8 0).inst .wr 0xFFFFFFFFFFFFFFF8#64 8 = true ∧
    admitted (idle .w8 0).inst .wr 0xFFFFFFFFFFFFFFF8#64 7 = true := by decide

theorem meets_WindowIsNeverAdmitted :
    admitted (idle .w8 0).inst .rd 0xEFFFFFFFFFFFFFF8#64 8 = true ∧ 7 < 8 ∧
    admitted (idle .w8 0).inst .rd 0xF000000000000100#64 8 = true := by decide

theorem meets_MicroOpsNeverTouchCnt :
    Instr.isMacro (.ld 0) = false ∧ ∃ t, exec (.ld 0) (idle .w8 7) = .next t :=
  ⟨by decide, _, eq_next_of_isNext (by decide) .reset⟩

theorem meets_DecIsAcceptedOrOddLength :
    (idle .w8 1).cnt.toNat % 2 = 1 ∧ (idle .w8 0).cnt.toNat % 2 = 0 ∧
    (idle .w8 (2 ^ 64 - 2)).cnt.toNat % 2 = 0 := by decide

/-- The invariant in BULK, in the middle of an ENC run. -/
theorem inv_encoding : (u (encoding .w8 19)).Inv :=
  ⟨by decide, by decide, by decide, by decide, by decide, by decide, by decide, by decide, by decide,
    by decide, by decide, by decide, by decide⟩

/-- The invariant in TAIL, in the middle of a DEC run. -/
theorem inv_decoding : (u (u (decoding .w8 4))).Inv :=
  ⟨by decide, by decide, by decide, by decide, by decide, by decide, by decide, by decide, by decide,
    by decide, by decide, by decide, by decide⟩

/-- The invariant with an error recorded. -/
theorem inv_failed : failed.Inv :=
  ⟨by decide, by decide, by decide, by decide, by decide, by decide, by decide, by decide, by decide,
    by decide, by decide, by decide, by decide⟩

theorem meets_UnitStepsExactlyWhenNotIdle :
    (idle .w8 19).mstate = .idle ∧ (∃ s : State, s.Inv ∧ s.mstate = .bulk) ∧
    ∃ s : State, s.Inv ∧ s.mstate = .tail :=
  ⟨by decide, ⟨_, inv_encoding, by decide⟩, _, inv_decoding, by decide⟩

theorem meets_UnitStepsIgnoreLanesAndData : ∃ t, unitStep (encoding .w8 19) = .next t :=
  ⟨_, eq_next_of_isNext (by decide) .reset⟩

/-- `s` after a racing host write to the byte at `a`. -/
def raced (a : Addr) (s : State) : State := nextOf (hostAct (.memWrite a [0x11#8]) s) .reset

/-- A raced ENC step: the run is tainted and a byte of the block is noted, the next one is not. -/
theorem meets_EncodeStepWritesItsHexText_raced :
    let s := raced 0x1000#64 (encoding .w8 8)
    s.race.tainted = true ∧ s.race.bytes = [0x1000] ∧ s.mop = .enc ∧ s.mstate = .bulk ∧
    s.lanes ≤ s.cnt.toNat ∧ admitted s.inst .rd s.src s.lanes = true ∧
    admitted s.inst .wr s.dst (2 * s.lanes) = true := by decide

/-- BULK with exactly a block left, and TAIL with one byte. -/
theorem meets_EncodeStepWritesItsHexText :
    let s := encoding .w8 8
    let t := u (encoding .w8 1)
    (s.race.tainted = false ∧ (∀ j, j < 8 → (s.src + BitVec.ofNat 64 j).toNat ∉ s.race.bytes) ∧ s.mop = .enc ∧ s.mstate = .bulk ∧
      s.lanes ≤ s.cnt.toNat ∧ admitted s.inst .rd s.src s.lanes = true ∧
      admitted s.inst .wr s.dst (2 * s.lanes) = true) ∧
    (t.race.tainted = false ∧ t.src.toNat ∉ t.race.bytes ∧ t.mop = .enc ∧ t.mstate = .tail ∧
      1 ≤ t.cnt.toNat ∧ admitted t.inst .rd t.src 1 = true ∧
      admitted t.inst .wr t.dst (2 * 1) = true) := by decide

theorem meets_DecodeStepWritesItsBytes :
    let s := decoding .w8 16
    let t := u (decoding .w8 2)
    (s.race.tainted = false ∧ (∀ j, j < 8 → (s.src + BitVec.ofNat 64 j).toNat ∉ s.race.bytes) ∧ s.mop = .dec ∧ s.mstate = .bulk ∧
      2 * s.lanes ≤ s.cnt.toNat ∧ admitted s.inst .rd s.src (2 * s.lanes) = true ∧
      admitted s.inst .wr s.dst s.lanes = true) ∧
    (t.race.tainted = false ∧ t.src.toNat ∉ t.race.bytes ∧ t.mop = .dec ∧ t.mstate = .tail ∧
      2 * 1 ≤ t.cnt.toNat ∧ admitted t.inst .rd t.src (2 * 1) = true ∧
      admitted t.inst .wr t.dst 1 = true) := by decide

/-- One short of a block in BULK, and nothing left in TAIL. -/
theorem meets_TransitionStepsOnlyMoveOn :
    let s := encoding .w8 7
    let d := decoding .w8 14
    let e := u (encoding .w8 0)
    let f := u (decoding .w8 0)
    (s.mop = .enc ∧ s.mstate = .bulk ∧ s.cnt.toNat < s.lanes) ∧
    (d.mop = .dec ∧ d.mstate = .bulk ∧ d.cnt.toNat < 2 * d.lanes) ∧
    (e.mop = .enc ∧ e.mstate = .tail ∧ e.cnt = 0#64) ∧
    (f.mop = .dec ∧ f.mstate = .tail ∧ f.cnt = 0#64) ∧ isNext (unitStep f) = true := by decide

/-- The four steps, each with its read range refused and with only its write range refused. -/
theorem meets_UnadmittedBlockAborts :
    ∀ p ∈ [(encoding .w8 8, 8, 16), (u (encoding .w8 1), 1, 2), (decoding .w8 16, 16, 8),
        (u (decoding .w8 2), 2, 1)],
      p.2.1 ≤ p.1.cnt.toNat ∧ admitted (closed p.1).inst .rd p.1.src p.2.1 = false ∧
      admitted (readOnly p.1).inst .rd p.1.src p.2.1 = true ∧
      admitted (readOnly p.1).inst .wr p.1.dst p.2.2 = false := by decide

theorem meets_UnadmittedBlockAborts_states :
    let e := encoding .w8 8
    let f := u (encoding .w8 1)
    let g := decoding .w8 16
    let h := u (decoding .w8 2)
    (e.mop = .enc ∧ e.mstate = .bulk ∧ 8 = e.lanes ∧ 16 = 2 * e.lanes) ∧
    (f.mop = .enc ∧ f.mstate = .tail) ∧
    (g.mop = .dec ∧ g.mstate = .bulk ∧ 16 = 2 * g.lanes ∧ 8 = g.lanes) ∧
    (h.mop = .dec ∧ h.mstate = .tail) := by decide

theorem meets_MacroRunEndsInTheStatedSteps :
    ∃ (s s0 : State) (i : Instr), i.isMacro = true ∧ s.busy = false ∧ s.err = .none ∧
      exec i s = .next s0 ∧ s0.busy = true :=
  ⟨idle .w8 19, _, .enc .lower, by decide, by decide, by decide,
    eq_next_of_isNext (by decide) .reset, by decide⟩

/-- Source and destination of `idle` are apart for two elements. -/
theorem disjoint_idle_two (W : Width) (i : Instr) : (idle W 2).disjointBuffers i := by
  intro a b ha hb
  have h2 : (idle W 2).cnt.toNat = 2 := rfl
  have hb4 : b < 4 := by
    rw [h2] at hb
    refine Nat.lt_of_lt_of_le hb ?_
    unfold macroOutLen
    split <;> decide
  rw [h2] at ha
  show 0x1000#64 + BitVec.ofNat 64 a ≠ 0x3000#64 + BitVec.ofNat 64 b
  interval_cases a <;> interval_cases b <;> decide

/-- No byte is noted in `idle`. -/
theorem clean_idle (W : Width) (k n : Nat) : (idle W k).cleanRange (idle W k).src n :=
  fun _ _ h => absurd h List.not_mem_nil

/-- `unitRun k` of a running state, as the next state it reaches. -/
def ran (k : Nat) (s : State) : State := nextOf (unitRun k s) .reset

theorem meets_EncodeRunWritesTheHexText :
    ∃ (s s0 t : State) (c : CaseMode) (k : Nat),
      s.busy = false ∧ s.err = .none ∧
      s.disjointBuffers (.enc c) ∧ exec (.enc c) s = .next s0 ∧
      unitRun k s0 = .next t ∧ t.busy = false ∧ t.err = .none :=
  ⟨idle .w8 2, encoding .w8 2, ran 4 (encoding .w8 2), .lower, 4, by decide, by decide, disjoint_idle_two _ _, eq_next_of_isNext (by decide) .reset,
    eq_next_of_isNext (by decide) .reset, by decide, by decide⟩

theorem meets_DecodeRunWritesTheBytes :
    ∃ (s s0 t : State) (k : Nat),
      s.busy = false ∧ s.err = .none ∧
      s.disjointBuffers .dec ∧ exec .dec s = .next s0 ∧
      unitRun k s0 = .next t ∧ t.busy = false ∧ t.err = .none :=
  ⟨idle .w8 2, decoding .w8 2, ran 3 (decoding .w8 2), 3, by decide, by decide, disjoint_idle_two _ _, eq_next_of_isNext (by decide) .reset,
    eq_next_of_isNext (by decide) .reset, by decide, by decide⟩

/-- `idle`'s run, and a DEC run over its output to 0x5000. -/
theorem meets_EncodeThenDecodeGivesTheBytesBack :
    ∃ (s s0 t t0 r : State) (c : CaseMode) (d : Addr) (k1 k2 : Nat),
      s.busy = false ∧ s.err = .none ∧
      s.disjointBuffers (.enc c) ∧ exec (.enc c) s = .next s0 ∧
      unitRun k1 s0 = .next t ∧ t.busy = false ∧ t.err = .none ∧
      State.disjointBuffers
        { t with src := s.dst, dst := d, cnt := BitVec.ofNat 64 (2 * s.cnt.toNat) } .dec ∧
      exec .dec { t with src := s.dst, dst := d, cnt := BitVec.ofNat 64 (2 * s.cnt.toNat) } = .next t0 ∧
      unitRun k2 t0 = .next r ∧ r.busy = false ∧ r.err = .none ∧ 1 < s.cnt.toNat := by
  refine ⟨idle .w8 2, encoding .w8 2, ran 4 (encoding .w8 2), _, _, .lower, 0x5000#64, 4, 4,
    by decide, by decide, disjoint_idle_two _ _,
    eq_next_of_isNext (by decide) .reset, eq_next_of_isNext (by decide) .reset, by decide, by decide,
    ?_, eq_next_of_isNext (by decide) .reset, eq_next_of_isNext (by decide) .reset, by decide, by decide,
    by decide⟩
  intro a b ha hb
  have ha4 : a < 4 := ha
  have hb2 : b < 2 := hb
  show 0x3000#64 + BitVec.ofNat 64 a ≠ 0x5000#64 + BitVec.ofNat 64 b
  interval_cases a <;> interval_cases b <;> decide

/-- W = 8 with LUT and W = 1 with ARITH on the same two bytes. -/
theorem meets_WidthAndMapperDoNotChangeTheResult :
    ∃ (s s1 s2 t1 t2 : State) (i : Instr) (W : Width) (m : Mapper) (k1 k2 : Nat),
      i.isMacro = true ∧ s.cleanRange s.src s.cnt.toNat ∧ s.busy = false ∧ s.err = .none ∧
      s.disjointBuffers i ∧
      exec i s = .next s1 ∧ unitRun k1 s1 = .next t1 ∧ t1.busy = false ∧ t1.err = .none ∧
      exec i { s with inst := { s.inst with width := W, mapper := m } } = .next s2 ∧
      unitRun k2 s2 = .next t2 ∧ t2.busy = false ∧ t2.err = .none ∧ W ≠ s.inst.width :=
  ⟨idle .w8 2, encoding .w8 2, _, ran 4 (encoding .w8 2), _, .enc .lower, .w1, .arith, 4, 4,
    by decide, clean_idle _ _ _, by decide, by decide, disjoint_idle_two _ _,
    eq_next_of_isNext (by decide) .reset, eq_next_of_isNext (by decide) .reset, by decide, by decide,
    eq_next_of_isNext (by decide) .reset, eq_next_of_isNext (by decide) .reset, by decide, by decide,
    by decide⟩

/-- The commands `cmds` from `s` and the unit step from `m` both go through. -/
def bothRun (cmds : List Instr) (s m : State) : Bool :=
  isNext (runCommands cmds s) && isNext (unitStep m) &&
  (nextOf (runCommands cmds s) s).err == .none && (nextOf (unitStep m) m).err == .none

/-- The five clauses, each with a state that has exactly one block left and no noted byte (`clean_idle`). -/
theorem meets_MicroOpSequencesRealiseTheBlocks :
    (idle .w8 8).busy = false ∧ (idle .w8 8).err = .none ∧
    ((idle .w8 8).inst.width ≠ .w1 ∧ (idle .w8 8).lanes ≤ (idle .w8 8).cnt.toNat) ∧
    ((idle .w1 1).inst.width = .w1 ∧ 1 ≤ (idle .w1 1).cnt.toNat) ∧
    2 * (idle .w8 16).lanes ≤ (idle .w8 16).cnt.toNat ∧ 2 ≤ (idle .w8 2).cnt.toNat ∧
    bothRun (encBlockCommands .upper) (idle .w8 8) ((idle .w8 8).unraced .enc .upper .bulk) = true ∧
    bothRun (encElementCommands .upper) (idle .w1 1) ((idle .w1 1).unraced .enc .upper .bulk) = true ∧
    bothRun (encElementCommands .upper) (idle .w8 1) ((idle .w8 1).unraced .enc .upper .tail) = true ∧
    bothRun decBlockCommands (idle .w8 16) ((idle .w8 16).unraced .dec .upper .bulk) = true ∧
    bothRun decPairCommands (idle .w8 2) ((idle .w8 2).unraced .dec .upper .tail) = true := by decide

theorem meets_InvariantIsKeptByEveryStep :
    ∃ s t : State, s.Inv ∧ step s = .next t ∧ s ≠ t :=
  ⟨_, _, inv_encoding, eq_next_of_isNext (by decide) .reset, by decide⟩

theorem meets_InvariantRulesOutFaults : ∃ s : State, s.Inv ∧ s.busy = true ∧ s.mop = .dec :=
  ⟨_, inv_decoding, by decide, by decide⟩

theorem meets_RecordedErrorIsNeverOverwritten :
    ∃ s t a rest, s.Inv ∧ step s = .next t ∧ s.err ≠ .none ∧ s.nextAgent = .host ∧ s.host = a :: rest ∧
      a ≠ HostAction.reset ∧ ∀ v, a = .regWrite 0x08#8 8 v → v.getLsbD 7 = false := by
  refine ⟨{ failed with host := [.regWrite 0x10#8 8 0#64] }, _, .regWrite 0x10#8 8 0#64, [],
    ⟨by decide, by decide, by decide, by decide, by decide, by decide, by decide, by decide, by decide,
      by decide, by decide, by decide, by decide⟩,
    eq_next_of_isNext (by decide) .reset, by decide, by decide, rfl, by decide, ?_⟩
  intro v h
  injection h with h
  exact absurd h (by decide)

/-- V1 is written and V0 is not; V0 differs. -/
theorem meets_UnwrittenLanesNeverLeak :
    ∃ (i : Instr) (s1 s2 t1 : State), AgreeOnWritten s1 s2 ∧ s1 ≠ s2 ∧ s1.readsUninit i = false ∧
      exec i s1 = .next t1 :=
  ⟨.addi 2 1 0x01#8, pair 0x41 0,
    { pair 0x41 0 with v := (pair 0x41 0).v.set 0 (bytes 8 0xFFFFFFFFFFFFFFFF) }, _,
    ⟨by decide, by decide⟩, by decide, by decide, eq_next_of_isNext (by decide) .reset⟩

end Sys2Proof.Tests
end

section
/-! PROOFS. The host's register window (spec/10_state.md R40 to R53): what an aligned access does, what a
write does by the register it names, the fields of ID, and the statements about them. -/

namespace Sys2Proof.Machine

/-! ## An admitted access to the window -/

theorem regAccessOk_of_aligned {off : BitVec 8} (h : off.toNat % 8 = 0) : regAccessOk off 8 = true := by
  simp [regAccessOk, h]

theorem hostAct_regRead {off : BitVec 8} (h : off.toNat % 8 = 0) (s : State) :
    hostAct (.regRead off 8) s = .next (s.logRead (.reg off (s.readReg off))) :=
  if_pos (regAccessOk_of_aligned h)

theorem hostAct_regWrite {off : BitVec 8} (h : off.toNat % 8 = 0) (v : Word64) (s : State) :
    hostAct (.regWrite off 8 v) s = writeReg off v s :=
  if_pos (regAccessOk_of_aligned h)

/-! ## A write, by the register it names -/

@[simp] theorem writeReg_id (v : Word64) (s : State) : writeReg 0x00#8 v s = .next s := rfl

@[simp] theorem writeReg_status (v : Word64) (s : State) :
    writeReg 0x08#8 v s = .next (s.writeStatus v) := rfl

@[simp] theorem writeReg_cmd (v : Word64) (s : State) : writeReg 0x10#8 v s = writeCmd v s := rfl

@[simp] theorem writeReg_src (v : Word64) (s : State) :
    writeReg 0x18#8 v s = .next (if s.busy then s.dropWrite else { s with src := v }) := rfl

@[simp] theorem writeReg_dst (v : Word64) (s : State) :
    writeReg 0x20#8 v s = .next (if s.busy then s.dropWrite else { s with dst := v }) := rfl

@[simp] theorem writeReg_cnt (v : Word64) (s : State) :
    writeReg 0x28#8 v s = .next (if s.busy then s.dropWrite else { s with cnt := v }) := rfl

/-- An idle unit without a recorded error carries out the command the word decodes to (R47). -/
theorem writeCmd_accepted {v : Word64} {s : State} {i : Instr} (hb : s.busy = false)
    (he : s.err = .none) (hd : decode s.inst.width (v.extractLsb' 0 32) = some i) :
    writeCmd v s = exec i s := by
  simp [writeCmd, hb, he, hd]

/-! ## The reserved offsets -/

theorem readReg_reserved {off : BitVec 8} (h : 0x40 ≤ off.toNat) (s : State) :
    s.readReg off = 0#64 := by
  unfold State.readReg
  split
  case h_8 => rfl
  all_goals omega

theorem writeReg_reserved {off : BitVec 8} (h : 0x40 ≤ off.toNat) (v : Word64) (s : State) :
    writeReg off v s = .next s := by
  unfold writeReg
  split
  case h_6 => rfl
  all_goals omega

/-! ## A write of STATUS -/

/-- What a write of STATUS does to every field at once (R46). -/
theorem State.writeStatus_eq (s : State) (v : Word64) :
    s.writeStatus v =
      { s with
        done := if v.getLsbD 5 then false else s.done
        drop := if v.getLsbD 6 then false else s.drop
        err := if v.getLsbD 7 then .none else s.err
        errcmd := if v.getLsbD 7 then 0#32 else s.errcmd
        erraddr := if v.getLsbD 7 then 0#64 else s.erraddr } := by
  unfold State.writeStatus
  by_cases h : v.getLsbD 7 = true
  · simp only [h, if_true]; rfl
  · simp only [h, if_false, Bool.false_eq_true]

@[simp] theorem State.writeStatus_busy (s : State) (v : Word64) : (s.writeStatus v).busy = s.busy := by
  rw [State.writeStatus_eq]; rfl

/-- ERRCLR clears the recorded error (R46, R291). -/
theorem State.writeStatus_err_of_errclr (s : State) {v : Word64} (h : v.getLsbD 7 = true) :
    (s.writeStatus v).err = .none := by
  rw [State.writeStatus_eq]; exact if_pos h

/-! ## The fields of ID -/

/-- Each field of ID (R44). Width and mapper fix the whole word, so ten closed words are all there are. -/
theorem State.idWord_fields (s : State) :
    (s.idWord.extractLsb' 0 8).toNat = s.inst.width.lanes ∧
    (s.idWord.extractLsb' 8 8).toNat = min s.inst.width.lanes 16 ∧
    (s.idWord.extractLsb' 16 4).toNat = 8 ∧
    s.idWord.getLsbD 20 = (s.inst.mapper == .lut) ∧
    s.idWord.extractLsb' 21 3 = 0#3 ∧
    s.idWord.extractLsb' 24 8 = 0x01#8 ∧
    s.idWord.extractLsb' 32 32 = 0#32 := by
  unfold State.idWord State.group State.lanes
  cases s.inst.width <;> cases s.inst.mapper <;> decide

theorem State.idWord_w32_lut {s : State} (hw : s.inst.width = .w32) (hm : s.inst.mapper = .lut) :
    s.idWord = 0x0000000001181020#64 := by
  unfold State.idWord State.group State.lanes
  rw [hw, hm]
  decide

@[simp] theorem State.resetUnit_idWord (s : State) : s.resetUnit.idWord = s.idWord := rfl

/-! ## The statements -/

/-- Settles O5: BUSY alone decides each of the three writes. -/
theorem cursorWritesByBusy : Obligations.CursorWritesByBusy := by
  intro s v
  rw [hostAct_regWrite (by decide), hostAct_regWrite (by decide), hostAct_regWrite (by decide),
    writeReg_src, writeReg_dst, writeReg_cnt]
  constructor
  · intro hb
    simp [hb, State.dropWrite]
  · intro hb
    simp [hb]

/-- Settles O6: the next state is `writeStatus`, which keeps BUSY and the instance, so that after ERRCLR
an idle unit accepts the command. -/
theorem statusWriteDoesExactlyThis : Obligations.StatusWriteDoesExactlyThis := by
  intro s v
  refine ⟨s.writeStatus v, (hostAct_regWrite (by decide) v s).trans (writeReg_status v s), ?_⟩
  have haccept : v.getLsbD 7 = true → s.busy = false → ∀ (u : Word64) (i : Instr),
      decode (s.writeStatus v).inst.width (u.extractLsb' 0 32) = some i →
      hostAct (.regWrite 0x10#8 8 u) (s.writeStatus v) = exec i (s.writeStatus v) := by
    intro h7 hb u i hd
    rw [hostAct_regWrite (by decide), writeReg_cmd]
    exact writeCmd_accepted (by rw [State.writeStatus_busy, hb])
      (State.writeStatus_err_of_errclr s h7) hd
  refine ⟨?_, ?_, ?_, ?_, ?_, ?_, haccept⟩ <;> rw [State.writeStatus_eq]

/-- Settles O8: the fields from the ten ID words; ID ignores writes, and reset keeps the instance. -/
theorem idReadsTheInstance : Obligations.IdReadsTheInstance := by
  intro s
  obtain ⟨hw, hg, hn, hm, hz, hver, htop⟩ := s.idWord_fields
  refine ⟨hostAct_regRead (by decide) s, hw, hg, hn, hm, hz, hver, htop, State.idWord_w32_lut,
    fun v => (hostAct_regWrite (by decide) v s).trans (writeReg_id v s), ?_⟩
  intro t ht
  obtain rfl : s.resetUnit = t := Host.Outcome.next.inj ht
  exact s.resetUnit_idWord

/-- Settles O9: no register stands at or above 0x40. -/
theorem reservedOffsetsReadZero : Obligations.ReservedOffsetsReadZero := by
  intro s off v hlo hal
  constructor
  · rw [hostAct_regRead hal, readReg_reserved hlo]; rfl
  · rw [hostAct_regWrite hal, writeReg_reserved hlo]

end Sys2Proof.Machine
end

section
/-! PROOFS. The decoder against the opcode table (spec/30_encoding.md R103 to R110): when a word decodes,
that this is the table's own criterion, and the statements about illegal words and the sample words. -/

namespace Sys2Proof

/-! ## The decoder by its row of the opcode map -/

/-- A word decodes to `i` through the row of its OP, with every reserved bit 0 and `i` well formed
(R110). -/
theorem decode_eq_some_iff {W : Width} {w : CmdWord} {i : Instr} :
    decode W w = some i ↔ ∃ fmt build, opRow (opOf w).toNat = some (fmt, build) ∧
      w &&& fmt.mask = place (opOf w) 26 ∧ build (Fields.of w) = i ∧ i.wf W = true := by
  unfold decode
  rcases opRow (opOf w).toNat with _ | ⟨fmt, build⟩
  · simp
  · by_cases hm : w &&& fmt.mask = place (opOf w) 26
    · simpa [hm, and_comm] using congrArg (Instr.wf W)
    · simp [hm]

theorem decode_isSome_iff {W : Width} {w : CmdWord} :
    (decode W w).isSome = true ↔ ∃ fmt build, opRow (opOf w).toNat = some (fmt, build) ∧
      w &&& fmt.mask = place (opOf w) 26 ∧ (build (Fields.of w)).wf W = true := by
  simp only [Option.isSome_iff_exists, decode_eq_some_iff]
  constructor
  · rintro ⟨_, fmt, build, hrow, hmask, rfl, hwf⟩
    exact ⟨fmt, build, hrow, hmask, hwf⟩
  · rintro ⟨fmt, build, hrow, hmask, hwf⟩
    exact ⟨_, fmt, build, hrow, hmask, rfl, hwf⟩

/-! ## The rows of the table are the rows of the opcode map -/

/-- Each row's match is its OP alone and its mask that of its format (R103, R105). -/
theorem commandTable_eq_opRow : Machine.commandTable =
    (List.range 64).filterMap fun op =>
      (opRow op).map fun row => (place (BitVec.ofNat 6 op) 26, row.1.mask) := by
  decide

theorem opOf_place (op : BitVec 6) : opOf (place op 26) = op := opOf_encX op

theorem opOf_and_mask (w : CmdWord) (fmt : Format) : opOf (w &&& fmt.mask) = opOf w := by
  have h : opOf fmt.mask = BitVec.allOnes 6 := by cases fmt <;> decide
  rw [opOf, BitVec.extractLsb'_and, ← opOf, ← opOf, h, BitVec.and_allOnes]

/-- Every mask covers OP, so a word matches at most the row of its own OP. -/
theorem opOf_eq_of_match {w : CmdWord} {fmt : Format} {op : BitVec 6}
    (h : w &&& fmt.mask = place op 26) : opOf w = op := by
  rw [← opOf_and_mask w fmt, h, opOf_place]

/-- R107: a row of the table matches exactly when the row of the word's OP does. -/
theorem commandTable_any_iff (w : CmdWord) :
    (Machine.commandTable.any fun r => w &&& r.2 == r.1) = true ↔
      ∃ fmt build, opRow (opOf w).toNat = some (fmt, build) ∧
        w &&& fmt.mask = place (opOf w) 26 := by
  simp only [commandTable_eq_opRow, List.any_eq_true, List.mem_filterMap, Option.map_eq_some_iff,
    beq_iff_eq]
  constructor
  · rintro ⟨_, ⟨op, hop, ⟨fmt, build⟩, hrow, rfl⟩, hmatch⟩
    have hw : opOf w = BitVec.ofNat 6 op := opOf_eq_of_match hmatch
    have hnat : (opOf w).toNat = op := by
      rw [hw, BitVec.toNat_ofNat, Nat.mod_eq_of_lt (List.mem_range.mp hop)]
    exact ⟨fmt, build, hnat ▸ hrow, hw ▸ hmatch⟩
  · rintro ⟨fmt, build, hrow, hmatch⟩
    refine ⟨_, ⟨(opOf w).toNat, List.mem_range.mpr (opOf w).isLt, _, hrow, rfl⟩, ?_⟩
    rw [BitVec.ofNat_toNat, BitVec.setWidth_eq, hmatch]

/-! ## The operand constraints, by OP -/

/-- R108: of a row's commands those are refused that are LD2 with D = E, or a reorder command at
W = 1. -/
theorem wf_build_iff {op : Nat} {fmt : Format} {build : Fields → Instr}
    (hrow : opRow op = some (fmt, build)) (W : Width) (f : Fields) :
    (build f).wf W = true ↔
      ¬(op = 0x03 ∧ f.d = f.a) ∧ ¬(W = .w1 ∧ 0x20 ≤ op ∧ op ≤ 0x23) := by
  unfold opRow at hrow
  split at hrow <;> cases hrow <;> simp [Instr.wf]

theorem field3_inj {w : CmdWord} {i j : Nat} :
    field3 w i = field3 w j ↔ w.extractLsb' i 3 = w.extractLsb' j 3 := by
  unfold field3
  exact BitVec.toFin_inj

/-- `legalWord` by OP as a number and the fields D and A. -/
theorem legalWord_iff (W : Width) (w : CmdWord) :
    Machine.legalWord W w = true ↔
      (Machine.commandTable.any fun r => w &&& r.2 == r.1) = true ∧
      ¬((opOf w).toNat = 0x03 ∧ (Fields.of w).d = (Fields.of w).a) ∧
      ¬(W = .w1 ∧ 0x20 ≤ (opOf w).toNat ∧ (opOf w).toNat ≤ 0x23) := by
  simp only [Machine.legalWord, Bool.and_eq_true, Bool.not_eq_true', ← Bool.not_eq_true, beq_iff_eq,
    decide_eq_true_eq, and_assoc, Fields.of, field3_inj, opOf, BitVec.le_def, ← BitVec.toNat_inj]
  rfl

/-- The decoder accepts exactly the legal words (R106, R107, R108, R110). -/
theorem decode_isSome (W : Width) (w : CmdWord) :
    (decode W w).isSome = Machine.legalWord W w := by
  rw [Bool.eq_iff_iff, decode_isSome_iff, legalWord_iff, commandTable_any_iff]
  constructor
  · rintro ⟨fmt, build, hrow, hmask, hwf⟩
    exact ⟨⟨fmt, build, hrow, hmask⟩, (wf_build_iff hrow W _).mp hwf⟩
  · rintro ⟨⟨fmt, build, hrow, hmask⟩, hwf⟩
    exact ⟨fmt, build, hrow, hmask, (wf_build_iff hrow W _).mpr hwf⟩

theorem decode_eq_none_of_not_legalWord {W : Width} {w : CmdWord}
    (h : Machine.legalWord W w = false) : decode W w = none := by
  rw [← Option.isSome_eq_false_iff.trans Option.isNone_iff_eq_none, decode_isSome, h]

end Sys2Proof

namespace Sys2Proof.Machine

/-- An idle unit without a recorded error raises ILLEGAL for a word that does not decode (R47, R109). -/
theorem writeCmd_illegal {v : Word64} {s : State} (hb : s.busy = false) (he : s.err = .none)
    (hd : decode s.inst.width (v.extractLsb' 0 32) = none) :
    writeCmd v s = .next (s.raise .illegal (v.extractLsb' 0 32) 0#64) := by
  simp [writeCmd, hb, he, hd]

/-- Settles O13: a word that is not legal does not decode, and the CMD write raises ILLEGAL for it. -/
theorem illegalWordsOnlyRecordTheError : Obligations.IllegalWordsOnlyRecordTheError := by
  intro s v hb he hillegal
  rw [hostAct_regWrite (by decide), writeReg_cmd,
    writeCmd_illegal hb he (decode_eq_none_of_not_legalWord hillegal)]
  rfl

/-- Settles O15: thirty closed words, each decoded and encoded by evaluation. -/
theorem sampleWordsDecodeAndEncode : Obligations.SampleWordsDecodeAndEncode := by
  unfold Obligations.SampleWordsDecodeAndEncode
  decide

end Sys2Proof.Machine
end

section
/-! PROOFS. Range classification and select (spec/40_classify.md): the SWAR form of RNG lane by lane, SEL
on a mask, and the ASCII classes. -/

namespace Sys2Proof.Machine

/-! ## The lanes of a 64-bit word

R141 packs lane i at bits [8i+7:8i]. Bitwise operations act on every lane alike; a subtraction does so
where no lane borrows. -/

/-- Lane `k` of a 64-bit word (R141). -/
def wordLane (x : Word64) (k : Nat) : Byte := x.extractLsb' (8 * k) 8

theorem getLsbD_wordLane (x : Word64) (k i : Nat) :
    (wordLane x k).getLsbD i = (decide (i < 8) && x.getLsbD (8 * k + i)) :=
  BitVec.getLsbD_extractLsb' ..

theorem toNat_wordLane (x : Word64) (k : Nat) :
    (wordLane x k).toNat = x.toNat / 256 ^ k % 256 := by
  rw [wordLane, BitVec.extractLsb'_toNat, Nat.shiftRight_eq_div_pow, pow_mul]
  rfl

theorem wordLane_eq_zero (x : Word64) {k : Nat} (hk : 8 ≤ k) : wordLane x k = 0x00#8 := by
  apply BitVec.eq_of_getLsbD_eq
  intro i _
  rw [getLsbD_wordLane, BitVec.getLsbD_of_ge x _ (by omega)]
  simp

@[simp] theorem wordLane_and (x y : Word64) (k : Nat) :
    wordLane (x &&& y) k = wordLane x k &&& wordLane y k := BitVec.extractLsb'_and

@[simp] theorem wordLane_or (x y : Word64) (k : Nat) :
    wordLane (x ||| y) k = wordLane x k ||| wordLane y k := BitVec.extractLsb'_or

@[simp] theorem wordLane_xor (x y : Word64) (k : Nat) :
    wordLane (x ^^^ y) k = wordLane x k ^^^ wordLane y k := BitVec.extractLsb'_xor

theorem wordLane_not (x : Word64) {k : Nat} (hk : k < 8) : wordLane (~~~x) k = ~~~wordLane x k := by
  apply BitVec.eq_of_getLsbD_eq
  intro i hi
  have hbit : 8 * k + i < 64 := by omega
  rw [BitVec.getLsbD_not, getLsbD_wordLane, getLsbD_wordLane, BitVec.getLsbD_not]
  simp only [hi, hbit, decide_true, Bool.true_and]

theorem wordLane_swarH {k : Nat} (hk : k < 8) : wordLane swarH k = 0x80#8 := by
  revert k; decide

theorem wordLane_swarL7 {k : Nat} (hk : k < 8) : wordLane swarL7 k = 0x7F#8 := by
  revert k; decide

/-- `B(c)` is the number with eight digits `c` in base 256. -/
theorem toNat_swarB (c : Byte) :
    (swarB c).toNat = Nat.ofDigits 256 (List.replicate 8 c.toNat) := by
  have hprod : (swarB c).toNat = c.toNat % 2 ^ 64 * 0x0101010101010101 % 2 ^ 64 := by
    rw [swarB, BitVec.toNat_mul, BitVec.toNat_setWidth, BitVec.toNat_ofNat]
  rw [hprod]
  simp only [List.replicate, Nat.ofDigits_cons, Nat.ofDigits_nil]
  omega

theorem wordLane_swarB (c : Byte) {k : Nat} (hk : k < 8) : wordLane (swarB c) k = c := by
  have hdigit : ∀ d ∈ List.replicate 8 c.toNat, d < 256 := by
    intro d hd
    rw [List.eq_of_mem_replicate hd]
    exact c.isLt
  have hlen : 8 - k = (7 - k) + 1 := by omega
  apply BitVec.eq_of_toNat_eq
  rw [toNat_wordLane, toNat_swarB, Nat.ofDigits_div_pow_eq_ofDigits_drop k (by decide) _ hdigit,
    List.drop_replicate, hlen, List.replicate_succ, Nat.ofDigits_cons, Nat.add_mul_mod_self_left]
  exact Nat.mod_eq_of_lt c.isLt

/-- Where no lane of `b` exceeds the lane of `a`, the `n` lowest lanes of `b` as one number do not
exceed those of `a`. -/
theorem lowLanes_le {a b : Word64} (h : ∀ k < 8, wordLane b k ≤ wordLane a k) {n : Nat} (hn : n ≤ 8) :
    b.toNat % 256 ^ n ≤ a.toNat % 256 ^ n := by
  induction n with
  | zero => simp [Nat.mod_one]
  | succ n ih =>
    have hlane := h n (by omega)
    rw [BitVec.le_def, toNat_wordLane, toNat_wordLane] at hlane
    rw [Nat.mod_pow_succ, Nat.mod_pow_succ]
    exact Nat.add_le_add (ih (by omega)) (Nat.mul_le_mul_left _ hlane)

/-- A difference loses its low digits alone where they do not borrow. -/
theorem sub_div_of_mod_le {a b q : Nat} (hq : 0 < q) (hle : b ≤ a) (h : b % q ≤ a % q) :
    (a - b) / q = a / q - b / q := by
  have hdigits : a - b = (a % q - b % q) + q * (a / q - b / q) := by
    have ha := Nat.mod_add_div a q
    have hb := Nat.mod_add_div b q
    have hq := Nat.mul_le_mul_left q (Nat.div_le_div_right (c := q) hle)
    rw [Nat.mul_sub]
    omega
  have hsmall : a % q - b % q < q := (Nat.sub_le _ _).trans_lt (Nat.mod_lt a hq)
  rw [hdigits, Nat.add_mul_div_left _ _ hq, Nat.div_eq_of_lt hsmall, Nat.zero_add]

/-- No lane borrows, so the difference is that of the lanes. -/
theorem wordLane_sub {a b : Word64} (h : ∀ k < 8, wordLane b k ≤ wordLane a k) {k : Nat} (hk : k < 8) :
    wordLane (a - b) k = wordLane a k - wordLane b k := by
  have hle : b ≤ a := by
    have hall : b.toNat % 2 ^ 64 ≤ a.toNat % 2 ^ 64 := lowLanes_le h (le_refl 8)
    rwa [Nat.mod_eq_of_lt a.isLt, Nat.mod_eq_of_lt b.isLt] at hall
  have hlane := h k hk
  apply BitVec.eq_of_toNat_eq
  rw [BitVec.toNat_sub_of_le hlane, toNat_wordLane, BitVec.toNat_sub_of_le hle,
    sub_div_of_mod_le (by positivity) hle (lowLanes_le h hk.le), toNat_wordLane, toNat_wordLane]
  have hdiv : b.toNat / 256 ^ k ≤ a.toNat / 256 ^ k := Nat.div_le_div_right hle
  rw [BitVec.le_def, toNat_wordLane, toNat_wordLane] at hlane
  omega

/-! ## The SWAR comparison, in one lane -/

theorem and_topBit (x : Byte) : x &&& 0x80#8 = if x.msb then 0x80#8 else 0x00#8 := by
  revert x; decide

theorem toNat_or_topBit (x : Byte) : (x ||| 0x80#8).toNat = 128 + x.toNat % 128 := by
  revert x; decide

theorem toNat_and_lowBits (x : Byte) : (x &&& 0x7F#8).toNat = x.toNat % 128 :=
  Nat.and_two_pow_sub_one_eq_mod x.toNat 7

theorem lowBits_le_biased (a b : Byte) : b &&& 0x7F#8 ≤ a ||| 0x80#8 := by
  rw [BitVec.le_def, toNat_or_topBit, toNat_and_lowBits]
  omega

/-- The biased 7-bit difference keeps its bias exactly where it does not borrow. -/
theorem msb_biased_sub (a b : Byte) :
    ((a ||| 0x80#8) - (b &&& 0x7F#8)).msb = decide (b.toNat % 128 ≤ a.toNat % 128) := by
  rw [BitVec.msb_eq_decide, BitVec.toNat_sub_of_le (lowBits_le_biased a b), toNat_or_topBit,
    toNat_and_lowBits, decide_eq_decide]
  omega

theorem le_iff_lowBits_le {a b : Byte} (h : a.msb = b.msb) :
    b ≤ a ↔ b.toNat % 128 ≤ a.toNat % 128 := by
  rw [BitVec.msb_eq_decide, BitVec.msb_eq_decide, decide_eq_decide] at h
  rw [BitVec.le_def]
  omega

theorem le_iff_msb {a b : Byte} (h : a.msb ≠ b.msb) : b ≤ a ↔ a.msb = true := by
  rw [BitVec.msb_eq_decide, BitVec.msb_eq_decide, ne_eq, decide_eq_decide] at h
  rw [BitVec.le_def, BitVec.msb_eq_decide, decide_eq_true_iff]
  omega

/-- `ge` in one lane: where the top bits differ that of `a` decides, else the 7-bit difference does
(R141). -/
theorem ge_lane (a b : Byte) :
    (((a ^^^ b) &&& a) ||| (~~~(a ^^^ b) &&& ((a ||| 0x80#8) - (b &&& 0x7F#8)))) &&& 0x80#8
      = if b ≤ a then 0x80#8 else 0x00#8 := by
  rw [and_topBit, BitVec.msb_or, BitVec.msb_and, BitVec.msb_and, BitVec.msb_not, BitVec.msb_xor,
    msb_biased_sub]
  by_cases h : a.msb = b.msb
  · simp [h, le_iff_lowBits_le h]
  · simp [bne_iff_ne.mpr h, le_iff_msb h]

theorem wordLane_swarGe (a b : Word64) {k : Nat} (hk : k < 8) :
    wordLane (swarGe a b) k = if wordLane b k ≤ wordLane a k then 0x80#8 else 0x00#8 := by
  have hborrow : ∀ j < 8, wordLane (b &&& swarL7) j ≤ wordLane (a ||| swarH) j := by
    intro j hj
    rw [wordLane_and, wordLane_or, wordLane_swarL7 hj, wordLane_swarH hj]
    exact lowBits_le_biased _ _
  simp only [swarGe, wordLane_and, wordLane_or, wordLane_xor, wordLane_not _ hk,
    wordLane_sub hborrow hk, wordLane_swarH hk, wordLane_swarL7 hk]
  exact ge_lane _ _

/-! ## The normalization of the flags -/

/-- A shift by 7 moves the top bit of a lane to its bottom and the rest of the next lane above it. -/
theorem wordLane_ushiftRight_seven (x : Word64) (k : Nat) :
    wordLane (x >>> 7) k = (wordLane x k >>> 7) ||| (wordLane x (k + 1) <<< 1) := by
  apply BitVec.eq_of_getLsbD_eq
  intro i hi
  rw [getLsbD_wordLane, BitVec.getLsbD_ushiftRight, BitVec.getLsbD_or, BitVec.getLsbD_ushiftRight,
    BitVec.getLsbD_shiftLeft, getLsbD_wordLane, getLsbD_wordLane]
  rcases i with _ | i
  · simp [Nat.add_comm 7]
  · have hbit : 7 + (8 * k + (i + 1)) = 8 * (k + 1) + i := by omega
    have hi8 : i < 8 := by omega
    have hout : ¬ 7 + (i + 1) < 8 := by omega
    simp [hi, hi8, hbit, hout]

/-- Bit 7 alone of each lane of `g` may be set, as in a result of `ge`. -/
def IsLaneFlags (g : Word64) : Prop := ∀ k < 8, wordLane g k = 0x80#8 ∨ wordLane g k = 0x00#8

theorem isLaneFlags_swarGe (a b : Word64) : IsLaneFlags (swarGe a b) := by
  intro k hk
  rw [wordLane_swarGe a b hk]
  exact ite_eq_or_eq _ _ _

theorem IsLaneFlags.ushiftRight_seven {g : Word64} (hg : IsLaneFlags g) (k : Nat) :
    wordLane (g >>> 7) k = wordLane g k >>> 7 := by
  have hnext : wordLane g (k + 1) <<< 1 = 0x00#8 := by
    rcases Nat.lt_or_ge (k + 1) 8 with h | h
    · rcases hg _ h with h | h <;> rw [h] <;> rfl
    · rw [wordLane_eq_zero g h]; rfl
  rw [wordLane_ushiftRight_seven, hnext, BitVec.or_zero]

/-- `norm` fills the lanes whose flag is set and leaves the others (R141). -/
theorem IsLaneFlags.wordLane_swarNorm {g : Word64} (hg : IsLaneFlags g) {k : Nat} (hk : k < 8) :
    wordLane (swarNorm g) k = if wordLane g k = 0x80#8 then 0xFF#8 else 0x00#8 := by
  have hborrow : ∀ j < 8, wordLane (g >>> 7) j ≤ wordLane g j := by
    intro j hj
    rw [hg.ushiftRight_seven j, BitVec.le_def, BitVec.toNat_ushiftRight, Nat.shiftRight_eq_div_pow]
    exact Nat.div_le_self _ _
  rw [swarNorm, wordLane_or, wordLane_sub hborrow hk, hg.ushiftRight_seven k]
  rcases hg k hk with h | h <;> rw [h] <;> rfl

theorem wordLane_swarNorm_swarGe (a b : Word64) {k : Nat} (hk : k < 8) :
    wordLane (swarNorm (swarGe a b)) k =
      if wordLane b k ≤ wordLane a k then 0xFF#8 else 0x00#8 := by
  rw [(isLaneFlags_swarGe a b).wordLane_swarNorm hk, wordLane_swarGe a b hk]
  split <;> rfl

/-- Settles O32: each bound gives a mask of the lane's comparison, and RNG is their conjunction. -/
theorem swarEqualsTheRangeMask : Obligations.SwarEqualsTheRangeMask := by
  intro x lo hi k hk
  change wordLane (rngSwar x lo hi) k = rngByte lo hi (wordLane x k)
  rw [rngSwar, wordLane_and, wordLane_swarNorm_swarGe _ _ hk, wordLane_swarNorm_swarGe _ _ hk,
    wordLane_swarB lo hk, wordLane_swarB hi hk, rngByte]
  by_cases hlo : lo ≤ wordLane x k <;> by_cases hhi : wordLane x k ≤ hi <;> simp [hlo, hhi]

/-! ## SEL on a mask -/

theorem rngByte_eq_allOnes_iff {lo hi x : Byte} : rngByte lo hi x = 0xFF#8 ↔ lo ≤ x ∧ x ≤ hi := by
  simp [rngByte]

/-- Every RNG lane is a mask lane (R143). -/
theorem rngByte_isMask (lo hi x : Byte) : rngByte lo hi x = 0x00#8 ∨ rngByte lo hi x = 0xFF#8 :=
  (ite_eq_or_eq _ _ _).symm

@[simp] theorem selByte_zero (a b : Byte) : selByte 0x00#8 a b = b := by
  rw [selByte, BitVec.zero_and, BitVec.not_zero, BitVec.allOnes_and, BitVec.zero_or]

@[simp] theorem selByte_allOnes (a b : Byte) : selByte 0xFF#8 a b = a := by
  rw [selByte, show 0xFF#8 = BitVec.allOnes 8 from rfl, BitVec.allOnes_and, BitVec.not_allOnes,
    BitVec.zero_and, BitVec.or_zero]

/-- Settles O25: on either mask value the select takes a whole lane, the one the top bit names. -/
theorem selOnAMaskSelectsLanes : Obligations.SelOnAMaskSelectsLanes := by
  constructor
  · intro s vd vm va vb hmask
    refine ⟨laneMap3 selByte vd vm va vb s, rfl, fun i hi => ?_⟩
    rw [(laneMap3_writes selByte vd vm va vb s).lanes i hi]
    rcases hmask i hi with h | h <;> simp [h]
  · intro s t vd va lo hi ht i hlt
    obtain rfl : laneMap1 (rngByte lo hi) vd va s = t := Host.Outcome.next.inj ht
    rw [(laneMap1_writes (rngByte lo hi) vd va s).lanes i hlt]
    exact rngByte_isMask lo hi _

/-! ## The ASCII classes -/

/-- Two ranges one of which ends below the other share no byte. -/
theorem not_rngByte_both {lo hi lo' hi' : Byte} (h : hi < lo') (x : Byte) :
    ¬ (rngByte lo hi x = 0xFF#8 ∧ rngByte lo' hi' x = 0xFF#8) := by
  simp only [rngByte_eq_allOnes_iff]
  rintro ⟨⟨-, hxhi⟩, hlox, -⟩
  exact absurd (BitVec.le_trans hlox hxhi) (BitVec.not_le.mpr h)

/-- Settles O26: each class ends below the next. -/
theorem asciiClassesAreDisjoint : Obligations.AsciiClassesAreDisjoint := fun x =>
  ⟨not_rngByte_both (by decide) x, not_rngByte_both (by decide) x, not_rngByte_both (by decide) x⟩

end Sys2Proof.Machine
end

section
/-! PROOFS. Nibble to ASCII and back (spec/41_nibble_map.md): N2A is the hex digit of the low nibble and
A2N the hex value, under either mapper; on the alphabet they undo each other up to case (R166). -/

namespace Sys2Proof.Machine

/-! ## The nibbles of a byte -/

theorem toNat_loNibble (x : Byte) : (loNibble x).toNat = x.toNat % 16 := BitVec.extractLsb'_toNat ..

theorem toNat_hiNibble (x : Byte) : (hiNibble x).toNat = x.toNat / 16 := by
  have hlt : x.toNat / 16 < 16 := Nat.div_lt_of_lt_mul x.isLt
  rw [hiNibble, BitVec.extractLsb'_toNat, Nat.shiftRight_eq_div_pow]
  exact Nat.mod_eq_of_lt hlt

theorem and_fifteen_eq_loNibble (x : Byte) : x &&& 0x0F#8 = (loNibble x).zeroExtend 8 := by
  apply BitVec.eq_of_toNat_eq
  rw [BitVec.toNat_setWidth_of_le (by decide), toNat_loNibble]
  exact Nat.and_two_pow_sub_one_eq_mod x.toNat 4

theorem ushiftRight_four_eq_hiNibble (x : Byte) : x >>> 4 = (hiNibble x).zeroExtend 8 := by
  apply BitVec.eq_of_toNat_eq
  rw [BitVec.toNat_setWidth_of_le (by decide), toNat_hiNibble, BitVec.toNat_ushiftRight]
  exact Nat.shiftRight_eq_div_pow x.toNat 4

theorem loNibble_zeroExtend (n : Nibble) : loNibble (n.zeroExtend 8) = n := by
  apply BitVec.eq_of_toNat_eq
  rw [toNat_loNibble, BitVec.toNat_setWidth_of_le (by decide), Nat.mod_eq_of_lt n.isLt]

theorem zeroExtend_loNibble {v : Byte} (h : v ≤ 15#8) : (loNibble v).zeroExtend 8 = v := by
  apply BitVec.eq_of_toNat_eq
  rw [BitVec.toNat_setWidth_of_le (by decide), toNat_loNibble]
  bv_omega

theorem combine_zeroExtend (h l : Nibble) : combine (h.zeroExtend 8) (l.zeroExtend 8) = h ++ l := by
  rw [BitVec.append_def, BitVec.shiftLeftZeroExtend_eq, BitVec.setWidth'_eq]
  rfl

/-- The two nibbles make the byte (R164, R165). -/
theorem combine_nibbles (x : Byte) :
    combine ((hiNibble x).zeroExtend 8) ((loNibble x).zeroExtend 8) = x := by
  rw [combine_zeroExtend, hiNibble, loNibble]
  exact (BitVec.extractLsb'_append_extractLsb'_eq_extractLsb' rfl).trans BitVec.extractLsb'_eq_self

/-! ## N2A: the hex digit of a nibble -/

theorem hexdigit_of_le {n : Nibble} (h : n ≤ 9#4) (c : CaseMode) :
    hexdigit n c = 0x30#8 + n.zeroExtend 8 := if_pos h

theorem hexdigit_of_not_le {n : Nibble} (h : ¬ n ≤ 9#4) (c : CaseMode) :
    hexdigit n c = letterOffset c + n.zeroExtend 8 := by
  cases c <;> exact if_neg h

/-- Each table holds the sixteen digits of its case in order (R33, R161). -/
theorem lutOf_getD (c : CaseMode) (n : Nibble) : (lutOf c).getD n.toNat 0#8 = hexdigit n c := by
  cases c <;> revert n <;> decide

/-- The mask of R162 picks out the letters. -/
theorem rngByte_ten_fifteen (n : Nibble) :
    rngByte 10#8 15#8 (n.zeroExtend 8) = if n ≤ 9#4 then 0x00#8 else 0xFF#8 := by
  revert n; decide

/-- N2A gives the hex digit of the low nibble under either mapper (R160, R161, R162). -/
theorem n2aByte_eq_hexdigit (m : Mapper) (c : CaseMode) (x : Byte) :
    n2aByte m c x = hexdigit (loNibble x) c := by
  cases m with
  | lut =>
    rw [n2aByte, n2aLut, and_fifteen_eq_loNibble, BitVec.toNat_setWidth_of_le (by decide), lutOf_getD]
  | arith =>
    simp only [n2aByte, n2aArith, and_fifteen_eq_loNibble, rngByte_ten_fifteen]
    by_cases h : loNibble x ≤ 9#4
    · rw [if_pos h, selByte_zero, hexdigit_of_le h, BitVec.add_comm]
    · rw [if_neg h, selByte_allOnes, hexdigit_of_not_le h, BitVec.add_comm]

theorem n2aByte_of_le_nine {v : Byte} (h : v ≤ 9#8) (m : Mapper) (c : CaseMode) :
    n2aByte m c v = 0x30#8 + v := by
  have hn : loNibble v ≤ 9#4 := by
    rw [BitVec.le_def, toNat_loNibble]
    bv_omega
  rw [n2aByte_eq_hexdigit, hexdigit_of_le hn, zeroExtend_loNibble (BitVec.le_trans h (by decide))]

theorem n2aByte_of_ten_le {v : Byte} (h : 10#8 ≤ v) (h' : v ≤ 15#8) (m : Mapper) (c : CaseMode) :
    n2aByte m c v = letterOffset c + v := by
  have hn : ¬ loNibble v ≤ 9#4 := by
    rw [BitVec.le_def, toNat_loNibble]
    bv_omega
  rw [n2aByte_eq_hexdigit, hexdigit_of_not_le hn, zeroExtend_loNibble h']

/-! ## A2N: the value of a character -/

theorem and_rngByte (lo hi x y : Byte) :
    y &&& rngByte lo hi x = if lo ≤ x ∧ x ≤ hi then y else 0x00#8 := by
  unfold rngByte
  split
  · exact BitVec.and_allOnes
  · exact BitVec.and_zero

theorem hexval_of_digit {x : Byte} (h : 0x30#8 ≤ x ∧ x ≤ 0x39#8) : hexval x = x - 0x30#8 := if_pos h

theorem hexval_of_upper {x : Byte} (h : 0x41#8 ≤ x ∧ x ≤ 0x46#8) : hexval x = x - 0x37#8 := by
  have hd : ¬ (0x30#8 ≤ x ∧ x ≤ 0x39#8) := by bv_omega
  rw [hexval, if_neg hd, if_pos h]

theorem hexval_of_lower {x : Byte} (h : 0x61#8 ≤ x ∧ x ≤ 0x66#8) : hexval x = x - 0x57#8 := by
  have hd : ¬ (0x30#8 ≤ x ∧ x ≤ 0x39#8) := by bv_omega
  have hu : ¬ (0x41#8 ≤ x ∧ x ≤ 0x46#8) := by bv_omega
  rw [hexval, if_neg hd, if_neg hu, if_pos h]

/-- At most one of the three masks is set, so the OR is the one value it lets through (R163). -/
theorem a2nByte_eq_hexval (x : Byte) : a2nByte x = hexval x := by
  simp only [a2nByte, and_rngByte]
  by_cases hd : 0x30#8 ≤ x ∧ x ≤ 0x39#8
  · have hu : ¬ (0x41#8 ≤ x ∧ x ≤ 0x46#8) := by bv_omega
    have hl : ¬ (0x61#8 ≤ x ∧ x ≤ 0x66#8) := by bv_omega
    rw [if_pos hd, if_neg hu, if_neg hl, hexval_of_digit hd, BitVec.or_zero, BitVec.or_zero]
  by_cases hu : 0x41#8 ≤ x ∧ x ≤ 0x46#8
  · have hl : ¬ (0x61#8 ≤ x ∧ x ≤ 0x66#8) := by bv_omega
    rw [if_neg hd, if_pos hu, if_neg hl, hexval_of_upper hu, BitVec.or_zero, BitVec.zero_or]
  · rw [if_neg hd, if_neg hu, hexval, if_neg hd, if_neg hu, BitVec.zero_or, BitVec.zero_or]

/-! ## There and back -/

/-- The value of the digit of a nibble is the nibble, in either case. -/
theorem hexval_hexdigit (n : Nibble) (c : CaseMode) : hexval (hexdigit n c) = n.zeroExtend 8 := by
  cases c <;> revert n <;> decide

theorem a2nByte_n2aByte (m : Mapper) (c : CaseMode) (n : Nibble) :
    a2nByte (n2aByte m c (n.zeroExtend 8)) = n.zeroExtend 8 := by
  rw [n2aByte_eq_hexdigit, loNibble_zeroExtend, a2nByte_eq_hexval, hexval_hexdigit]

theorem n2aByte_a2nByte_of_digit {x : Byte} (h : 0x30#8 ≤ x ∧ x ≤ 0x39#8) (m : Mapper) (c : CaseMode) :
    n2aByte m c (a2nByte x) = x := by
  rw [a2nByte_eq_hexval, hexval_of_digit h, n2aByte_of_le_nine (by bv_omega)]
  exact add_sub_cancel _ _

/-- A capital letter comes back as the letter of the case asked for. -/
theorem n2aByte_a2nByte_of_upper {x : Byte} (h : 0x41#8 ≤ x ∧ x ≤ 0x46#8) (m : Mapper) (c : CaseMode) :
    n2aByte m c (a2nByte x) = letterOffset c + (x - 0x37#8) := by
  rw [a2nByte_eq_hexval, hexval_of_upper h, n2aByte_of_ten_le (by bv_omega) (by bv_omega)]

/-- A small letter comes back as the letter of the case asked for. -/
theorem n2aByte_a2nByte_of_lower {x : Byte} (h : 0x61#8 ≤ x ∧ x ≤ 0x66#8) (m : Mapper) (c : CaseMode) :
    n2aByte m c (a2nByte x) = letterOffset c + (x - 0x57#8) := by
  rw [a2nByte_eq_hexval, hexval_of_lower h, n2aByte_of_ten_le (by bv_omega) (by bv_omega)]

/-- Settles O31: N2A and A2N are `hexdigit` and `hexval`, which undo each other; a letter's case is the
offset of the case asked for against that of its own. -/
theorem nibbleRoundTrip : Obligations.NibbleRoundTrip := by
  intro m c x
  refine ⟨?_, ?_, ?_, fun h => n2aByte_a2nByte_of_digit h m c, fun h => ?_, fun h => ?_⟩
  · rw [hexval_hexdigit, ushiftRight_four_eq_hiNibble]
  · rw [hexval_hexdigit, and_fifteen_eq_loNibble]
  · rw [ushiftRight_four_eq_hiNibble, and_fifteen_eq_loNibble, a2nByte_n2aByte, a2nByte_n2aByte,
      combine_nibbles]
  · rw [n2aByte_a2nByte_of_upper h]
    cases c <;> simp only [letterOffset] <;> bv_omega
  · rw [n2aByte_a2nByte_of_lower h]
    cases c <;> simp only [letterOffset] <;> bv_omega

end Sys2Proof.Machine
end

section
/-! PROOFS. NOP and SPLAT (spec/42_lane_alu.md R180, R181): the one word of NOP, what a CMD write of it does
in each case of R47, and SPLAT's lanes, frame and word. -/

namespace Sys2Proof

/-! ## The words of the two commands -/

/-- No bit of NOP's format is an operand bit, so no other word with its OP decodes (R103, R180). -/
theorem eq_nopWord_of_decode {W : Width} {w : CmdWord} {i : Instr} (hop : opOf w = 0x01#6)
    (hd : decode W w = some i) : w = 0x04000000#32 := by
  obtain ⟨fmt, build, hrow, hmask, -, -⟩ := decode_eq_some_iff.mp hd
  rw [hop] at hrow hmask
  obtain ⟨rfl, -⟩ : Format.x = fmt ∧ (fun _ => Instr.nop) = build := by simpa [opRow] using hrow
  calc w = w &&& Format.x.mask := BitVec.and_allOnes.symm
    _ = place 0x01#6 26 := hmask
    _ = 0x04000000#32 := by decide

theorem decode_eq_none_of_nop_reserved {w : CmdWord} (W : Width) (hop : opOf w = 0x01#6)
    (hres : w.extractLsb' 0 26 ≠ 0#26) : decode W w = none := by
  refine Option.eq_none_iff_forall_ne_some.mpr fun i hd => hres ?_
  rw [eq_nopWord_of_decode hop hd]
  decide

theorem decode_nopWord (W : Width) : decode W 0x04000000#32 = some .nop :=
  decode_eq_some_iff.mpr ⟨.x, fun _ => .nop, rfl, by decide, rfl, rfl⟩

/-- A word of SPLAT's format as a number: OP, D and IMM8 at their places (R101, R103). -/
theorem toNat_encSP (op : BitVec 6) (d : VReg) (imm8 : Byte) :
    (encSP op d imm8).toNat = op.toNat * 2 ^ 26 + d.val * 2 ^ 23 + imm8.toNat := by
  have hop : (place op 26).toNat = op.toNat * 2 ^ 26 := toNat_place op (by decide)
  have hd : (place op 26 ||| place (bits3 d) 23).toNat = op.toNat * 2 ^ 26 + d.val * 2 ^ 23 := by
    rw [toNat_or_place _ (by decide) (by rw [hop]; omega), hop]
    rfl
  rw [encSP, toNat_or_place _ (by decide) (by rw [hd]; omega), hd, Nat.pow_zero, Nat.mul_one]

end Sys2Proof

namespace Sys2Proof.Machine

/-! ## What the two commands do -/

@[simp] theorem exec_nop (s : State) : exec .nop s = .next s := rfl

@[simp] theorem exec_splat (vd : VReg) (imm8 : Byte) (s : State) :
    exec (.splat vd imm8) s = .next (s.setV vd (bcast imm8)) := rfl

/-- While BUSY or with an error recorded a CMD write is dropped, whatever the word (R47). -/
theorem writeCmd_dropped (v : Word64) {s : State} (h : s.busy = true ∨ s.err ≠ .none) :
    writeCmd v s = .next s.dropWrite := by
  rw [writeCmd, if_pos (by simpa using h)]

/-- The word of a CMD write is the low half of the value written (R47). -/
theorem extractLsb'_zeroExtend_word (w : CmdWord) : (w.zeroExtend 64).extractLsb' 0 32 = w := by
  rw [← BitVec.setWidth_eq_extractLsb' (by decide), BitVec.setWidth_setWidth_of_le _ (by decide),
    BitVec.setWidth_eq]

/-! ## The statements -/

/-- Settles O19: NOP's word is the only one with its OP that decodes, so any other raises ILLEGAL. -/
theorem nopChangesNothing : Obligations.NopChangesNothing := by
  refine ⟨exec_nop, decode_nopWord, fun s w hb he hop hres => ?_, fun s h => ?_⟩
  · have hd : decode s.inst.width ((w.zeroExtend 64).extractLsb' 0 32) = none := by
      rw [extractLsb'_zeroExtend_word]
      exact decode_eq_none_of_nop_reserved _ hop hres
    rw [hostAct_regWrite (by decide), writeReg_cmd, writeCmd_illegal hb he hd,
      extractLsb'_zeroExtend_word]
    rfl
  · rw [hostAct_regWrite (by decide), writeReg_cmd, writeCmd_dropped _ h]
    rfl

/-- Settles O20: SPLAT is one `setV` of a constant lane function, and its word is of format SP. -/
theorem splatBroadcasts : Obligations.SplatBroadcasts := by
  intro s vd imm8
  refine ⟨⟨s.setV vd (bcast imm8), exec_splat vd imm8 s, s.writesLanes_setV vd (bcast imm8)⟩, ?_, ?_⟩
  · rfl
  · exact toNat_encSP 0x07#6 vd imm8

end Sys2Proof.Machine
end

section
/-! PROOFS. The lane reorder commands (spec/43_lane_reorder.md R210 to R215): the operand constraints that
make a command illegal, the widths of a group, and the order in which interleaving and permuting the
groups leave the pairs of two registers. -/

namespace Sys2Proof

/-! ## The operand constraints of R108 -/

/-- Every word that decodes keeps the two operand constraints. -/
theorem operands_of_decode {W : Width} {w : CmdWord} {i : Instr} (h : decode W w = some i) :
    ¬((opOf w).toNat = 0x03 ∧ (Fields.of w).d = (Fields.of w).a) ∧
    ¬(W = .w1 ∧ 0x20 ≤ (opOf w).toNat ∧ (opOf w).toNat ≤ 0x23) := by
  obtain ⟨fmt, build, hrow, -, rfl, hwf⟩ := decode_eq_some_iff.mp h
  exact (wf_build_iff hrow W _).mp hwf

theorem decode_ld2_same (W : Width) (r : VReg) : decode W (encode (.ld2 r r)) = none := by
  refine Option.eq_none_iff_forall_ne_some.mpr fun i h => (operands_of_decode h).1 ⟨?_, ?_⟩
  · rw [encode, opOf_encL2]; rfl
  · rw [encode, d_encL2, a_encL2]

theorem decode_w1_reorder {op : BitVec 6} (hop : 0x20 ≤ op.toNat ∧ op.toNat ≤ 0x23)
    (vd va vb : VReg) : decode .w1 (encR3 op vd va vb) = none := by
  refine Option.eq_none_iff_forall_ne_some.mpr fun i h => (operands_of_decode h).2 ⟨rfl, ?_⟩
  rwa [opOf_encR3]

end Sys2Proof

namespace Sys2Proof.Machine

/-! ## LD2 with D = E (R108, R231) -/

theorem State.raise_illegal (s : State) (w : CmdWord) :
    s.raise .illegal w 0#64 = { s with err := .illegal, errcmd := w, erraddr := 0#64 } := rfl

theorem exec_ld2_same (r : VReg) (s : State) :
    exec (.ld2 r r) s = .next (s.raise .illegal (encode (.ld2 r r)) 0#64) :=
  if_pos rfl

/-! ## The four reorder commands -/

theorem exec_ilvlo (vd va vb : VReg) (s : State) : exec (.ilvlo vd va vb) s =
    reorder (.ilvlo vd va vb) (fun s => interleaveLane s.group 0) vd va vb s := rfl

theorem exec_ilvhi (vd va vb : VReg) (s : State) : exec (.ilvhi vd va vb) s =
    reorder (.ilvhi vd va vb) (fun s => interleaveLane s.group (s.group / 2)) vd va vb s := rfl

theorem exec_zipglo (vd va vb : VReg) (s : State) : exec (.zipglo vd va vb) s =
    reorder (.zipglo vd va vb) (fun s => zipGroupLane s.group 0) vd va vb s := rfl

theorem exec_zipghi (vd va vb : VReg) (s : State) : exec (.zipghi vd va vb) s =
    reorder (.zipghi vd va vb) (fun s => zipGroupLane s.group s.groups) vd va vb s := rfl

theorem reorder_w1 {s : State} (h : s.inst.width = .w1) (i : Instr)
    (p : State → (Nat → Byte) → (Nat → Byte) → Nat → Byte) (vd va vb : VReg) :
    reorder i p vd va vb s = .next (s.raise .illegal (encode i) 0#64) :=
  if_pos h

theorem reorder_wide {s : State} (h : s.inst.width ≠ .w1) (i : Instr)
    (p : State → (Nat → Byte) → (Nat → Byte) → Nat → Byte) (vd va vb : VReg) :
    reorder i p vd va vb s = .next (s.setV vd (p s (s.lane va) (s.lane vb))) :=
  if_neg h

section
variable {s : State} (h : s.inst.width ≠ .w1) (vd va vb : VReg)
include h

theorem exec_ilvlo_writes : ∃ t, exec (.ilvlo vd va vb) s = .next t ∧
    WritesLanes s t vd (interleaveLane s.group 0 (s.lane va) (s.lane vb)) :=
  ⟨_, (exec_ilvlo ..).trans (reorder_wide h ..), s.writesLanes_setV ..⟩

theorem exec_ilvhi_writes : ∃ t, exec (.ilvhi vd va vb) s = .next t ∧
    WritesLanes s t vd (interleaveLane s.group (s.group / 2) (s.lane va) (s.lane vb)) :=
  ⟨_, (exec_ilvhi ..).trans (reorder_wide h ..), s.writesLanes_setV ..⟩

theorem exec_zipglo_writes : ∃ t, exec (.zipglo vd va vb) s = .next t ∧
    WritesLanes s t vd (zipGroupLane s.group 0 (s.lane va) (s.lane vb)) :=
  ⟨_, (exec_zipglo ..).trans (reorder_wide h ..), s.writesLanes_setV ..⟩

theorem exec_zipghi_writes : ∃ t, exec (.zipghi vd va vb) s = .next t ∧
    WritesLanes s t vd (zipGroupLane s.group s.groups (s.lane va) (s.lane vb)) :=
  ⟨_, (exec_zipghi ..).trans (reorder_wide h ..), s.writesLanes_setV ..⟩

end

/-! ## The groups of a register (R7, R210) -/

/-- G is even and n is 1, 2 or 4. -/
theorem State.group_even_groups_mem {s : State} (h : s.inst.width ≠ .w1) :
    s.group % 2 = 0 ∧ s.groups ∈ [1, 2, 4] := by
  unfold State.groups State.group State.lanes
  cases hw : s.inst.width
  case w1 => exact absurd hw h
  all_goals decide

theorem State.group_pos (s : State) : 0 < s.group := Nat.lt_min.mpr ⟨s.lanes_pos, by decide⟩

/-- The n groups are the W lanes. -/
theorem State.groups_mul_group (s : State) : s.groups * s.group = s.lanes := by
  unfold State.groups State.group State.lanes
  cases s.inst.width <;> decide

/-! ## The statement about operands -/

/-- Settles O18: the decoder keeps R108's constraints and the commands' own rules check them again; the
groups are those of the four widths above 1. -/
theorem operandConstraintsRaiseIllegal : Obligations.OperandConstraintsRaiseIllegal := by
  refine ⟨fun s r => ⟨decode_ld2_same _ r, exec_ld2_same r s⟩, fun s i vd va vb hw hi => ?_,
    fun s => State.group_even_groups_mem⟩
  rw [hw, ← State.raise_illegal]
  simp only [List.mem_cons, List.not_mem_nil, or_false] at hi
  obtain rfl | rfl | rfl | rfl := hi
  · exact ⟨decode_w1_reorder (by decide) vd va vb, (exec_ilvlo vd va vb s).trans (reorder_w1 hw ..)⟩
  · exact ⟨decode_w1_reorder (by decide) vd va vb, (exec_ilvhi vd va vb s).trans (reorder_w1 hw ..)⟩
  · exact ⟨decode_w1_reorder (by decide) vd va vb, (exec_zipglo vd va vb s).trans (reorder_w1 hw ..)⟩
  · exact ⟨decode_w1_reorder (by decide) vd va vb, (exec_zipghi vd va vb s).trans (reorder_w1 hw ..)⟩

/-! ## Runs that change lane registers only -/

/-- Nothing outside the lane registers and their `init` bits has changed. -/
def OnlyLanesChanged (s t : State) : Prop := t = { s with v := t.v, init := t.init }

section
variable {s t u : State}

theorem OnlyLanesChanged.inst (h : OnlyLanesChanged s t) : t.inst = s.inst := by rw [h]

theorem OnlyLanesChanged.lanes (h : OnlyLanesChanged s t) : t.lanes = s.lanes := State.lanes_congr h.inst

theorem OnlyLanesChanged.group (h : OnlyLanesChanged s t) : t.group = s.group := by
  rw [State.group, h.lanes, State.group]

theorem OnlyLanesChanged.groups (h : OnlyLanesChanged s t) : t.groups = s.groups := by
  rw [State.groups, h.lanes, h.group, State.groups]

theorem OnlyLanesChanged.trans (h : OnlyLanesChanged s t) (h' : OnlyLanesChanged t u) :
    OnlyLanesChanged s u :=
  Eq.trans h' (congrArg (fun x : State => { x with v := u.v, init := u.init }) h)

theorem WritesLanes.onlyLanesChanged {vd : VReg} {f : Nat → Byte} (h : WritesLanes s t vd f) :
    OnlyLanesChanged s t :=
  h.rest

theorem WritesLanes.lane_other {vd : VReg} {f : Nat → Byte} (h : WritesLanes s t vd f) {r : VReg}
    (hr : r ≠ vd) : t.lane r = s.lane r := by
  funext i
  rw [State.lane, h.others r hr, State.lane]

theorem runCommands_cons {i : Instr} (h : exec i s = .next t) (is : List Instr) :
    runCommands (i :: is) s = runCommands is t := by
  rw [runCommands, h]

theorem runCommands_append {is : List Instr} (h : runCommands is s = .next t) (js : List Instr) :
    runCommands (is ++ js) s = runCommands js t := by
  induction is generalizing s with
  | nil => cases h; rfl
  | cons i is ih =>
    obtain ⟨u, hu⟩ := exec_next i s
    rw [runCommands_cons hu] at h
    rw [List.cons_append, runCommands_cons hu, ih h]

end

/-! ## Split and map -/

/-- N2A of the shifted byte is the digit of the high nibble, N2A of the masked one that of the low
(R160, R215). -/
theorem n2aByte_ushiftRight_four (m : Mapper) (c : CaseMode) (x : Byte) :
    n2aByte m c (x >>> 4) = hexdigit (hiNibble x) c := by
  rw [n2aByte_eq_hexdigit, ushiftRight_four_eq_hiNibble, loNibble_zeroExtend]

theorem n2aByte_and_fifteen (m : Mapper) (c : CaseMode) (x : Byte) :
    n2aByte m c (x &&& 0x0F#8) = hexdigit (loNibble x) c := by
  rw [n2aByte_eq_hexdigit, and_fifteen_eq_loNibble, loNibble_zeroExtend]

theorem exec_shri_writes (vd va : VReg) (sh : ShiftAmt) (s : State) :
    ∃ t, exec (.shri vd va sh) s = .next t ∧ WritesLanes s t vd fun i => s.lane va i >>> sh.val :=
  ⟨_, rfl, laneMap1_writes ..⟩

theorem exec_andi_writes (vd va : VReg) (imm8 : Byte) (s : State) :
    ∃ t, exec (.andi vd va imm8) s = .next t ∧ WritesLanes s t vd fun i => s.lane va i &&& imm8 :=
  ⟨_, rfl, laneMapImm_writes ..⟩

theorem exec_n2a_writes (vd va : VReg) (c : CaseMode) (s : State) :
    ∃ t, exec (.n2a vd va c) s = .next t ∧
      WritesLanes s t vd fun i => n2aByte s.inst.mapper c (s.lane va i) :=
  ⟨_, rfl, laneMap1_writes ..⟩

/-- V1 holds the digits of the high nibbles of V0, V2 those of the low ones. -/
theorem runCommands_splitAndMap (s : State) (c : CaseMode) :
    ∃ t, runCommands [.shri 1 0 4, .andi 2 0 0x0F#8, .n2a 1 1 c, .n2a 2 2 c] s = .next t ∧
      OnlyLanesChanged s t ∧ ∀ i, i < s.lanes →
        t.lane 1 i = hexdigit (hiNibble (s.lane 0 i)) c ∧
        t.lane 2 i = hexdigit (loNibble (s.lane 0 i)) c := by
  obtain ⟨t₁, e₁, w₁⟩ := exec_shri_writes 1 0 4 s
  obtain ⟨t₂, e₂, w₂⟩ := exec_andi_writes 2 0 0x0F#8 t₁
  obtain ⟨t₃, e₃, w₃⟩ := exec_n2a_writes 1 1 c t₂
  obtain ⟨t₄, e₄, w₄⟩ := exec_n2a_writes 2 2 c t₃
  have h₁ : OnlyLanesChanged s t₁ := w₁.onlyLanesChanged
  have h₂ : OnlyLanesChanged s t₂ := h₁.trans w₂.onlyLanesChanged
  have h₃ : OnlyLanesChanged s t₃ := h₂.trans w₃.onlyLanesChanged
  refine ⟨t₄, ?_, h₃.trans w₄.onlyLanesChanged, fun i hi => ⟨?_, ?_⟩⟩
  · rw [runCommands_cons e₁, runCommands_cons e₂, runCommands_cons e₃, runCommands_cons e₄, runCommands]
  · calc t₄.lane 1 i = t₃.lane 1 i := by rw [w₄.lane_other (by decide)]
      _ = n2aByte t₂.inst.mapper c (t₂.lane 1 i) := w₃.lanes i (h₂.lanes.symm ▸ hi)
      _ = n2aByte t₂.inst.mapper c (s.lane 0 i >>> 4) := by
        rw [w₂.lane_other (by decide), w₁.lanes i hi]; rfl
      _ = hexdigit (hiNibble (s.lane 0 i)) c := n2aByte_ushiftRight_four ..
  · calc t₄.lane 2 i = n2aByte t₃.inst.mapper c (t₃.lane 2 i) := w₄.lanes i (h₃.lanes.symm ▸ hi)
      _ = n2aByte t₃.inst.mapper c (t₁.lane 0 i &&& 0x0F#8) := by
        rw [w₃.lane_other (by decide), w₂.lanes i (h₁.lanes.symm ▸ hi)]
      _ = hexdigit (loNibble (s.lane 0 i)) c := by
        rw [w₁.lane_other (by decide), n2aByte_and_fifteen]

/-! ## The order of the pairs (R215) -/

/-- Position `q` of the sequence a[0], b[0], a[1], b[1], … -/
def alternating (a b : Nat → Byte) (q : Nat) : Byte := if q % 2 = 0 then a (q / 2) else b (q / 2)

theorem alternating_two_mul (a b : Nat → Byte) (i : Nat) : alternating a b (2 * i) = a i := by
  simp [alternating]

theorem alternating_two_mul_add_one (a b : Nat → Byte) (i : Nat) :
    alternating a b (2 * i + 1) = b i := by
  simp [alternating, Nat.mul_add_div]

/-- The groups from `first` on are the sequence S from position `first * G` on (R214). -/
theorem zipGroupLane_first {G : Nat} (hG : 0 < G) (first : Nat) (a b : Nat → Byte) (j : Nat) :
    zipGroupLane G first a b j = zipGroupLane G 0 a b (first * G + j) := by
  have hdiv : (first * G + j) / G = j / G + first := by
    rw [Nat.add_comm, Nat.add_mul_div_right _ _ hG]
  have hmod : (first * G + j) % G = j % G := Nat.mul_add_mod_self_right ..
  simp only [zipGroupLane, Nat.add_zero, hdiv, hmod]

theorem zipGroupLane_congr {G n : Nat} {a b a' b' : Nat → Byte} (ha : ∀ i < n * G, a i = a' i)
    (hb : ∀ i < n * G, b i = b' i) {q : Nat} (hq : q < 2 * (n * G)) :
    zipGroupLane G 0 a b q = zipGroupLane G 0 a' b' q := by
  have hG : 0 < G := Nat.pos_of_ne_zero (by rintro rfl; simp at hq)
  have hmod : q % G < G := Nat.mod_lt q hG
  have hgroup : q / G < 2 * n := Nat.div_lt_of_lt_mul (by rwa [Nat.mul_left_comm, Nat.mul_comm G])
  have hend : (q / G / 2 + 1) * G ≤ n * G := Nat.mul_le_mul_right G (by omega)
  have hsrc : q / G / 2 * G + q % G < n * G := by rw [Nat.succ_mul] at hend; omega
  simp only [zipGroupLane, Nat.add_zero, ha _ hsrc, hb _ hsrc]

theorem interleaveLane_mul_add {G p : Nat} (hp : p < G) (base : Nat) (a b : Nat → Byte) (u : Nat) :
    interleaveLane G base a b (u * G + p) =
      if p % 2 = 0 then a (u * G + base + p / 2) else b (u * G + base + p / 2) := by
  have hdiv : (u * G + p) / G = u := Nat.div_eq_of_lt_le (by omega) (by rw [Nat.succ_mul]; omega)
  have hmod : (u * G + p) % G = p := Nat.mul_add_mod_of_lt hp
  simp only [interleaveLane, hdiv, hmod]

/-- Where position `t * G + p` falls among the pairs, for G = 2H: each group before it holds H pairs, so an
odd group begins half a group further on (R215). -/
theorem half_position (H t p : Nat) :
    t / 2 * (2 * H) + t % 2 * H + p / 2 = (t * (2 * H) + p) / 2 := by
  have ht : t * H = 2 * (t / 2 * H) + t % 2 * H := by
    rw [← Nat.mul_assoc, ← Nat.add_mul, Nat.div_add_mod]
  have hswap (k : Nat) : k * (2 * H) = 2 * (k * H) := Nat.mul_left_comm k 2 H
  rw [hswap, hswap]
  omega

/-- The heart of R215: group t of S holds the G/2 pairs from `t * G/2` on, from the low halves if t is even
and from the high ones if t is odd. -/
theorem zipGroupLane_interleaveLane {G : Nat} (hG : 0 < G) (h2 : G % 2 = 0) (a b : Nat → Byte) (q : Nat) :
    zipGroupLane G 0 (interleaveLane G 0 a b) (interleaveLane G (G / 2) a b) q = alternating a b q := by
  have hp : q % G < G := Nat.mod_lt q hG
  have hpar : q % G % 2 = q % 2 := Nat.mod_mod_of_dvd q (Nat.dvd_of_mod_eq_zero h2)
  have hhalf : q / G / 2 * G + q / G % 2 * (G / 2) + q % G / 2 = q / 2 := by
    have h := half_position (G / 2) (q / G) (q % G)
    rwa [Nat.mul_div_cancel' (Nat.dvd_of_mod_eq_zero h2), Nat.div_add_mod'] at h
  simp only [zipGroupLane, Nat.add_zero, interleaveLane_mul_add hp, alternating, hpar]
  rcases Nat.mod_two_eq_zero_or_one (q / G) with ht | ht
  · rw [ht, Nat.zero_mul, Nat.add_zero] at hhalf
    rw [if_pos ht, hhalf]
  · rw [ht, Nat.one_mul] at hhalf
    rw [if_neg (by omega), hhalf]

/-! ## Interleave and permute -/

/-- Two registers that hold the halves of a sequence hold it one after the other. -/
theorem State.lanesOf_append_getElem? {t : State} {r r' : VReg} {f : Nat → Byte}
    (hlow : ∀ i < t.lanes, t.lane r i = f i) (hhigh : ∀ i < t.lanes, t.lane r' i = f (t.lanes + i))
    {q : Nat} (hq : q < 2 * t.lanes) : (t.lanesOf r ++ t.lanesOf r')[q]? = some (f q) := by
  by_cases h : q < t.lanes
  · rw [List.getElem?_append_left (by simpa using h)]
    simp [State.lanesOf, h, hlow]
  · rw [List.getElem?_append_right (by simpa using h)]
    have hr : q - t.lanes < t.lanes := by omega
    simp [State.lanesOf, hr, hhigh, Nat.add_sub_cancel' (Nat.le_of_not_lt h)]

/-- V3 holds the low pairs of each group of V1 and V2, V4 the high ones. -/
theorem runCommands_interleave {s : State} (h : s.inst.width ≠ .w1) :
    ∃ t, runCommands [.ilvlo 3 1 2, .ilvhi 4 1 2] s = .next t ∧ OnlyLanesChanged s t ∧
      ∀ i, i < s.lanes →
        t.lane 3 i = interleaveLane s.group 0 (s.lane 1) (s.lane 2) i ∧
        t.lane 4 i = interleaveLane s.group (s.group / 2) (s.lane 1) (s.lane 2) i := by
  obtain ⟨t₁, e₁, w₁⟩ := exec_ilvlo_writes h 3 1 2
  have h₁ : OnlyLanesChanged s t₁ := w₁.onlyLanesChanged
  obtain ⟨t₂, e₂, w₂⟩ := exec_ilvhi_writes (h₁.inst ▸ h) 4 1 2
  rw [h₁.group, w₁.lane_other (by decide), w₁.lane_other (by decide)] at w₂
  refine ⟨t₂, ?_, h₁.trans w₂.onlyLanesChanged, fun i hi => ⟨?_, w₂.lanes i (h₁.lanes ▸ hi)⟩⟩
  · rw [runCommands_cons e₁, runCommands_cons e₂, runCommands]
  · rw [w₂.lane_other (by decide), w₁.lanes i hi]

/-- V5 then V6 hold the groups of V3 and V4 in turn. -/
theorem runCommands_zip {s : State} (h : s.inst.width ≠ .w1) :
    ∃ t, runCommands [.zipglo 5 3 4, .zipghi 6 3 4] s = .next t ∧ OnlyLanesChanged s t ∧
      ∀ q, q < 2 * s.lanes →
        (t.lanesOf 5 ++ t.lanesOf 6)[q]? = some (zipGroupLane s.group 0 (s.lane 3) (s.lane 4) q) := by
  obtain ⟨t₁, e₁, w₁⟩ := exec_zipglo_writes h 5 3 4
  have h₁ : OnlyLanesChanged s t₁ := w₁.onlyLanesChanged
  obtain ⟨t₂, e₂, w₂⟩ := exec_zipghi_writes (h₁.inst ▸ h) 6 3 4
  rw [h₁.group, h₁.groups, w₁.lane_other (by decide), w₁.lane_other (by decide)] at w₂
  have h₂ : OnlyLanesChanged s t₂ := h₁.trans w₂.onlyLanesChanged
  refine ⟨t₂, ?_, h₂, fun q hq => ?_⟩
  · rw [runCommands_cons e₁, runCommands_cons e₂, runCommands]
  refine State.lanesOf_append_getElem? (fun i hi => ?_) (fun i hi => ?_) (h₂.lanes.symm ▸ hq)
  · rw [w₂.lane_other (by decide)]
    exact w₁.lanes i (h₂.lanes ▸ hi)
  · rw [w₂.lanes i (w₂.onlyLanesChanged.lanes ▸ hi), zipGroupLane_first s.group_pos,
      s.groups_mul_group, h₂.lanes]

/-- V5 then V6 hold the pairs of V1 and V2 in order (R215). -/
theorem runCommands_interleaveAndZip {s : State} (h : s.inst.width ≠ .w1) :
    ∃ t, runCommands [.ilvlo 3 1 2, .ilvhi 4 1 2, .zipglo 5 3 4, .zipghi 6 3 4] s = .next t ∧
      OnlyLanesChanged s t ∧ ∀ q, q < 2 * s.lanes →
        (t.lanesOf 5 ++ t.lanesOf 6)[q]? = some (alternating (s.lane 1) (s.lane 2) q) := by
  obtain ⟨t, et, ht, hlanes⟩ := runCommands_interleave h
  obtain ⟨u, eu, hu, htext⟩ := runCommands_zip (s := t) (ht.inst ▸ h)
  refine ⟨u, (runCommands_append et _).trans eu, ht.trans hu, fun q hq => ?_⟩
  have hS : zipGroupLane s.group 0 (t.lane 3) (t.lane 4) q = alternating (s.lane 1) (s.lane 2) q := by
    rw [← zipGroupLane_interleaveLane s.group_pos (State.group_even_groups_mem h).1]
    rw [← s.groups_mul_group] at hlanes hq
    exact zipGroupLane_congr (fun i hi => (hlanes i hi).1) (fun i hi => (hlanes i hi).2) hq
  rw [htext q (ht.lanes.symm ▸ hq), ht.group, hS]

/-- Settles O35: the digits of the nibbles stand in V1 and V2, and interleaving and permuting leave their
pairs in order. -/
theorem reorderedRegistersHoldTheHexText : Obligations.ReorderedRegistersHoldTheHexText := by
  intro s c h
  obtain ⟨t, et, ht, hdigits⟩ := runCommands_splitAndMap s c
  obtain ⟨u, eu, -, htext⟩ := runCommands_interleaveAndZip (s := t) (ht.inst ▸ h)
  refine ⟨u, (runCommands_append et _).trans eu, fun i hi => ?_⟩
  obtain ⟨hhigh, hlow⟩ := hdigits i hi
  rw [htext _ (by rw [ht.lanes]; omega), htext _ (by rw [ht.lanes]; omega), alternating_two_mul,
    alternating_two_mul_add_one, hhigh, hlow]
  exact ⟨rfl, rfl⟩

end Sys2Proof.Machine
end

section
/-! PROOFS. Micro-ops and CNT (spec/44_load_store.md R236): the shapes a command's rule is built from ignore
CNT, so every command but ENC and DEC does. -/

namespace Sys2Proof.Machine

/-! ## Rules that ignore CNT -/

/-- Run with another CNT, the rule `f` ends in the same state with that CNT. -/
def IgnoresCnt (f : State → Host.Outcome State Fault Refusal) : Prop :=
  ∀ (s t : State) (c : Word64), f s = .next t → f { s with cnt := c } = .next { t with cnt := c }

/-- Run with the CNT it has, a state ends with that CNT. -/
theorem IgnoresCnt.cnt_eq {f : State → Host.Outcome State Fault Refusal} (h : IgnoresCnt f)
    {s t : State} (hst : f s = .next t) : t.cnt = s.cnt := by
  have hsame : t = { t with cnt := s.cnt } :=
    Host.Outcome.next.inj (hst.symm.trans (h s t s.cnt hst))
  rw [hsame]

theorem ignoresCnt_next {g : State → State}
    (hg : ∀ (s : State) (c : Word64), g { s with cnt := c } = { g s with cnt := c }) :
    IgnoresCnt fun s => .next (g s) := by
  rintro s _ c ⟨⟩
  exact congrArg Host.Outcome.next (hg s c)

theorem ignoresCnt_ite {p : State → Prop} [DecidablePred p]
    {f g : State → Host.Outcome State Fault Refusal}
    (hp : ∀ (s : State) (c : Word64), p { s with cnt := c } ↔ p s)
    (hf : IgnoresCnt f) (hg : IgnoresCnt g) : IgnoresCnt fun s => if p s then f s else g s := by
  intro s t c hst
  by_cases h : p s
  · exact (if_pos ((hp s c).mpr h)).trans (hf s t c ((if_pos h).symm.trans hst))
  · exact (if_neg (mt (hp s c).mp h)).trans (hg s t c ((if_neg h).symm.trans hst))

theorem ignoresCnt_raise (e : ErrCode) (w : CmdWord) (a : State → Addr)
    (ha : ∀ (s : State) (c : Word64), a { s with cnt := c } = a s) :
    IgnoresCnt fun s => .next (s.raise e w (a s)) :=
  ignoresCnt_next fun s c => by rw [ha]; rfl

/-! ## Loads, stores and reorder commands -/

theorem ignoresCnt_loadAtSrc (i : Instr) (n : State → Nat) (write : List Byte → State → State)
    (hn : ∀ (s : State) (c : Word64), n { s with cnt := c } = n s)
    (hw : ∀ (b : List Byte) (s : State) (c : Word64),
      write b { s with cnt := c } = { write b s with cnt := c }) :
    IgnoresCnt fun s => loadAtSrc i (n s) write s := by
  refine ignoresCnt_ite (fun s c => by rw [hn]) (ignoresCnt_next fun s c => ?_)
    (ignoresCnt_raise _ _ State.src fun _ _ => rfl)
  rw [hn]
  exact congrArg (State.advanceSrc · (n s))
    (hw (s.unitBytes s.src (n s)) (s.afterUnitRead s.src (n s)) c)

theorem ignoresCnt_storeAtDst (i : Instr) (data : State → List Byte)
    (hd : ∀ (s : State) (c : Word64), data { s with cnt := c } = data s) :
    IgnoresCnt fun s => storeAtDst i (data s) s :=
  ignoresCnt_ite (fun s c => by rw [hd]) (ignoresCnt_next fun s c => by rw [hd]; rfl)
    (ignoresCnt_raise _ _ State.dst fun _ _ => rfl)

theorem ignoresCnt_reorder (i : Instr) (pick : State → (Nat → Byte) → (Nat → Byte) → Nat → Byte)
    (vd va vb : VReg) (hp : ∀ (s : State) (c : Word64), pick { s with cnt := c } = pick s) :
    IgnoresCnt (reorder i pick vd va vb) :=
  ignoresCnt_ite (fun _ _ => Iff.rfl) (ignoresCnt_raise _ _ _ fun _ _ => rfl)
    (ignoresCnt_next fun s c => by rw [hp]; rfl)

/-! ## Every command but ENC and DEC -/

theorem ignoresCnt_exec {i : Instr} (h : i.isMacro = false) : IgnoresCnt (exec i) := by
  cases i
  case enc | dec => cases h
  case ld vd =>
    show IgnoresCnt (execLd vd)
    exact ignoresCnt_loadAtSrc _ _ _ (fun _ _ => rfl) fun _ _ _ => rfl
  case ldb vd =>
    show IgnoresCnt (execLdb vd)
    exact ignoresCnt_loadAtSrc _ _ _ (fun _ _ => rfl) fun _ _ _ => rfl
  case ld2 =>
    exact ignoresCnt_ite (fun _ _ => Iff.rfl) (ignoresCnt_raise _ _ _ fun _ _ => rfl)
      (ignoresCnt_loadAtSrc _ _ _ (fun _ _ => rfl) fun _ _ _ => rfl)
  case st | stb => exact ignoresCnt_storeAtDst _ _ fun _ _ => rfl
  case ilvlo | ilvhi | zipglo | zipghi => exact ignoresCnt_reorder _ _ _ _ _ fun _ _ => rfl
  -- NOP and the lane forms, which have one outcome.
  all_goals exact ignoresCnt_next fun _ _ => rfl

/-- Settles O42: no micro-op's rule looks at CNT, and one that ignores CNT cannot change it either. -/
theorem microOpsNeverTouchCnt : Obligations.MicroOpsNeverTouchCnt :=
  fun _ s t c h hst => ⟨(ignoresCnt_exec h).cnt_eq hst, ignoresCnt_exec h s t c hst⟩

end Sys2Proof.Machine
end

section
/-! PROOFS. Unit steps of the block state machine (spec/45_block_fsm.md R253 to R264): the equation of
each step, the steps a run has left, and that every run ends in the stated number of them or with a
MEM_FAULT. -/

namespace Sys2Proof.Machine

/-! ## The step, by MOP, MSTATE and CNT -/

section
variable {s : State}

theorem unitStep_enc_toTail (ho : s.mop = .enc) (hm : s.mstate = .bulk) (hc : s.cnt.toNat < s.lanes) :
    unitStep s = .next s.toTail := by
  simp [unitStep, encStep, ho, hm, hc]

theorem unitStep_dec_toTail (ho : s.mop = .dec) (hm : s.mstate = .bulk)
    (hc : s.cnt.toNat < 2 * s.lanes) : unitStep s = .next s.toTail := by
  simp [unitStep, decStep, ho, hm, hc]

theorem unitStep_finish (hm : s.mstate = .tail) (hc : s.cnt = 0#64) : unitStep s = .next s.finish := by
  cases ho : s.mop with
  | enc => simp [unitStep, encStep, ho, hm, hc]
  | dec => simp [unitStep, decStep, ho, hm, hc]

/-- With enough input left, each of the four block and element steps is a block move (R253, R255, R257,
R259). -/
theorem unitStep_move {nIn nOut : Nat}
    (h : s.mop = .enc ∧ s.mstate = .bulk ∧ nIn = s.lanes ∧ nOut = 2 * s.lanes ∨
      s.mop = .enc ∧ s.mstate = .tail ∧ nIn = 1 ∧ nOut = 2 ∨
      s.mop = .dec ∧ s.mstate = .bulk ∧ nIn = 2 * s.lanes ∧ nOut = s.lanes ∨
      s.mop = .dec ∧ s.mstate = .tail ∧ nIn = 2 ∧ nOut = 1)
    (hc : nIn ≤ s.cnt.toNat) : ∃ f, unitStep s = .next (moveBlock nIn nOut f s) := by
  rcases h with ⟨ho, hm, rfl, rfl⟩ | ⟨ho, hm, rfl, rfl⟩ | ⟨ho, hm, rfl, rfl⟩ | ⟨ho, hm, rfl, rfl⟩
  · exact ⟨encBlock s.mcase, by simp only [unitStep, encStep, ho, hm, if_pos hc]⟩
  · exact ⟨encBlock s.mcase, by simp only [unitStep, encStep, ho, hm, if_pos hc]⟩
  · exact ⟨decBlock, by simp only [unitStep, decStep, ho, hm, if_pos hc]⟩
  · exact ⟨decBlock, by simp only [unitStep, decStep, ho, hm, if_pos hc]⟩

end

/-! ## The block move -/

section
variable {s : State} {nIn nOut : Nat} (f : List Byte → List Byte)

theorem moveBlock_of_read_refused (hr : admitted s.inst .rd s.src nIn = false) :
    moveBlock nIn nOut f s = s.abort s.src := by
  simp [moveBlock, hr]

theorem moveBlock_of_write_refused (hr : admitted s.inst .rd s.src nIn = true)
    (hw : admitted s.inst .wr s.dst nOut = false) : moveBlock nIn nOut f s = s.abort s.dst := by
  simp [moveBlock, hr, hw]

end

/-- A block move stays in its state or ends the run. -/
theorem moveBlock_mstate (nIn nOut : Nat) (f : List Byte → List Byte) (s : State) :
    (moveBlock nIn nOut f s).mstate = s.mstate ∨ (moveBlock nIn nOut f s).mstate = .idle := by
  rcases moveBlock_cases nIn nOut f s with ⟨-, h⟩ | ⟨-, -, h⟩ | ⟨-, -, d, k, -, -, -, h⟩
  · exact .inr (by rw [h, State.abort_mstate])
  · exact .inr (by rw [h, State.abort_mstate])
  · exact .inl (by rw [h])

/-! ## The statements about one step -/

/-- In TAIL the unit stays there or goes to IDLE (R256, R260). -/
theorem unitStep_tail_ne_bulk {s t : State} (hm : s.mstate = .tail) (ht : unitStep s = .next t) :
    t.mstate ≠ .bulk := by
  rcases unitStep_cases s with ⟨hi, -⟩ | ⟨nIn, nOut, f, -, -, -, -, h⟩ | ⟨hb, -⟩ | ⟨-, -, h⟩ | ⟨-, -, -, h⟩
  · simp [hm] at hi
  · obtain rfl := Host.Outcome.next.inj (h.symm.trans ht)
    rcases moveBlock_mstate nIn nOut f s with hs | hs <;> simp [hs, hm]
  · simp [hm] at hb
  · obtain rfl := Host.Outcome.next.inj (h.symm.trans ht)
    simp
  · cases h.symm.trans ht

/-- Settles O49: the step's equation for each transition, and no way from TAIL back to BULK. -/
theorem transitionStepsOnlyMoveOn : Obligations.TransitionStepsOnlyMoveOn :=
  ⟨fun _ ho hm hc => unitStep_enc_toTail ho hm hc, fun _ _ hm hc => unitStep_finish hm hc,
    fun _ ho hm hc => unitStep_dec_toTail ho hm hc, fun _ _ hm hc => unitStep_finish hm hc,
    fun _ _ hm ht => unitStep_tail_ne_bulk hm ht⟩

/-- Settles O50: the step is a block move, which asks for its read range first and aborts before it
moves anything. -/
theorem unadmittedBlockAborts : Obligations.UnadmittedBlockAborts := by
  intro s nIn nOut h hc
  obtain ⟨f, hf⟩ := unitStep_move h hc
  constructor
  · intro hr
    rw [hf, moveBlock_of_read_refused f hr]
    rfl
  · intro hr hw
    rw [hf, moveBlock_of_write_refused f hr hw]
    rfl

/-! ## The steps a run has left -/

/-- The input elements that make one output unit: a byte for ENC, a pair of characters for DEC (R255,
R259). -/
def MOp.elementLen : MOp → Nat
  | .enc => 1
  | .dec => 2

theorem MOp.elementLen_pos (op : MOp) : 0 < op.elementLen := by cases op <;> decide

/-- The input elements of one BULK block (R253, R257). -/
def State.blockLen (s : State) : Nat := s.mop.elementLen * s.lanes

theorem State.blockLen_pos (s : State) : 0 < s.blockLen := Nat.mul_pos s.mop.elementLen_pos s.lanes_pos

/-- The unit steps from here to the end of a run that meets no MEM_FAULT (R264). -/
def State.stepsLeft (s : State) : Nat :=
  match s.mstate with
  | .idle => 0
  | .bulk => s.cnt.toNat / s.blockLen + 1 + s.cnt.toNat % s.blockLen / s.mop.elementLen + 1
  | .tail => s.cnt.toNat / s.mop.elementLen + 1

/-- What a running macro keeps from step to step: no error, and a whole number of elements to go (R45,
R259). -/
structure State.MidRun (s : State) : Prop where
  busy : s.busy = true
  no_error : s.err = .none
  whole : s.mop.elementLen ∣ s.cnt.toNat

section
variable {s : State}

theorem State.stepsLeft_bulk (hm : s.mstate = .bulk) : s.stepsLeft =
    s.cnt.toNat / s.blockLen + 1 + s.cnt.toNat % s.blockLen / s.mop.elementLen + 1 := by
  simp [State.stepsLeft, hm]

theorem State.stepsLeft_tail (hm : s.mstate = .tail) :
    s.stepsLeft = s.cnt.toNat / s.mop.elementLen + 1 := by
  simp [State.stepsLeft, hm]

/-- At acceptance the steps left are those R264 states. -/
theorem State.stepsLeft_eq_macroSteps (hm : s.mstate = .bulk) : s.stepsLeft = s.macroSteps := by
  rw [State.stepsLeft_bulk hm]
  cases ho : s.mop <;> simp [State.macroSteps, State.blockLen, MOp.elementLen, ho]

/-- The transition to TAIL is one of the steps counted (R254, R258). -/
theorem State.stepsLeft_toTail (hm : s.mstate = .bulk) (hc : s.cnt.toNat < s.blockLen) :
    s.stepsLeft = s.toTail.stepsLeft + 1 := by
  rw [State.stepsLeft_bulk hm, State.stepsLeft_tail s.toTail_mstate, Nat.div_eq_of_lt hc,
    Nat.mod_eq_of_lt hc, State.toTail_cnt, State.toTail_mop]
  omega

/-- What a step of a run consumes when it moves bytes: a block in BULK, one element in TAIL. -/
def State.Consumes (s : State) (n : Nat) : Prop :=
  s.mstate = .bulk ∧ n = s.blockLen ∨ s.mstate = .tail ∧ n = s.mop.elementLen

variable {n : Nat}

theorem State.Consumes.dvd (h : s.Consumes n) : s.mop.elementLen ∣ n := by
  rcases h with ⟨-, rfl⟩ | ⟨-, rfl⟩
  · exact Nat.dvd_mul_right _ _
  · exact Nat.dvd_refl _

/-- A step that moves bytes is never the last one. -/
theorem State.Consumes.one_lt_stepsLeft (h : s.Consumes n) (hc : n ≤ s.cnt.toNat) : 1 < s.stepsLeft := by
  rcases h with ⟨hm, -⟩ | ⟨hm, rfl⟩
  · rw [State.stepsLeft_bulk hm]
    exact Nat.succ_lt_succ (Nat.add_pos_left (Nat.succ_pos _) _)
  · have := Nat.div_pos hc s.mop.elementLen_pos
    rw [State.stepsLeft_tail hm]
    omega

theorem toNat_sub_ofNat_of_le {c : Word64} (h : n ≤ c.toNat) :
    (c - BitVec.ofNat 64 n).toNat = c.toNat - n := by
  have := c.isLt
  bv_omega

/-- Consuming a block or an element takes one from the steps left. -/
theorem State.Consumes.stepsLeft (h : s.Consumes n) (hc : n ≤ s.cnt.toNat) {t : State}
    (hi : t.inst = s.inst) (hm : t.mstate = s.mstate) (ho : t.mop = s.mop)
    (ht : t.cnt = s.cnt - BitVec.ofNat 64 n) : s.stepsLeft = t.stepsLeft + 1 := by
  have hb : t.blockLen = s.blockLen := by rw [State.blockLen, State.blockLen, ho, State.lanes_congr hi]
  have hcnt : t.cnt.toNat = s.cnt.toNat - n := by rw [ht, toNat_sub_ofNat_of_le hc]
  rcases h with ⟨hs, rfl⟩ | ⟨hs, rfl⟩
  · rw [State.stepsLeft_bulk hs, State.stepsLeft_bulk (hm.trans hs), hb, ho, hcnt,
      Nat.div_eq_sub_div s.blockLen_pos hc, Nat.mod_eq_sub_mod hc]
    omega
  · rw [State.stepsLeft_tail hs, State.stepsLeft_tail (hm.trans hs), ho, hcnt,
      Nat.div_eq_sub_div s.mop.elementLen_pos hc]

end

/-! ## One step of a run -/

/-- What a step of a run from `s` to `t` does: the run goes on with one step less to go, or this was its
last step, or it ends early with a MEM_FAULT. -/
inductive Progress (s t : State) : Prop
  | goesOn (run : t.MidRun) (left : s.stepsLeft = t.stepsLeft + 1)
  | finished (idle : t.busy = false) (no_error : t.err = .none) (is_done : t.done = true)
      (last : s.stepsLeft = 1)
  | faulted (idle : t.busy = false) (fault : t.err = .memFault) (early : 1 < s.stepsLeft)

section
variable {s : State} (h : s.MidRun)
include h

theorem State.MidRun.progress_moveBlock {nIn : Nat} (hn : s.Consumes nIn) (hc : nIn ≤ s.cnt.toNat)
    (nOut : Nat) (f : List Byte → List Byte) : Progress s (moveBlock nIn nOut f s) := by
  rcases moveBlock_cases nIn nOut f s with ⟨-, hs⟩ | ⟨-, -, hs⟩ | ⟨-, -, d, k, -, -, -, hs⟩
  · exact hs ▸ .faulted rfl rfl (hn.one_lt_stepsLeft hc)
  · exact hs ▸ .faulted rfl rfl (hn.one_lt_stepsLeft hc)
  · rw [hs]
    refine .goesOn ⟨h.busy, h.no_error, ?_⟩ (hn.stepsLeft hc rfl rfl rfl rfl)
    show s.mop.elementLen ∣ (s.cnt - BitVec.ofNat 64 nIn).toNat
    rw [toNat_sub_ofNat_of_le hc]
    exact Nat.dvd_sub h.whole hn.dvd

theorem State.MidRun.progress_toTail (hm : s.mstate = .bulk) (hc : s.cnt.toNat < s.blockLen) :
    Progress s s.toTail :=
  .goesOn ⟨rfl, h.no_error, h.whole⟩ (State.stepsLeft_toTail hm hc)

theorem State.MidRun.progress_finish (hm : s.mstate = .tail) (hc : s.cnt.toNat = 0) :
    Progress s s.finish :=
  .finished rfl h.no_error rfl (by rw [State.stepsLeft_tail hm, hc, Nat.zero_div])

/-- A run always has a step, and it makes progress. -/
theorem State.MidRun.exists_step : ∃ t, unitStep s = .next t ∧ Progress s t := by
  rcases unitStep_cases s with ⟨hm, -⟩ | ⟨nIn, nOut, f, -, -, hc, hn, hs⟩ | ⟨hm, hc, hs⟩ | ⟨hm, hc, hs⟩ |
    ⟨-, ho, hc, -⟩
  · exact absurd h.busy (by simp [State.busy, hm])
  · have hcons : s.Consumes nIn := by
      rcases hn with ⟨hm, ho, rfl, -⟩ | ⟨hm, ho, rfl, -⟩ | ⟨hm, ho, rfl, -⟩ | ⟨hm, ho, rfl, -⟩ <;>
        simp [State.Consumes, State.blockLen, MOp.elementLen, hm, ho]
    exact ⟨_, hs, h.progress_moveBlock hcons hc nOut f⟩
  · have hlt : s.cnt.toNat < s.blockLen := by
      cases ho : s.mop <;> simpa [State.blockLen, MOp.elementLen, ho] using hc
    exact ⟨_, hs, h.progress_toTail hm hlt⟩
  · exact ⟨_, hs, h.progress_finish hm hc⟩
  · -- DEC in TAIL with CNT = 1 is not a whole number of pairs.
    exact absurd h.whole (by rw [ho, hc]; decide)

end

/-! ## The whole run -/

/-- Unit steps alone take `s` to BUSY = 0, being busy before: after `n` steps with DONE set, or after fewer
with a MEM_FAULT (R264). -/
def State.EndsWithin (s : State) (n : Nat) : Prop :=
  ∃ k t, k ≤ n ∧ unitRun k s = .next t ∧ t.busy = false ∧
    (∀ j, j < k → ∃ u, unitRun j s = .next u ∧ u.busy = true) ∧
    (t.err = .none → k = n ∧ t.done = true) ∧
    (t.err ≠ .none → t.err = .memFault ∧ k < n)

theorem State.endsWithin_zero {s : State} (hb : s.busy = false) (he : s.err = .none)
    (hd : s.done = true) : s.EndsWithin 0 :=
  ⟨0, s, le_rfl, rfl, hb, by simp, fun _ => ⟨rfl, hd⟩, fun h => absurd he h⟩

theorem State.endsWithin_of_memFault {s : State} {n : Nat} (hb : s.busy = false)
    (he : s.err = .memFault) (hn : 0 < n) : s.EndsWithin n :=
  ⟨0, s, hn.le, rfl, hb, by simp, fun h => by simp [he] at h, fun _ => ⟨he, hn⟩⟩

theorem unitRun_succ {s t : State} (h : unitStep s = .next t) (k : Nat) :
    unitRun (k + 1) s = unitRun k t := by
  simp [unitRun, h]

theorem State.EndsWithin.step {s t : State} {n : Nat} (h : t.EndsWithin n) (hb : s.busy = true)
    (hs : unitStep s = .next t) : s.EndsWithin (n + 1) := by
  obtain ⟨k, r, hk, hrun, hidle, hbefore, hok, hfault⟩ := h
  refine ⟨k + 1, r, by omega, by rw [unitRun_succ hs, hrun], hidle, ?_, ?_, ?_⟩
  · rintro (_ | j) hj
    · exact ⟨s, rfl, hb⟩
    · rw [unitRun_succ hs]
      exact hbefore j (by omega)
  · intro he
    obtain ⟨rfl, hd⟩ := hok he
    exact ⟨rfl, hd⟩
  · intro he
    obtain ⟨hmf, hlt⟩ := hfault he
    exact ⟨hmf, by omega⟩

/-- By induction on the steps left. -/
theorem State.MidRun.endsWithin {n : Nat} : ∀ {s : State}, s.MidRun → s.stepsLeft = n →
    s.EndsWithin n := by
  induction n with
  | zero =>
    intro s h hn
    obtain ⟨_, -, ⟨-, hleft⟩ | ⟨-, -, -, hlast⟩ | ⟨-, -, hearly⟩⟩ := h.exists_step <;> omega
  | succ n ih =>
    intro s h hn
    obtain ⟨t, hs, hprog⟩ := h.exists_step
    refine State.EndsWithin.step ?_ h.busy hs
    rcases hprog with ⟨ht, hleft⟩ | ⟨hb, he, hd, hlast⟩ | ⟨hb, he, hearly⟩
    · exact ih ht (by omega)
    · obtain rfl : n = 0 := by omega
      exact State.endsWithin_zero hb he hd
    · exact State.endsWithin_of_memFault hb he (by omega)

/-- An accepted macro starts its run in BULK, DEC with CNT even (R250, R251). -/
theorem midRun_of_accepted {s s0 : State} {i : Instr} (hmac : i.isMacro = true)
    (hidle : s.busy = false) (herr : s.err = .none) (hex : exec i s = .next s0)
    (hb : s0.busy = true) : s0.MidRun ∧ s0.mstate = .bulk := by
  cases i
  case enc c =>
    obtain rfl := Host.Outcome.next.inj hex
    exact ⟨⟨hb, herr, one_dvd _⟩, rfl⟩
  case dec =>
    by_cases hodd : s.cnt.toNat % 2 = 1
    · obtain rfl := Host.Outcome.next.inj ((if_pos hodd).symm.trans hex)
      exact absurd (hidle.symm.trans hb) (by decide)
    · obtain rfl := Host.Outcome.next.inj ((if_neg hodd).symm.trans hex)
      exact ⟨⟨hb, herr, Nat.dvd_of_mod_eq_zero (Nat.mod_two_ne_one.mp hodd)⟩, rfl⟩
  all_goals cases hmac

/-- Settles O51: a run begins with `macroSteps` steps left, and each step takes one from them or ends the
run with a MEM_FAULT. -/
theorem macroRunEndsInTheStatedSteps : Obligations.MacroRunEndsInTheStatedSteps := by
  intro s s0 i hmac hidle herr hex hb
  obtain ⟨hrun, hbulk⟩ := midRun_of_accepted hmac hidle herr hex hb
  exact hrun.endsWithin (State.stepsLeft_eq_macroSteps hbulk)

end Sys2Proof.Machine
end

section
/-! PROOFS. Dropped writes and DEC's two outcomes (spec/60_exceptions.md R283, R290): what commands, unit
steps and host actions do to DROP, and DEC by the parity of CNT. -/

namespace Sys2Proof.Machine

/-! ## DROP under commands and unit steps -/

/-- DROP of the next state, read off what the rule says that state is. -/
theorem drop_eq_of_next {o : Host.Outcome State Fault Refusal} {t u : State} {b : Bool}
    (h : o = .next t) (hu : o = .next u) (hb : u.drop = b) : t.drop = b :=
  Host.Outcome.next.inj (h.symm.trans hu) ▸ hb

/-- No command touches DROP. -/
theorem exec_drop {i : Instr} {s t : State} (h : exec i s = .next t) : t.drop = s.drop := by
  rcases exec_cases i s with hu | ⟨_, _, hu⟩ | ⟨_, _, _, hu⟩ | ⟨_, _, _, hu⟩ | ⟨_, _, _, _, _, hu⟩ |
    ⟨_, hu⟩ | ⟨_, _, hu⟩ | ⟨_, _, hu⟩ <;> exact drop_eq_of_next h hu rfl

theorem moveBlock_drop (nIn nOut : Nat) (f : List Byte → List Byte) (s : State) :
    (moveBlock nIn nOut f s).drop = s.drop := by
  rcases moveBlock_cases nIn nOut f s with ⟨-, hu⟩ | ⟨-, -, hu⟩ | ⟨-, -, _, _, -, -, -, hu⟩ <;>
    rw [hu] <;> rfl

/-- No unit step touches DROP. -/
theorem unitStep_drop {s t : State} (h : unitStep s = .next t) : t.drop = s.drop := by
  rcases unitStep_cases s with ⟨-, hu⟩ | ⟨nIn, nOut, f, -, -, -, -, hu⟩ | ⟨-, -, hu⟩ | ⟨-, -, hu⟩ |
    ⟨-, -, -, hu⟩
  · exact drop_eq_of_next h hu rfl
  · exact drop_eq_of_next h hu (moveBlock_drop nIn nOut f s)
  · exact drop_eq_of_next h hu rfl
  · exact drop_eq_of_next h hu rfl
  · cases h.symm.trans hu

/-! ## DROP under host actions -/

theorem eq_eight_of_regAccessOk {off : BitVec 8} {n : Nat} (h : regAccessOk off n = true) : n = 8 :=
  eq_of_beq (Bool.and_eq_true_iff.mp h).1

/-- What an action of the host that is not refused does. -/
theorem hostAct_next_cases {a : HostAction} {s t : State} (h : hostAct a s = .next t) :
    (∃ off, a = .regRead off 8 ∧ t = s.logRead (.reg off (s.readReg off))) ∨
    (∃ off v, a = .regWrite off 8 v ∧ writeReg off v s = .next t) ∨
    (∃ addr n, a = .memRead addr n ∧ t = s.hostMemRead addr n) ∨
    (∃ addr data, a = .memWrite addr data ∧ t = s.hostMemWrite addr data) ∨
    (∃ hosts, a = .wait ∧ t = { s.logRead (.reg 0x08#8 s.statusWord) with host := hosts }) ∨
    (a = .reset ∧ t = s.resetUnit) := by
  cases a with
  | regRead off n =>
    by_cases hok : regAccessOk off n = true
    · obtain rfl := eq_eight_of_regAccessOk hok
      exact .inl ⟨off, rfl, (Host.Outcome.next.inj ((if_pos hok).symm.trans h)).symm⟩
    · cases (if_neg hok).symm.trans h
  | regWrite off n v =>
    by_cases hok : regAccessOk off n = true
    · obtain rfl := eq_eight_of_regAccessOk hok
      exact .inr (.inl ⟨off, v, rfl, (if_pos hok).symm.trans h⟩)
    · cases (if_neg hok).symm.trans h
  | memRead addr n =>
    by_cases hw : overlapsWindow s.inst addr n = true
    · cases (if_pos hw).symm.trans h
    · exact .inr (.inr (.inl ⟨addr, n, rfl, (Host.Outcome.next.inj ((if_neg hw).symm.trans h)).symm⟩))
  | memWrite addr data =>
    by_cases hw : overlapsWindow s.inst addr data.length = true
    · cases (if_pos hw).symm.trans h
    · exact .inr (.inr (.inr (.inl
        ⟨addr, data, rfl, (Host.Outcome.next.inj ((if_neg hw).symm.trans h)).symm⟩)))
  | wait =>
    refine .inr (.inr (.inr (.inr (.inl ⟨t.host, rfl, ?_⟩))))
    obtain rfl := Host.Outcome.next.inj h
    cases s.busy <;> rfl
  | reset => exact .inr (.inr (.inr (.inr (.inr ⟨rfl, (Host.Outcome.next.inj h).symm⟩))))

section
variable {s t : State} (hd : s.drop = true)
include hd

theorem writeCmd_keeps_drop {v : Word64} (h : writeCmd v s = .next t) : t.drop = true := by
  rcases writeCmd_cases v s with ⟨-, hu⟩ | ⟨-, -, -, hu⟩ | ⟨i, -, -, -, hu⟩
  · exact drop_eq_of_next h hu rfl
  · exact drop_eq_of_next h hu hd
  · exact (exec_drop (hu.symm.trans h)).trans hd

/-- A write of STATUS without bit 6 (R46). -/
theorem State.writeStatus_keeps_drop {v : Word64} (h6 : v.getLsbD 6 = false) :
    (s.writeStatus v).drop = true := by
  rw [State.writeStatus_eq]
  exact (if_neg (by rw [h6]; decide)).trans hd

/-- A write of SRC, DST or CNT, whether it is dropped or takes effect (R53). -/
theorem ite_dropWrite_keeps_drop {u : State} (hu : u.drop = s.drop) :
    (if s.busy then s.dropWrite else u).drop = true := by
  cases s.busy
  · exact hu.trans hd
  · rfl

theorem writeReg_keeps_drop {off : BitVec 8} {v : Word64} (h6 : off = 0x08#8 → v.getLsbD 6 = false)
    (h : writeReg off v s = .next t) : t.drop = true := by
  rcases writeReg_cases off v s with ⟨hoff, hu⟩ | ⟨-, hu⟩ | ⟨-, hu⟩ | ⟨-, hu⟩ | ⟨-, hu⟩ | hu
  · exact drop_eq_of_next h hu (State.writeStatus_keeps_drop hd (h6 hoff))
  · exact writeCmd_keeps_drop hd (hu.symm.trans h)
  · exact drop_eq_of_next h hu (ite_dropWrite_keeps_drop hd rfl)
  · exact drop_eq_of_next h hu (ite_dropWrite_keeps_drop hd rfl)
  · exact drop_eq_of_next h hu (ite_dropWrite_keeps_drop hd rfl)
  · exact drop_eq_of_next h hu hd

/-- Only reset and a write of STATUS with bit 6 set can clear DROP. -/
theorem hostAct_keeps_drop {a : HostAction} (hreset : a ≠ .reset)
    (h6 : ∀ v, a = .regWrite 0x08#8 8 v → v.getLsbD 6 = false) (h : hostAct a s = .next t) :
    t.drop = true := by
  rcases hostAct_next_cases h with ⟨_, -, rfl⟩ | ⟨off, v, rfl, hw⟩ | ⟨_, _, -, rfl⟩ | ⟨_, _, -, rfl⟩ |
    ⟨_, -, rfl⟩ | ⟨hr, -⟩
  · exact hd
  · exact writeReg_keeps_drop hd (fun hoff => h6 v (by rw [hoff])) hw
  · exact hd
  · exact hd
  · exact hd
  · exact absurd hr hreset

theorem step_keeps_drop (h : step s = .next t)
    (hact : ∀ a rest, s.nextAgent = .host → s.host = a :: rest →
      a ≠ .reset ∧ ∀ v, a = .regWrite 0x08#8 8 v → v.getLsbD 6 = false) : t.drop = true := by
  rcases step_cases s with ⟨-, -, hu⟩ | ⟨a, rest, hn, hh, hu⟩ | ⟨-, hu⟩
  · exact drop_eq_of_next h hu hd
  · obtain ⟨hreset, h6⟩ := hact a rest hn hh
    exact hostAct_keeps_drop (s := { s.popSched with host := rest }) hd hreset h6 (hu.symm.trans h)
  · exact (unitStep_drop (hu.symm.trans h)).trans hd

end

/-! ## DEC by the parity of CNT -/

theorem exec_dec_of_odd {s : State} (h : s.cnt.toNat % 2 = 1) :
    exec .dec s = .next (s.raise .oddLen (encode .dec) 0#64) :=
  if_pos h

theorem exec_dec_of_even {s : State} (h : s.cnt.toNat % 2 = 0) :
    exec .dec s = .next (s.acceptMacro .dec .upper (encode .dec)) :=
  if_neg (by omega)

theorem encode_dec : encode .dec = 0xC4000000#32 := by decide

/-! ## The statements -/

/-- Settles O4: the dropped writes by the rules of CMD and of the cursors, and DROP by the cases of a
step. -/
theorem droppedWritesOnlySetDrop : Obligations.DroppedWritesOnlySetDrop := by
  refine ⟨fun s v h => ?_, fun s v off hoff hb => ?_, fun _ _ h hd hact => step_keeps_drop hd h hact⟩
  · rw [hostAct_regWrite (by decide), writeReg_cmd, writeCmd_dropped v h, State.dropWrite]
  · obtain ⟨hsrc, hdst, hcnt⟩ := (cursorWritesByBusy s v).1 hb
    simp only [List.mem_cons, List.not_mem_nil, or_false] at hoff
    rcases hoff with rfl | rfl | rfl
    · exact hsrc
    · exact hdst
    · exact hcnt

/-- Settles O44: an odd CNT raises ODD_LEN, an even one accepts the run with DEC's word. -/
theorem decIsAcceptedOrOddLength : Obligations.DecIsAcceptedOrOddLength := by
  refine fun s => ⟨fun hodd => ?_, fun heven => ⟨_, exec_dec_of_even heven, ?_⟩⟩
  · rw [exec_dec_of_odd hodd, encode_dec]
    rfl
  · rw [encode_dec]
    exact ⟨rfl, rfl, rfl, rfl, rfl, rfl, rfl, rfl⟩

end Sys2Proof.Machine
end

section
/-! PROOFS. The encoder and the decoder undo each other (spec/30_encoding.md R103 to R110): a word that a
row of the opcode map matches is the word its fields make, and the word of a command as a number. -/

namespace Sys2Proof

/-! ## From a command to its word and back -/

/-- Each word has its row's OP, and 0 in the reserved bits of its row's format (R103, R105). -/
theorem encode_matches_format (i : Instr) : Laws.EncodeMatchesFormat.Statement i := by
  cases i with
  | nop => exact Laws.EncodeMatchesFormat.nop
  | ld => exact Laws.EncodeMatchesFormat.ld _
  | ld2 => exact Laws.EncodeMatchesFormat.ld2 _ _
  | st => exact Laws.EncodeMatchesFormat.st _
  | ldb => exact Laws.EncodeMatchesFormat.ldb _
  | stb => exact Laws.EncodeMatchesFormat.stb _
  | splat => exact Laws.EncodeMatchesFormat.splat _ _
  | and => exact Laws.EncodeMatchesFormat.and _ _ _
  | or => exact Laws.EncodeMatchesFormat.or _ _ _
  | xor => exact Laws.EncodeMatchesFormat.xor _ _ _
  | add => exact Laws.EncodeMatchesFormat.add _ _ _
  | sub => exact Laws.EncodeMatchesFormat.sub _ _ _
  | andi => exact Laws.EncodeMatchesFormat.andi _ _ _
  | ori => exact Laws.EncodeMatchesFormat.ori _ _ _
  | xori => exact Laws.EncodeMatchesFormat.xori _ _ _
  | addi => exact Laws.EncodeMatchesFormat.addi _ _ _
  | shli => exact Laws.EncodeMatchesFormat.shli _ _ _
  | shri => exact Laws.EncodeMatchesFormat.shri _ _ _
  | rng => exact Laws.EncodeMatchesFormat.rng _ _ _ _
  | sel => exact Laws.EncodeMatchesFormat.sel _ _ _ _
  | n2a => exact Laws.EncodeMatchesFormat.n2a _ _ _
  | a2n => exact Laws.EncodeMatchesFormat.a2n _ _
  | cmb => exact Laws.EncodeMatchesFormat.cmb _ _ _
  | ilvlo => exact Laws.EncodeMatchesFormat.ilvlo _ _ _
  | ilvhi => exact Laws.EncodeMatchesFormat.ilvhi _ _ _
  | zipglo => exact Laws.EncodeMatchesFormat.zipglo _ _ _
  | zipghi => exact Laws.EncodeMatchesFormat.zipghi _ _ _
  | enc => exact Laws.EncodeMatchesFormat.enc _
  | dec => exact Laws.EncodeMatchesFormat.dec

/-- The row of a command's OP builds the command from the fields of its word. -/
theorem opRow_encode (i : Instr) : ∃ build,
    opRow (Laws.EncodeMatchesFormat.rowOf i).1.toNat =
      some ((Laws.EncodeMatchesFormat.rowOf i).2, build) ∧
    build (Fields.of (encode i)) = i := by
  cases i <;> refine ⟨_, rfl, ?_⟩ <;>
    simp only [encode, c_encXC, d_encR2, a_encR2, d_encR3, a_encR3, b_encR3, d_encR4, a_encR4, b_encR4,
      m_encR4, d_encI8, a_encI8, lo_encI8, d_encI16, a_encI16, hi_encI16, lo_encI16, d_encSH, a_encSH,
      sh_encSH, d_encN, a_encN, c_encN, d_encSP, lo_encSP, d_encL, d_encL2, a_encL2, a_encS]

/-- Settles O16: the word of a command has the OP of its row, keeps the reserved bits of its format 0, and
holds the operands in its fields. -/
theorem decodeOfEncodeIsTheCommand : Obligations.DecodeOfEncodeIsTheCommand := by
  intro W i hwf
  obtain ⟨hop, hmask⟩ := encode_matches_format i
  obtain ⟨build, hrow, hbuild⟩ := opRow_encode i
  exact decode_eq_some_iff.mpr ⟨_, build, hop ▸ hrow, hop ▸ hmask, hbuild, hwf⟩

/-! ## From a word to its command and back -/

/-- The word that a format makes of an OP and of the fields it names (R103). -/
def Format.word : Format → BitVec 6 → Fields → CmdWord
  | .x, op, _ => encX op
  | .xc, op, f => encXC op f.c
  | .r2, op, f => encR2 op f.d f.a
  | .r3, op, f => encR3 op f.d f.a f.b
  | .r4, op, f => encR4 op f.d f.a f.b f.m
  | .i8, op, f => encI8 op f.d f.a f.lo
  | .i16, op, f => encI16 op f.d f.a f.hi f.lo
  | .sh, op, f => encSH op f.d f.a f.sh
  | .n, op, f => encN op f.d f.a f.c
  | .sp, op, f => encSP op f.d f.lo
  | .l, op, f => encL op f.d
  | .l2, op, f => encL2 op f.d f.a
  | .s, op, f => encS op f.a

/-- A row's command is encoded by the row's OP and format. -/
theorem encode_build {op : Nat} {fmt : Format} {build : Fields → Instr}
    (hrow : opRow op = some (fmt, build)) (f : Fields) :
    encode (build f) = fmt.word (BitVec.ofNat 6 op) f := by
  unfold opRow at hrow
  split at hrow <;> cases hrow <;> rfl

/-- Reading a field and putting it back keeps its bits and clears every other. -/
theorem place_extractLsb' (w : CmdWord) (lo k : Nat) :
    place (w.extractLsb' lo k) lo = w &&& place (BitVec.allOnes k) lo := by
  apply BitVec.eq_of_getLsbD_eq
  intro i hi
  simp only [place, BitVec.getLsbD_shiftLeft, BitVec.getLsbD_setWidth, BitVec.getLsbD_extractLsb',
    BitVec.getLsbD_and, BitVec.getLsbD_allOnes]
  rcases Nat.lt_or_ge i lo with h | h
  · simp [h]
  · rw [Nat.add_sub_cancel' h, Bool.and_comm (w.getLsbD i)]
    simp only [Bool.and_assoc]

theorem place_field3 (w : CmdWord) (lo : Nat) :
    place (bits3 (field3 w lo)) lo = w &&& place 7#3 lo :=
  place_extractLsb' w lo 3

theorem place_caseBit (w : CmdWord) :
    place (CaseMode.ofBit (w.getLsbD 0)).bit 0 = w &&& place 1#1 0 := by
  have hbit : (CaseMode.ofBit (w.getLsbD 0)).bit = w.extractLsb' 0 1 := by
    apply BitVec.eq_of_getLsbD_eq
    intro i hi
    obtain rfl : i = 0 := by omega
    rw [BitVec.getLsbD_extractLsb']
    cases w.getLsbD 0 <;> rfl
  rw [hbit]
  exact place_extractLsb' w 0 1

/-- A word that matches OP in the bits of `mask` is OP and its bits in `fields`, if the two masks cover
the word. -/
theorem place_or_and_eq {w mask fields : CmdWord} {op : BitVec 6} (h : w &&& mask = place op 26)
    (hcover : mask ||| fields = BitVec.allOnes 32) : place op 26 ||| (w &&& fields) = w := by
  rw [← h, ← BitVec.and_or_distrib_left, hcover, BitVec.and_allOnes]

/-- A word whose reserved bits are 0 is what its format makes of its fields: a format's mask and the bits
of its fields cover the word (R103, R107). -/
theorem word_of_fields {w : CmdWord} {fmt : Format} (h : w &&& fmt.mask = place (opOf w) 26) :
    fmt.word (opOf w) (Fields.of w) = w := by
  have hlo := place_extractLsb' w 0 8
  have hhi := place_extractLsb' w 8 8
  cases fmt <;>
    simp only [Format.word, encX, encXC, encR2, encR3, encR4, encI8, encI16, encSH, encN, encSP, encL,
      encL2, encS, Fields.of, place_field3, place_caseBit, hlo, hhi, BitVec.or_assoc,
      ← BitVec.and_or_distrib_left]
  case x => exact h.symm.trans BitVec.and_allOnes
  all_goals exact place_or_and_eq h (by decide)

/-- Settles O17: the fields of a word that decodes make the word again in its row's format. -/
theorem encodeOfDecodeIsTheWord : Obligations.EncodeOfDecodeIsTheWord := by
  intro W w i hd
  obtain ⟨fmt, build, hrow, hmask, rfl, hwf⟩ := decode_eq_some_iff.mp hd
  refine ⟨?_, hwf⟩
  rw [encode_build hrow, BitVec.ofNat_toNat, BitVec.setWidth_eq, word_of_fields hmask]

/-! ## The word as a number -/

/-- The number that fields make, each a lowest bit and a value (R101). -/
def fieldSum (fields : List (Nat × Nat)) : Nat := (fields.map fun f => f.2 * 2 ^ f.1).sum

theorem wordNumber_eq (i : Instr) : i.wordNumber = fieldSum i.fields := rfl

theorem fieldSum_append (l : List (Nat × Nat)) (lo v : Nat) :
    fieldSum (l ++ [(lo, v)]) = fieldSum l + v * 2 ^ lo := by
  simp [fieldSum]

theorem dvd_fieldSum {l : List (Nat × Nat)} {n : Nat} (h : ∀ f ∈ l, n ≤ f.1) :
    2 ^ n ∣ fieldSum l := by
  refine List.dvd_sum fun x hx => ?_
  obtain ⟨f, hf, rfl⟩ := List.mem_map.mp hx
  exact Dvd.dvd.mul_left (pow_dvd_pow 2 (h f hf)) _

/-- A field below the others adds its value at its place. -/
theorem toNat_or_field {x : CmdWord} {l : List (Nat × Nat)} (hx : x.toNat = fieldSum l) {k : Nat}
    (f : BitVec k) {lo : Nat} (hlo : lo + k ≤ 32) (hl : ∀ p ∈ l, lo + k ≤ p.1) :
    (x ||| place f lo).toNat = fieldSum (l ++ [(lo, f.toNat)]) := by
  rw [toNat_or_place f hlo (hx ▸ dvd_fieldSum hl), hx, fieldSum_append]

theorem toNat_op (op : BitVec 6) : (place op 26).toNat = fieldSum [(26, op.toNat)] := by
  rw [toNat_place op (by decide)]
  simp [fieldSum]

theorem toNat_opD (op : BitVec 6) (d : VReg) :
    (place op 26 ||| place (bits3 d) 23).toNat = fieldSum [(26, op.toNat), (23, d)] :=
  toNat_or_field (toNat_op op) (bits3 d) (by decide) (by simp)

theorem toNat_opDA (op : BitVec 6) (d a : VReg) :
    (place op 26 ||| place (bits3 d) 23 ||| place (bits3 a) 20).toNat
      = fieldSum [(26, op.toNat), (23, d), (20, a)] :=
  toNat_or_field (toNat_opD op d) (bits3 a) (by decide) (by simp)

theorem toNat_encR3 (op : BitVec 6) (d a b : VReg) : (encR3 op d a b).toNat
    = fieldSum [(26, op.toNat), (23, d), (20, a), (17, b)] :=
  toNat_or_field (toNat_opDA op d a) (bits3 b) (by decide) (by simp)

theorem toNat_encR4 (op : BitVec 6) (d a b m : VReg) : (encR4 op d a b m).toNat
    = fieldSum [(26, op.toNat), (23, d), (20, a), (17, b), (14, m)] :=
  toNat_or_field (toNat_encR3 op d a b) (bits3 m) (by decide) (by simp)

theorem toNat_encI8 (op : BitVec 6) (d a : VReg) (imm8 : Byte) : (encI8 op d a imm8).toNat
    = fieldSum [(26, op.toNat), (23, d), (20, a), (0, imm8.toNat)] :=
  toNat_or_field (toNat_opDA op d a) imm8 (by decide) (by simp)

theorem toNat_encI16 (op : BitVec 6) (d a : VReg) (hi lo : Byte) : (encI16 op d a hi lo).toNat
    = fieldSum [(26, op.toNat), (23, d), (20, a), (8, hi.toNat), (0, lo.toNat)] :=
  toNat_or_field (toNat_or_field (toNat_opDA op d a) hi (lo := 8) (by decide) (by simp)) lo (by decide)
    (by simp)

theorem toNat_encSH (op : BitVec 6) (d a : VReg) (sh : ShiftAmt) : (encSH op d a sh).toNat
    = fieldSum [(26, op.toNat), (23, d), (20, a), (0, sh)] :=
  toNat_or_field (toNat_opDA op d a) (bits3 sh) (by decide) (by simp)

theorem toNat_caseBit (c : CaseMode) : c.bit.toNat = caseNumber c := by cases c <;> rfl

theorem toNat_encN (op : BitVec 6) (d a : VReg) (c : CaseMode) : (encN op d a c).toNat
    = fieldSum [(26, op.toNat), (23, d), (20, a), (0, caseNumber c)] :=
  toNat_caseBit c ▸ toNat_or_field (toNat_opDA op d a) c.bit (by decide) (by simp)

theorem toNat_encXC (op : BitVec 6) (c : CaseMode) : (encXC op c).toNat
    = fieldSum [(26, op.toNat), (0, caseNumber c)] :=
  toNat_caseBit c ▸ toNat_or_field (toNat_op op) c.bit (by decide) (by simp)

theorem toNat_encSP_fields (op : BitVec 6) (d : VReg) (imm8 : Byte) : (encSP op d imm8).toNat
    = fieldSum [(26, op.toNat), (23, d), (0, imm8.toNat)] :=
  toNat_or_field (toNat_opD op d) imm8 (by decide) (by simp)

theorem toNat_encS (op : BitVec 6) (a : VReg) : (encS op a).toNat
    = fieldSum [(26, op.toNat), (20, a)] :=
  toNat_or_field (toNat_op op) (bits3 a) (by decide) (by simp)

/-- Each command's word is the sum of its fields at their places, by its format (R103). -/
theorem toNat_encode (i : Instr) : (encode i).toNat = i.wordNumber := by
  rw [wordNumber_eq]
  cases i with
  | nop | dec => exact toNat_op _
  | ld | ldb => exact toNat_opD _ _
  | ld2 | a2n => exact toNat_opDA _ _ _
  | st | stb => exact toNat_encS _ _
  | splat => exact toNat_encSP_fields _ _ _
  | and | or | xor | add | sub | cmb | ilvlo | ilvhi | zipglo | zipghi => exact toNat_encR3 _ _ _ _
  | andi | ori | xori | addi => exact toNat_encI8 _ _ _ _
  | shli | shri => exact toNat_encSH _ _ _ _
  | rng => exact toNat_encI16 _ _ _ _ _
  | sel => exact toNat_encR4 _ _ _ _ _
  | n2a => exact toNat_encN _ _ _ _
  | enc => exact toNat_encXC _ _

/-- Settles O14: the decoder keeps the table's criterion, and a word is the sum of its fields. -/
theorem decodeAcceptsExactlyTheTable : Obligations.DecodeAcceptsExactlyTheTable :=
  ⟨decode_isSome, toNat_encode⟩

end Sys2Proof
end

section
/-! PROOFS. The unit step of the block state machine by what it consumes (spec/45_block_fsm.md R252 to
R260): its equation in each case, and the cases of a step that has a next state. -/

namespace Sys2Proof.Machine

/-- The output elements of `n` input elements (R82). -/
def MOp.outLen : MOp → Nat → Nat
  | .enc, n => 2 * n
  | .dec, n => n / 2

theorem MOp.outLen_add (op : MOp) {n : Nat} (k : Nat) (h : op.elementLen ∣ n) :
    op.outLen (k + n) = op.outLen k + op.outLen n := by
  cases op with
  | enc => exact Nat.mul_add 2 k n
  | dec => exact Nat.add_div_of_dvd_left h

/-- What a macro makes of the bytes it reads (R261, R262). -/
def MOp.blockFn : MOp → CaseMode → List Byte → List Byte
  | .enc, c => encBlock c
  | .dec, _ => decBlock

/-- What the running macro makes of the bytes it reads. -/
def State.blockFn (s : State) : List Byte → List Byte := s.mop.blockFn s.mcase

/-- What a unit step that moves bytes consumes and writes, by MSTATE and MOP (R253 to R259). -/
theorem unitStep_move_cases {s : State} {nIn nOut : Nat} {f : List Byte → List Byte}
    (h : (s.mstate = .bulk ∧ s.mop = .enc ∧ nIn = s.lanes ∧ nOut = 2 * s.lanes ∧
         f = encBlock s.mcase) ∨
       (s.mstate = .tail ∧ s.mop = .enc ∧ nIn = 1 ∧ nOut = 2 ∧ f = encBlock s.mcase) ∨
       (s.mstate = .bulk ∧ s.mop = .dec ∧ nIn = 2 * s.lanes ∧ nOut = s.lanes ∧ f = decBlock) ∨
       (s.mstate = .tail ∧ s.mop = .dec ∧ nIn = 2 ∧ nOut = 1 ∧ f = decBlock)) :
    s.Consumes nIn ∧ nOut = s.mop.outLen nIn ∧ f = s.blockFn := by
  rcases h with ⟨hm, ho, rfl, rfl, rfl⟩ | ⟨hm, ho, rfl, rfl, rfl⟩ | ⟨hm, ho, rfl, rfl, rfl⟩ |
    ⟨hm, ho, rfl, rfl, rfl⟩ <;>
  simp [State.Consumes, State.blockLen, State.blockFn, MOp.blockFn, MOp.elementLen, MOp.outLen, hm, ho]

section
variable {s : State}

theorem State.Consumes.busy {n : Nat} (hn : s.Consumes n) : s.busy = true := by
  rcases hn with ⟨hm, -⟩ | ⟨hm, -⟩ <;> rw [State.busy, hm] <;> rfl

theorem State.Consumes.pos {n : Nat} (hn : s.Consumes n) : 0 < n := by
  rcases hn with ⟨-, rfl⟩ | ⟨-, rfl⟩
  · exact s.blockLen_pos
  · exact s.mop.elementLen_pos

theorem unitStep_idle (hm : s.mstate = .idle) : unitStep s = .next s := by
  cases ho : s.mop <;> simp [unitStep, encStep, decStep, ho, hm]

/-- With enough input left the unit moves a block or an element (R253, R255, R257, R259). -/
theorem unitStep_consumes {n : Nat} (hn : s.Consumes n) (hc : n ≤ s.cnt.toNat) :
    unitStep s = .next (moveBlock n (s.mop.outLen n) s.blockFn s) := by
  rcases hn with ⟨hm, rfl⟩ | ⟨hm, rfl⟩ <;> cases ho : s.mop <;>
  simp only [State.blockLen, State.blockFn, MOp.blockFn, MOp.elementLen, MOp.outLen, ho,
    Nat.one_mul] at hc ⊢ <;>
  simp [unitStep, encStep, decStep, ho, hm, hc]

/-- With less than a block left in BULK it goes to TAIL (R254, R258). -/
theorem unitStep_toTail (hm : s.mstate = .bulk) (hc : s.cnt.toNat < s.blockLen) :
    unitStep s = .next s.toTail := by
  cases ho : s.mop <;> simp only [State.blockLen, MOp.elementLen, ho, Nat.one_mul] at hc
  · exact unitStep_enc_toTail ho hm hc
  · exact unitStep_dec_toTail ho hm hc

/-- What a unit step with a next state did, and what made it do so. -/
theorem unitStep_next_cases {t : State} (h : unitStep s = .next t) :
    (s.mstate = .idle ∧ t = s) ∨
    (∃ n, s.Consumes n ∧ n ≤ s.cnt.toNat ∧ t = moveBlock n (s.mop.outLen n) s.blockFn s) ∨
    (s.mstate = .bulk ∧ s.cnt.toNat < s.blockLen ∧ t = s.toTail) ∨
    (s.mstate = .tail ∧ s.cnt = 0#64 ∧ t = s.finish) := by
  rcases unitStep_cases s with ⟨hm, hu⟩ | ⟨nIn, nOut, f, -, -, hc, hmove, hu⟩ | ⟨hm, hc, hu⟩ |
    ⟨hm, hc, hu⟩ | ⟨-, -, -, hu⟩
  · exact .inl ⟨hm, Host.Outcome.next.inj (h.symm.trans hu)⟩
  · obtain ⟨hn, rfl, rfl⟩ := unitStep_move_cases hmove
    exact .inr (.inl ⟨nIn, hn, hc, Host.Outcome.next.inj (h.symm.trans hu)⟩)
  · refine .inr (.inr (.inl ⟨hm, ?_, Host.Outcome.next.inj (h.symm.trans hu)⟩))
    cases ho : s.mop <;> simpa [State.blockLen, MOp.elementLen, ho] using hc
  · exact .inr (.inr (.inr ⟨hm, BitVec.eq_of_toNat_eq hc, Host.Outcome.next.inj (h.symm.trans hu)⟩))
  · cases h.symm.trans hu

end

end Sys2Proof.Machine
end

section
/-! PROOFS. What every step keeps: the instance, the noted addresses of races, a recorded error, and the
invariant (spec/10_state.md R45, spec/45_block_fsm.md R252 to R260, spec/60_exceptions.md R284). One
inversion lemma says what a step of either agent can do; each statement splits its cases. -/

namespace Sys2Proof.Machine

/-! ## What a step can do -/

/-- What a step does to `s` once the schedule's entry is used up, where `act` is the host's action if the
host moves and has one. -/
inductive Effect (act : Option HostAction) (s : State) : State → Prop
  | nothing : Effect act s s
  | command {i : Instr} {t : State} (idle : s.busy = false) (no_error : s.err = .none)
      (result : exec i s = .next t) : Effect act s t
  | illegal (idle : s.busy = false) (no_error : s.err = .none) (w : CmdWord) :
      Effect act s (s.raise .illegal w 0#64)
  | dropped : Effect act s s.dropWrite
  | status (v : Word64) (written : act = some (.regWrite 0x08#8 8 v)) : Effect act s (s.writeStatus v)
  | cursors (idle : s.busy = false) (src dst : Addr) (cnt : Word64) :
      Effect act s { s with src := src, dst := dst, cnt := cnt }
  | read (r : HostRead) (hosts : List HostAction) (k : Nat) :
      Effect act s { s.logRead r with host := hosts, freeCount := k }
  | memWrite (addr : Addr) (data : List Byte) : Effect act s (s.hostMemWrite addr data)
  | reset (asserted : act = some .reset) : Effect act s s.resetUnit
  | unit {t : State} (result : unitStep s = .next t) : Effect act s t

section
variable {act : Option HostAction} {s t : State}

theorem Effect.of_next {o : Host.Outcome State Fault Refusal} {u : State} (h : o = .next t)
    (hu : o = .next u) (he : Effect act s u) : Effect act s t :=
  Host.Outcome.next.inj (hu.symm.trans h) ▸ he

theorem effect_of_writeCmd {v : Word64} (h : writeCmd v s = .next t) : Effect act s t := by
  rcases writeCmd_cases v s with ⟨-, hu⟩ | ⟨hb, he, -, hu⟩ | ⟨i, hb, he, -, hu⟩
  · exact .of_next h hu .dropped
  · exact .of_next h hu (.illegal hb he _)
  · exact .command hb he (hu.symm.trans h)

/-- A write of SRC, DST or CNT is dropped or takes effect, by BUSY (R53). -/
theorem effect_of_cursorWrite {u : State} (hu : s.busy = false → Effect act s u) :
    Effect act s (if s.busy then s.dropWrite else u) := by
  split
  · exact .dropped
  · exact hu (by simpa using ‹¬ s.busy = true›)

theorem effect_of_writeReg {off : BitVec 8} {v : Word64} (h : writeReg off v s = .next t) :
    Effect (some (.regWrite off 8 v)) s t := by
  rcases writeReg_cases off v s with ⟨rfl, hu⟩ | ⟨-, hu⟩ | ⟨-, hu⟩ | ⟨-, hu⟩ | ⟨-, hu⟩ | hu
  · exact .of_next h hu (.status v rfl)
  · exact effect_of_writeCmd (hu.symm.trans h)
  · exact .of_next h hu (effect_of_cursorWrite fun hb => .cursors hb v s.dst s.cnt)
  · exact .of_next h hu (effect_of_cursorWrite fun hb => .cursors hb s.src v s.cnt)
  · exact .of_next h hu (effect_of_cursorWrite fun hb => .cursors hb s.src s.dst v)
  · exact .of_next h hu .nothing

theorem effect_of_hostAct {a : HostAction} (h : hostAct a s = .next t) : Effect (some a) s t := by
  rcases hostAct_next_cases h with ⟨off, -, rfl⟩ | ⟨off, v, rfl, hw⟩ | ⟨addr, n, -, rfl⟩ |
    ⟨addr, data, -, rfl⟩ | ⟨hosts, -, rfl⟩ | ⟨rfl, rfl⟩
  · exact .read _ _ _
  · exact effect_of_writeReg hw
  · exact .read _ _ _
  · exact .memWrite addr data
  · exact .read _ hosts _
  · exact .reset rfl

/-- Every step is one effect on the state with the schedule's entry, and the host's action if it takes
one, used up. -/
theorem step_effect (h : step s = .next t) : ∃ act hosts,
    (∀ a, act = some a → s.nextAgent = .host ∧ ∃ rest, s.host = a :: rest) ∧
    Effect act { s.popSched with host := hosts } t := by
  rcases step_cases s with ⟨-, -, hu⟩ | ⟨a, rest, hn, hh, hu⟩ | ⟨-, hu⟩
  · exact ⟨none, s.host, nofun, .of_next h hu .nothing⟩
  · refine ⟨some a, rest, ?_, effect_of_hostAct (hu.symm.trans h)⟩
    rintro _ ⟨⟩
    exact ⟨hn, rest, hh⟩
  · exact ⟨none, s.host, nofun, .unit (hu.symm.trans h)⟩

end

/-! ## The instance and the noted addresses -/

section
variable {s t : State}

/-- No command changes the instance or the noted addresses. -/
theorem exec_keeps_inst_and_bytes {i : Instr} (h : exec i s = .next t) :
    t.inst = s.inst ∧ t.race.bytes = s.race.bytes := by
  rcases exec_cases i s with hu | ⟨_, _, hu⟩ | ⟨_, _, _, hu⟩ | ⟨_, _, _, hu⟩ | ⟨_, _, _, _, _, hu⟩ |
    ⟨_, hu⟩ | ⟨_, _, hu⟩ | ⟨_, _, hu⟩ <;>
  exact Host.Outcome.next.inj (hu.symm.trans h) ▸ ⟨rfl, rfl⟩

theorem moveBlock_keeps_inst_and_race (nIn nOut : Nat) (f : List Byte → List Byte) (s : State) :
    (moveBlock nIn nOut f s).inst = s.inst ∧ (moveBlock nIn nOut f s).race = s.race := by
  rcases moveBlock_cases nIn nOut f s with ⟨-, hu⟩ | ⟨-, -, hu⟩ | ⟨-, -, _, _, -, -, -, hu⟩ <;>
  exact hu ▸ ⟨rfl, rfl⟩

/-- No unit step changes the instance or the race ledger. -/
theorem unitStep_keeps_inst_and_race (h : unitStep s = .next t) :
    t.inst = s.inst ∧ t.race = s.race := by
  rcases unitStep_next_cases h with ⟨-, rfl⟩ | ⟨n, -, -, rfl⟩ | ⟨-, -, rfl⟩ | ⟨-, -, rfl⟩
  · exact ⟨rfl, rfl⟩
  · exact moveBlock_keeps_inst_and_race n _ _ s
  · exact ⟨rfl, rfl⟩
  · exact ⟨rfl, rfl⟩

theorem Effect.inst {act : Option HostAction} (h : Effect act s t) : t.inst = s.inst := by
  cases h with
  | command _ _ hr => exact (exec_keeps_inst_and_bytes hr).1
  | unit hr => exact (unitStep_keeps_inst_and_race hr).1
  | status v => rw [State.writeStatus_eq]
  | _ => rfl

/-- What a racing write hit stays noted, whatever comes after (R82: "every later unit read"). -/
theorem Effect.bytes_subset {act : Option HostAction} (h : Effect act s t) :
    s.race.bytes ⊆ t.race.bytes := by
  cases h with
  | command _ _ hr => rw [(exec_keeps_inst_and_bytes hr).2]; exact List.Subset.refl _
  | unit hr => rw [(unitStep_keeps_inst_and_race hr).2]; exact List.Subset.refl _
  | status v => rw [State.writeStatus_eq]; exact List.Subset.refl _
  | memWrite => exact List.subset_append_right _ _
  | _ => exact List.Subset.refl _

theorem step_inst (h : step s = .next t) : t.inst = s.inst := by
  obtain ⟨_, _, -, heff⟩ := step_effect h
  exact heff.inst

/-- No step drops a noted address. -/
theorem step_bytes_subset (h : step s = .next t) : s.race.bytes ⊆ t.race.bytes := by
  obtain ⟨_, _, -, heff⟩ := step_effect h
  exact heff.bytes_subset

end

/-! ## The invariant: updates of an idle unit -/

theorem State.mstate_idle_of_not_busy {s : State} (h : s.busy = false) : s.mstate = .idle := by
  simpa [State.busy] using h

/-- Of an idle unit the invariant says little: all that a run must keep is out of play. -/
theorem State.Inv.of_idle {s : State} (idle : s.busy = false) (mem_wf : s.mem.wf = true)
    (lanes_wf : ∀ r : VReg, (s.v[r]).length = s.lanes)
    (no_error_record : s.err = .none → s.errcmd = 0#32 ∧ s.erraddr = 0#64)
    (erraddr_fault : s.err ≠ .memFault → s.erraddr = 0#64)
    (dec_case : s.mop = .dec → s.mcase = .upper) : s.Inv where
  mem_wf := mem_wf
  lanes_wf := lanes_wf
  busy_no_error hb := absurd (idle.symm.trans hb) (by decide)
  busy_not_done hb := absurd (idle.symm.trans hb) (by decide)
  busy_word hb := absurd (idle.symm.trans hb) (by decide)
  no_error_record := no_error_record
  erraddr_fault := erraddr_fault
  dec_case := dec_case
  dec_even hb := absurd (idle.symm.trans hb) (by decide)
  tail_short ht := by simp [State.mstate_idle_of_not_busy idle] at ht
  cnt_le hb := absurd (idle.symm.trans hb) (by decide)
  src_progress hb := absurd (idle.symm.trans hb) (by decide)
  dst_progress hb := absurd (idle.symm.trans hb) (by decide)

theorem setV_lanes_wf {s : State} (h : ∀ r : VReg, (s.v[r]).length = s.lanes) (vd : VReg)
    (f : Nat → Byte) (r : VReg) : ((s.setV vd f).v[r]).length = s.lanes := by
  by_cases hr : r = vd
  · rw [hr, State.setV_v_self, List.length_map, List.length_range]
  · rw [State.setV_v_other s f hr, h r]

section
variable {s : State} (h : s.Inv)
include h

theorem State.Inv.setV (hb : s.busy = false) (vd : VReg) (f : Nat → Byte) : (s.setV vd f).Inv :=
  .of_idle hb h.mem_wf (setV_lanes_wf h.lanes_wf vd f) h.no_error_record h.erraddr_fault h.dec_case

theorem State.Inv.raise (hb : s.busy = false) {e : ErrCode} (he : e ≠ .none) (w : CmdWord) (a : Addr) :
    (s.raise e w a).Inv :=
  .of_idle hb h.mem_wf h.lanes_wf (fun hn => absurd hn he) (fun hf => if_neg hf) h.dec_case

theorem State.Inv.afterUnitRead (addr : Addr) (n : Nat) : (s.afterUnitRead addr n).Inv := { h with }

theorem State.Inv.cursors (hb : s.busy = false) (src dst : Addr) (cnt : Word64) :
    State.Inv { s with src := src, dst := dst, cnt := cnt } :=
  .of_idle hb h.mem_wf h.lanes_wf h.no_error_record h.erraddr_fault h.dec_case

theorem State.Inv.writeMem (addr : Addr) (data : List Byte) : (s.writeMem addr data).Inv :=
  { h with mem_wf := Memory.writeBytes_wf h.mem_wf }

/-- An accepted macro starts its run at the registers as they are (R250, R251). -/
theorem State.Inv.acceptMacro (he : s.err = .none) {op : MOp} {c : CaseMode}
    (hdec : op = .dec → c = .upper ∧ s.cnt.toNat % 2 = 0) {w : CmdWord}
    (hw : w = encode (s.acceptMacro op c w).macroInstr) : (s.acceptMacro op c w).Inv where
  mem_wf := h.mem_wf
  lanes_wf := h.lanes_wf
  busy_no_error _ := he
  busy_not_done _ := rfl
  busy_word _ := hw
  no_error_record := h.no_error_record
  erraddr_fault := h.erraddr_fault
  dec_case ho := (hdec ho).1
  dec_even _ ho := (hdec ho).2
  tail_short ht := by cases ht
  cnt_le _ := Nat.le_refl _
  src_progress _ := by simp
  dst_progress _ := by cases op <;> simp

/-- A command that CMD accepts keeps the invariant. -/
theorem State.Inv.of_exec (hb : s.busy = false) (he : s.err = .none) {i : Instr} {t : State}
    (ht : exec i s = .next t) : t.Inv := by
  rcases exec_cases i s with hu | ⟨vd, f, hu⟩ | ⟨e, a, hne, hu⟩ | ⟨n, vd, f, hu⟩ | ⟨n, vd, f, ve, g, hu⟩ |
    ⟨d, hu⟩ | ⟨c, rfl, hu⟩ | ⟨rfl, heven, hu⟩ <;>
  obtain rfl := Host.Outcome.next.inj (hu.symm.trans ht)
  · exact h
  · exact h.setV hb vd f
  · exact h.raise hb hne _ a
  · exact ((h.afterUnitRead s.src n).setV hb vd f).cursors hb _ _ _
  · exact (((h.afterUnitRead s.src n).setV hb vd f).setV hb ve g).cursors hb _ _ _
  · exact (h.writeMem s.dst d).cursors hb _ _ _
  · exact h.acceptMacro (op := .enc) he (fun ho => by cases ho) rfl
  · exact h.acceptMacro he (fun _ => ⟨rfl, heven⟩) rfl

end

/-! ## The invariant: unit steps -/

section
variable {s : State} (h : s.Inv)
include h

theorem State.Inv.dst_eq (hb : s.busy = true) :
    s.dst = s.race.dst0 + BitVec.ofNat 64 (s.mop.outLen (s.race.cnt0.toNat - s.cnt.toNat)) := by
  rw [h.dst_progress hb]
  cases s.mop <;> rfl

theorem State.Inv.abort (a : Addr) : (s.abort a).Inv :=
  .of_idle rfl h.mem_wf h.lanes_wf nofun (fun hf => absurd rfl hf) h.dec_case

theorem State.Inv.finish : s.finish.Inv :=
  .of_idle rfl h.mem_wf h.lanes_wf h.no_error_record h.erraddr_fault h.dec_case

theorem State.Inv.toTail (hm : s.mstate = .bulk)
    (hc : s.cnt.toNat < s.blockLen) : s.toTail.Inv := by
  have hb : s.busy = true := by simp [State.busy, hm]
  have hlt : s.cnt.toNat < (match s.mop with | .enc => s.lanes | .dec => 2 * s.lanes) := by
    cases ho : s.mop <;> simpa [State.blockLen, MOp.elementLen, ho] using hc
  exact { h with
    tail_short := fun _ => hlt
    busy_no_error := fun _ => h.busy_no_error hb
    busy_not_done := fun _ => h.busy_not_done hb
    busy_word := fun _ => h.busy_word hb
    dec_even := fun _ => h.dec_even hb
    cnt_le := fun _ => h.cnt_le hb
    src_progress := fun _ => h.src_progress hb
    dst_progress := fun _ => h.dst_progress hb }

/-- A block or an element moves the cursors on by what it consumes and writes. -/
theorem State.Inv.move (hb : s.busy = true) {nIn : Nat} (hn : s.Consumes nIn)
    (hc : nIn ≤ s.cnt.toNat) (d : List Byte) (k : Nat) :
    State.Inv { s with
      mem := s.mem.writeBytes s.dst d
      src := s.src + BitVec.ofNat 64 nIn
      dst := s.dst + BitVec.ofNat 64 (s.mop.outLen nIn)
      cnt := s.cnt - BitVec.ofNat 64 nIn
      freeCount := k } := by
  have hcnt : (s.cnt - BitVec.ofNat 64 nIn).toNat = s.cnt.toNat - nIn := toNat_sub_ofNat_of_le hc
  have hle := h.cnt_le hb
  have hdone : s.race.cnt0.toNat - (s.cnt.toNat - nIn) = s.race.cnt0.toNat - s.cnt.toNat + nIn := by omega
  have hout := s.mop.outLen_add (s.race.cnt0.toNat - s.cnt.toNat) hn.dvd
  refine { h with
    mem_wf := Memory.writeBytes_wf h.mem_wf, dec_even := ?_, tail_short := ?_, cnt_le := ?_,
    src_progress := ?_, dst_progress := ?_ }
  · intro _ ho
    show (s.cnt - BitVec.ofNat 64 nIn).toNat % 2 = 0
    have heven := h.dec_even hb ho
    have hdvd := hn.dvd
    rw [ho] at hdvd
    obtain ⟨m, rfl⟩ := hdvd
    rw [hcnt]
    simp only [MOp.elementLen] at *
    omega
  · intro hm
    refine Nat.lt_of_le_of_lt ?_ (h.tail_short hm)
    exact hcnt.trans_le (Nat.sub_le _ _)
  · intro _
    exact hcnt.trans_le ((Nat.sub_le _ _).trans hle)
  · intro _
    show s.src + BitVec.ofNat 64 nIn = s.race.src0 + (s.race.cnt0 - (s.cnt - BitVec.ofNat 64 nIn))
    rw [h.src_progress hb]
    ring
  · intro _
    have hdst : s.dst + BitVec.ofNat 64 (s.mop.outLen nIn) = s.race.dst0 + BitVec.ofNat 64
        (s.mop.outLen (s.race.cnt0.toNat - (s.cnt - BitVec.ofNat 64 nIn).toNat)) := by
      rw [hcnt, hdone, hout, h.dst_eq hb, BitVec.ofNat_add, BitVec.add_assoc]
    rw [hdst]
    dsimp only
    cases s.mop <;> rfl

theorem State.Inv.of_moveBlock (hb : s.busy = true) {nIn : Nat} (hn : s.Consumes nIn)
    (hc : nIn ≤ s.cnt.toNat) (f : List Byte → List Byte) :
    (moveBlock nIn (s.mop.outLen nIn) f s).Inv := by
  rcases moveBlock_cases nIn (s.mop.outLen nIn) f s with ⟨-, hu⟩ | ⟨-, -, hu⟩ | ⟨-, -, d, k, -, -, -, hu⟩ <;>
  rw [hu]
  · exact h.abort s.src
  · exact h.abort s.dst
  · exact h.move hb hn hc d k

theorem State.Inv.of_unitStep {t : State} (ht : unitStep s = .next t) : t.Inv := by
  rcases unitStep_next_cases ht with ⟨-, rfl⟩ | ⟨n, hn, hc, rfl⟩ | ⟨hm, hc, rfl⟩ | ⟨-, -, rfl⟩
  · exact h
  · exact h.of_moveBlock hn.busy hn hc _
  · exact h.toTail hm hc
  · exact h.finish

end

/-! ## The invariant: reset and every step -/

/-- The state right after reset meets the invariant, beside any canonical memory. -/
theorem inv_resetOf (inst : Instance) {m : Memory} (hm : m.wf = true) : (State.resetOf inst m).Inv := by
  refine .of_idle rfl hm (fun r => ?_) (fun _ => ⟨rfl, rfl⟩) (fun _ => rfl) nofun
  have hv : (State.resetOf inst m).v[r] = List.replicate inst.width.lanes Config.resetLane :=
    Vector.getElem_replicate _
  rw [hv, List.length_replicate]
  rfl

theorem State.Inv.resetUnit {s : State} (h : s.Inv) : s.resetUnit.Inv :=
  { inv_resetOf s.inst h.mem_wf with }

/-- A write of STATUS keeps the invariant: a running macro has no error to clear. -/
theorem State.Inv.writeStatus {s : State} (h : s.Inv) (v : Word64) : (s.writeStatus v).Inv := by
  rw [State.writeStatus_eq]
  refine { h with busy_no_error := ?_, busy_not_done := ?_, no_error_record := ?_, erraddr_fault := ?_ }
  · intro hb
    show (if v.getLsbD 7 then ErrCode.none else s.err) = .none
    rw [h.busy_no_error hb, ite_self]
  · intro hb
    show (if v.getLsbD 5 then false else s.done) = false
    rw [h.busy_not_done hb, ite_self]
  · cases v.getLsbD 7
    · exact h.no_error_record
    · exact fun _ => ⟨rfl, rfl⟩
  · cases v.getLsbD 7
    · exact h.erraddr_fault
    · exact fun _ => rfl

theorem Effect.inv {act : Option HostAction} {s t : State} (heff : Effect act s t) (h : s.Inv) : t.Inv := by
  cases heff with
  | nothing => exact h
  | command hb he hr => exact h.of_exec hb he hr
  | illegal hb _ w => exact h.raise hb (by decide) w _
  | dropped => exact { h with }
  | status v => exact h.writeStatus v
  | cursors hb => exact h.cursors hb _ _ _
  | read => exact { h with }
  | memWrite addr data => exact { h.writeMem addr data with }
  | reset => exact h.resetUnit
  | unit hr => exact h.of_unitStep hr

theorem State.Inv.of_step {s t : State} (h : s.Inv) (ht : step s = .next t) : t.Inv := by
  obtain ⟨_, hosts, -, heff⟩ := step_effect ht
  have h' : State.Inv { s.popSched with host := hosts } := { h with }
  exact heff.inv h'

/-- Settles O57: each effect of a step keeps the instance and the invariant. -/
theorem invariantIsKeptByEveryStep : Obligations.InvariantIsKeptByEveryStep :=
  fun _ _ ht => ⟨step_inst ht, fun h => h.of_step ht⟩

/-- Settles O2: `State.reset` is the state after reset of one instance beside empty memory. -/
theorem resetMeetsTheInvariant : Obligations.ResetMeetsTheInvariant :=
  ⟨fun inst _ hm => inv_resetOf inst hm, inv_resetOf _ rfl⟩

/-! ## Faults, errors, and the unit's steps under the invariant -/

/-- CNT is even in a DEC run, so TAIL never meets CNT = 1 (R259). -/
theorem State.Inv.unitStep_next {s : State} (h : s.Inv) : ∃ t, unitStep s = .next t := by
  rcases unitStep_cases s with ⟨-, hu⟩ | ⟨_, _, _, -, -, -, -, hu⟩ | ⟨-, -, hu⟩ | ⟨-, -, hu⟩ |
    ⟨hm, ho, hc, -⟩
  · exact ⟨_, hu⟩
  · exact ⟨_, hu⟩
  · exact ⟨_, hu⟩
  · exact ⟨_, hu⟩
  · have heven := h.dec_even (by simp [State.busy, hm]) ho
    omega

theorem writeReg_next (off : BitVec 8) (v : Word64) (s : State) : ∃ t, writeReg off v s = .next t := by
  rcases writeReg_cases off v s with ⟨-, hu⟩ | ⟨-, hu⟩ | ⟨-, hu⟩ | ⟨-, hu⟩ | ⟨-, hu⟩ | hu
  case inr.inl =>
    rcases writeCmd_cases v s with ⟨-, hw⟩ | ⟨-, -, -, hw⟩ | ⟨i, -, -, -, hw⟩
    · exact ⟨_, hu.trans hw⟩
    · exact ⟨_, hu.trans hw⟩
    · rw [hu, hw]
      exact exec_next i s
  all_goals exact ⟨_, hu⟩

theorem ite_next_or_refused {p : Prop} [Decidable p] {a b : Host.Outcome State Fault Refusal}
    (ha : (∃ t, a = .next t) ∨ a = .refused .refusedHostAccess)
    (hb : (∃ t, b = .next t) ∨ b = .refused .refusedHostAccess) :
    (∃ t, (if p then a else b) = .next t) ∨ (if p then a else b) = .refused .refusedHostAccess := by
  split
  · exact ha
  · exact hb

/-- A host action has a next state, or it is refused (R40, R300). -/
theorem hostAct_next_or_refused (a : HostAction) (s : State) :
    (∃ t, hostAct a s = .next t) ∨ hostAct a s = .refused .refusedHostAccess := by
  cases a with
  | regRead => exact ite_next_or_refused (.inl ⟨_, rfl⟩) (.inr rfl)
  | regWrite off n v => exact ite_next_or_refused (.inl (writeReg_next off v s)) (.inr rfl)
  | memRead | memWrite => exact ite_next_or_refused (.inr rfl) (.inl ⟨_, rfl⟩)
  | wait | reset => exact .inl ⟨_, rfl⟩

/-- Settles O58: the unit has a next state under the invariant, and the host has one unless its access is
refused. -/
theorem invariantRulesOutFaults : Obligations.InvariantRulesOutFaults := by
  intro s h
  rcases step_cases s with ⟨-, -, hu⟩ | ⟨a, rest, hn, hh, hu⟩ | ⟨-, hu⟩
  · exact .inl ⟨_, hu⟩
  · rw [hu]
    refine (hostAct_next_or_refused a _).imp_right fun hr => ⟨hr, hn, ?_⟩
    rw [hh]
    exact List.cons_ne_nil a rest
  · rw [hu]
    have h' : s.popSched.Inv := { h with }
    exact .inl h'.unitStep_next

theorem State.Inv.idle_of_err {s : State} (h : s.Inv) (he : s.err ≠ .none) : s.mstate = .idle := by
  by_contra hm
  exact he (h.busy_no_error (by simpa [State.busy] using hm))

/-- With an error recorded and the unit idle, only ERRCLR and reset touch the record. -/
theorem Effect.error_record {act : Option HostAction} {s t : State} (heff : Effect act s t)
    (he : s.err ≠ .none) (hm : s.mstate = .idle) (hreset : act ≠ some .reset)
    (h7 : ∀ v, act = some (.regWrite 0x08#8 8 v) → v.getLsbD 7 = false) :
    t.err = s.err ∧ t.errcmd = s.errcmd ∧ t.erraddr = s.erraddr := by
  cases heff with
  | command _ hn | illegal _ hn => exact absurd hn he
  | status v hv =>
    rw [State.writeStatus_eq, h7 v hv]
    exact ⟨rfl, rfl, rfl⟩
  | reset hr => exact absurd hr hreset
  | unit hr => exact Host.Outcome.next.inj ((unitStep_idle hm).symm.trans hr) ▸ ⟨rfl, rfl, rfl⟩
  | _ => exact ⟨rfl, rfl, rfl⟩

/-- Settles O59: under the invariant a unit with an error recorded is idle, and of an idle unit's steps
only ERRCLR and reset touch the record. -/
theorem recordedErrorIsNeverOverwritten : Obligations.RecordedErrorIsNeverOverwritten := by
  intro s t h ht he hact
  obtain ⟨act, hosts, hmoves, heff⟩ := step_effect ht
  refine heff.error_record he (h.idle_of_err he) (fun hr => ?_) fun v hv => ?_
  · obtain ⟨hn, rest, hh⟩ := hmoves _ hr
    exact (hact _ rest hn hh).1 rfl
  · obtain ⟨hn, rest, hh⟩ := hmoves _ hv
    exact (hact _ rest hn hh).2 v rfl

/-- A move of a block or an element leaves another CNT, or ends the run. -/
theorem moveBlock_ne {s : State} (hb : s.busy = true) {nIn : Nat} (hpos : 0 < nIn)
    (hc : nIn ≤ s.cnt.toNat) (nOut : Nat) (f : List Byte → List Byte) :
    moveBlock nIn nOut f s ≠ s := by
  intro heq
  rcases moveBlock_cases nIn nOut f s with ⟨-, hu⟩ | ⟨-, -, hu⟩ | ⟨-, -, d, k, -, -, -, hu⟩
  · rw [← heq, hu] at hb
    cases hb
  · rw [← heq, hu] at hb
    cases hb
  · have hcnt : s.cnt - BitVec.ofNat 64 nIn = s.cnt := congrArg State.cnt (hu.symm.trans heq)
    have := toNat_sub_ofNat_of_le hc
    rw [hcnt] at this
    omega

/-- Settles O45: an idle unit does nothing; a busy one moves a block, which lowers CNT or ends the run, or
goes to another MSTATE. -/
theorem unitStepsExactlyWhenNotIdle : Obligations.UnitStepsExactlyWhenNotIdle := by
  refine ⟨fun s hm => unitStep_idle hm, fun s h hm => ?_⟩
  obtain ⟨t, ht⟩ := h.unitStep_next
  refine ⟨t, ht, ?_⟩
  rcases unitStep_next_cases ht with ⟨hi, -⟩ | ⟨n, hn, hc, rfl⟩ | ⟨hbulk, -, rfl⟩ | ⟨htail, -, rfl⟩
  · exact absurd hi hm
  · exact moveBlock_ne hn.busy hn.pos hc _ _
  · intro heq
    rw [← heq, State.toTail_mstate] at hbulk
    cases hbulk
  · intro heq
    rw [← heq, State.finish_mstate] at htail
    cases htail

end Sys2Proof.Machine
end

section
/-! PROOFS. What commands and unit steps do not see: what never-written lane registers hold
(spec/10_state.md R31), the mapper (spec/00_scope.md R8), and, for unit steps, the lane registers and the
contents of memory (spec/10_state.md R35, spec/70_reset_and_hazards.md R330). Related states are taken to
related states. -/

namespace Sys2Proof.Machine

/-! ## Commands on two states that read alike -/

/-- Everything a command with the lane sources `srcs` looks at is the same in both states. -/
structure ReadsAlike (srcs : List VReg) (s s' : State) : Prop where
  width : s'.inst.width = s.inst.width
  admitted : ∀ k a n, admitted s'.inst k a n = admitted s.inst k a n
  src : s'.src = s.src
  dst : s'.dst = s.dst
  cnt : s'.cnt = s.cnt
  unitBytes : ∀ a n, s'.unitBytes a n = s.unitBytes a n
  lane : ∀ r ∈ srcs, s'.lane r = s.lane r

/-- The operations that commands are made of take related states to related states. -/
structure KeptByUpdates (R : State → State → Prop) : Prop where
  setV : ∀ {s s'} (r f), R s s' → R (s.setV r f) (s'.setV r f)
  raise : ∀ {s s'} (e w a), R s s' → R (s.raise e w a) (s'.raise e w a)
  afterUnitRead : ∀ {s s'} (a n), R s s' → R (s.afterUnitRead a n) (s'.afterUnitRead a n)
  advanceSrc : ∀ {s s'} (n), R s s' → R (s.advanceSrc n) (s'.advanceSrc n)
  advanceDst : ∀ {s s'} (n), R s s' → R (s.advanceDst n) (s'.advanceDst n)
  writeMem : ∀ {s s'} (a d), R s s' → R (s.writeMem a d) (s'.writeMem a d)
  acceptMacro : ∀ {s s'} (o c w), R s s' → R (s.acceptMacro o c w) (s'.acceptMacro o c w)

/-- Both outcomes are next states, and those are related. -/
def BothNext (R : State → State → Prop) (o o' : Host.Outcome State Fault Refusal) : Prop :=
  ∃ t t', o = .next t ∧ o' = .next t' ∧ R t t'

section
variable {R : State → State → Prop} {s s' : State} {srcs : List VReg}

theorem BothNext.of_next {o o' : Host.Outcome State Fault Refusal} {t : State} (h : BothNext R o o')
    (ho : o = .next t) : ∃ t', o' = .next t' ∧ R t t' := by
  obtain ⟨u, t', hu, ht', hR⟩ := h
  exact ⟨t', ht', Host.Outcome.next.inj (hu.symm.trans ho) ▸ hR⟩

theorem bothNext_next {t t' : State} (h : R t t') : BothNext R (.next t) (.next t') :=
  ⟨t, t', rfl, rfl, h⟩

theorem bothNext_ite {p p' : Prop} [Decidable p] [Decidable p'] (hp : p' ↔ p)
    {o₁ o₁' o₂ o₂' : Host.Outcome State Fault Refusal} (h₁ : BothNext R o₁ o₁')
    (h₂ : BothNext R o₂ o₂') : BothNext R (if p then o₁ else o₂) (if p' then o₁' else o₂') := by
  by_cases h : p
  · rwa [if_pos h, if_pos (hp.mpr h)]
  · rwa [if_neg h, if_neg (mt hp.mp h)]

variable (hR : KeptByUpdates R) (h : R s s')
include hR h

theorem bothNext_setV (vd : VReg) {f f' : Nat → Byte} (hf : f' = f) :
    BothNext R (.next (s.setV vd f)) (.next (s'.setV vd f')) :=
  bothNext_next (hf ▸ hR.setV vd f h)

variable (hs : ReadsAlike srcs s s')
include hs

theorem bothNext_loadAtSrc (i : Instr) (n : Nat) {write : List Byte → State → State}
    (hw : ∀ b t t', R t t' → R (write b t) (write b t')) :
    BothNext R (loadAtSrc i n write s) (loadAtSrc i n write s') := by
  unfold loadAtSrc
  rw [hs.src, hs.admitted, hs.unitBytes]
  exact bothNext_ite Iff.rfl (bothNext_next (hR.advanceSrc n (hw _ _ _ (hR.afterUnitRead _ n h))))
    (bothNext_next (hR.raise _ _ _ h))

theorem bothNext_storeAtDst (i : Instr) {data data' : List Byte} (hd : data' = data) :
    BothNext R (storeAtDst i data s) (storeAtDst i data' s') := by
  subst hd
  unfold storeAtDst
  rw [hs.dst, hs.admitted]
  exact bothNext_ite Iff.rfl (bothNext_next (hR.advanceDst _ (hR.writeMem _ _ h)))
    (bothNext_next (hR.raise _ _ _ h))

theorem bothNext_reorder (i : Instr) {pick : State → (Nat → Byte) → (Nat → Byte) → Nat → Byte}
    (hp : pick s' = pick s) (vd : VReg) {va vb : VReg} (ha : va ∈ srcs) (hb : vb ∈ srcs) :
    BothNext R (reorder i pick vd va vb s) (reorder i pick vd va vb s') :=
  bothNext_ite (by rw [hs.width]) (bothNext_next (hR.raise _ _ _ h))
    (bothNext_setV hR h vd (by rw [hp, hs.lane va ha, hs.lane vb hb]))

theorem bothNext_laneMap1 {f f' : Byte → Byte} (hf : f' = f) (vd : VReg) {va : VReg} (ha : va ∈ srcs) :
    BothNext R (.next (laneMap1 f vd va s)) (.next (laneMap1 f' vd va s')) :=
  bothNext_setV hR h vd (by rw [hf, hs.lane va ha])

theorem bothNext_laneMapImm (f : Byte → Byte → Byte) (k : Byte) (vd : VReg) {va : VReg}
    (ha : va ∈ srcs) : BothNext R (.next (laneMapImm f vd va k s)) (.next (laneMapImm f vd va k s')) :=
  bothNext_setV hR h vd (by rw [hs.lane va ha])

theorem bothNext_laneMap2 (f : Byte → Byte → Byte) (vd : VReg) {va vb : VReg} (ha : va ∈ srcs)
    (hb : vb ∈ srcs) : BothNext R (.next (laneMap2 f vd va vb s)) (.next (laneMap2 f vd va vb s')) :=
  bothNext_setV hR h vd (by rw [hs.lane va ha, hs.lane vb hb])

omit hR h in
theorem ReadsAlike.lanes : s'.lanes = s.lanes := congrArg Width.lanes hs.width

omit hR h in
theorem ReadsAlike.group : s'.group = s.group := by rw [State.group, hs.lanes, State.group]

omit hR h in
theorem ReadsAlike.groups : s'.groups = s.groups := by
  rw [State.groups, hs.lanes, hs.group, State.groups]

omit hR h in
theorem ReadsAlike.lanesOf {r : VReg} (hr : r ∈ srcs) : s'.lanesOf r = s.lanesOf r := by
  rw [State.lanesOf, hs.lanes, hs.lane r hr, State.lanesOf]

end

/-- A command takes related states that read alike to related states. N2A alone looks at the mapper, and
both techniques give the same byte (R162). -/
theorem exec_related {R : State → State → Prop} (hR : KeptByUpdates R) {s s' : State} (h : R s s')
    {i : Instr} (hs : ReadsAlike i.laneSources s s') : BothNext R (exec i s) (exec i s') := by
  have src1 : ∀ a : VReg, a ∈ [a] := fun a => List.mem_singleton_self a
  have fst : ∀ a b : VReg, a ∈ [a, b] := fun a b => List.mem_cons_self
  have snd : ∀ a b : VReg, b ∈ [a, b] := fun a b => List.mem_cons_of_mem a (src1 b)
  cases i with
  | nop => exact bothNext_next h
  | splat vd imm8 => exact bothNext_setV hR h vd rfl
  | ld vd =>
    simp only [exec, execLd, hs.lanes]
    exact bothNext_loadAtSrc hR h hs _ _ fun _ _ _ ht => hR.setV vd _ ht
  | ldb vd =>
    simp only [exec, execLdb]
    exact bothNext_loadAtSrc hR h hs _ _ fun _ _ _ ht => hR.setV vd _ ht
  | ld2 vd ve =>
    simp only [exec, execLd2, hs.lanes]
    exact bothNext_ite Iff.rfl (bothNext_next (hR.raise _ _ _ h))
      (bothNext_loadAtSrc hR h hs _ _ fun _ _ _ ht => hR.setV ve _ (hR.setV vd _ ht))
  | st va => exact bothNext_storeAtDst hR h hs _ (hs.lanesOf (src1 va))
  | stb va => exact bothNext_storeAtDst hR h hs _ (by rw [hs.lane va (src1 va)])
  | and vd va vb | or vd va vb | xor vd va vb | add vd va vb | sub vd va vb | cmb vd va vb =>
    exact bothNext_laneMap2 hR h hs _ vd (fst va vb) (snd va vb)
  | andi vd va | ori vd va | xori vd va | addi vd va =>
    exact bothNext_laneMapImm hR h hs _ _ vd (src1 va)
  | shli vd va | shri vd va | rng vd va | a2n vd va =>
    exact bothNext_laneMap1 hR h hs rfl vd (src1 va)
  | n2a vd va c =>
    refine bothNext_laneMap1 hR h hs (funext fun x => ?_) vd (src1 va)
    rw [n2aByte_eq_hexdigit, n2aByte_eq_hexdigit]
  | sel vd vm va vb =>
    refine bothNext_setV hR h vd ?_
    rw [hs.lane vm List.mem_cons_self, hs.lane va (List.mem_cons_of_mem vm (fst va vb)),
      hs.lane vb (List.mem_cons_of_mem vm (snd va vb))]
  | ilvlo vd va vb =>
    rw [exec_ilvlo, exec_ilvlo]
    exact bothNext_reorder hR h hs _ (by rw [hs.group]) vd (fst va vb) (snd va vb)
  | ilvhi vd va vb =>
    rw [exec_ilvhi, exec_ilvhi]
    exact bothNext_reorder hR h hs _ (by rw [hs.group]) vd (fst va vb) (snd va vb)
  | zipglo vd va vb =>
    rw [exec_zipglo, exec_zipglo]
    exact bothNext_reorder hR h hs _ (by rw [hs.group]) vd (fst va vb) (snd va vb)
  | zipghi vd va vb =>
    rw [exec_zipghi, exec_zipghi]
    exact bothNext_reorder hR h hs _ (by rw [hs.group, hs.groups]) vd (fst va vb) (snd va vb)
  | enc c => exact bothNext_next (hR.acceptMacro _ _ _ h)
  | dec =>
    exact bothNext_ite (by rw [hs.cnt]) (bothNext_next (hR.raise _ _ _ h))
      (bothNext_next (hR.acceptMacro _ _ _ h))

/-! ## Never-written lane registers -/

section
variable {s s' : State}

theorem agreeOnWritten_iff : AgreeOnWritten s s' ↔
    ∃ w : Vector LaneReg 8, s' = { s with v := w } ∧ ∀ r : VReg, s.init[r] = true → w[r] = s.v[r] :=
  ⟨fun h => ⟨s'.v, h.rest, h.written⟩, by rintro ⟨w, rfl, hw⟩; exact ⟨rfl, hw⟩⟩

theorem AgreeOnWritten.setV (vd : VReg) (f : Nat → Byte) (h : AgreeOnWritten s s') :
    AgreeOnWritten (s.setV vd f) (s'.setV vd f) := by
  obtain ⟨w, rfl, hw⟩ := agreeOnWritten_iff.mp h
  refine ⟨rfl, fun r hr => ?_⟩
  by_cases hrd : r = vd
  · rw [hrd, State.setV_v_self, State.setV_v_self]
    rfl
  · rw [State.setV_init_get, if_neg (Ne.symm hrd)] at hr
    rw [State.setV_v_other _ _ hrd, State.setV_v_other _ _ hrd]
    exact hw r hr

/-- An update that leaves the lane registers and their `init` bits alone. -/
theorem AgreeOnWritten.update {g : State → State}
    (hg : ∀ (s : State) (w : Vector LaneReg 8), g { s with v := w } = { g s with v := w })
    (hv : (g s).v = s.v) (hi : (g s).init = s.init) (h : AgreeOnWritten s s') :
    AgreeOnWritten (g s) (g s') := by
  obtain ⟨w, rfl, hw⟩ := agreeOnWritten_iff.mp h
  refine agreeOnWritten_iff.mpr ⟨w, hg s w, fun r hr => ?_⟩
  rw [hv]
  exact hw r (hi ▸ hr)

theorem agreeOnWritten_keptByUpdates : KeptByUpdates AgreeOnWritten where
  setV r f h := h.setV r f
  raise e w a h := h.update (g := fun s => s.raise e w a) (fun _ _ => rfl) rfl rfl
  afterUnitRead a n h := h.update (g := fun s => s.afterUnitRead a n) (fun _ _ => rfl) rfl rfl
  advanceSrc n h := h.update (g := fun s => s.advanceSrc n) (fun _ _ => rfl) rfl rfl
  advanceDst n h := h.update (g := fun s => s.advanceDst n) (fun _ _ => rfl) rfl rfl
  writeMem a d h := h.update (g := fun s => s.writeMem a d) (fun _ _ => rfl) rfl rfl
  acceptMacro o c w h := h.update (g := fun s => s.acceptMacro o c w) (fun _ _ => rfl) rfl rfl

/-- A command that reads written registers only sees no difference. -/
theorem AgreeOnWritten.readsAlike {i : Instr} (h : AgreeOnWritten s s')
    (hi : s.readsUninit i = false) : ReadsAlike i.laneSources s s' := by
  have hinit : ∀ r ∈ i.laneSources, s.init[r] = true := by
    simpa [State.readsUninit] using hi
  obtain ⟨w, rfl, hw⟩ := agreeOnWritten_iff.mp h
  refine ⟨rfl, fun _ _ _ => rfl, rfl, rfl, rfl, fun _ _ => rfl, fun r hr => funext fun k => ?_⟩
  show (w[r]).getD k 0#8 = (s.v[r]).getD k 0#8
  rw [hw r (hinit r hr)]

end

/-- Settles O60: agreeing on written registers is kept by every operation of a command, and the command's
sources are written. -/
theorem unwrittenLanesNeverLeak : Obligations.UnwrittenLanesNeverLeak :=
  fun _ _ _ _ h hi ht =>
    (exec_related agreeOnWritten_keptByUpdates h (h.readsAlike hi)).of_next ht

/-! ## The unit step on two states -/

section
variable {s : State}

/-- The length of what a block step writes depends on the length of what it reads alone. -/
def LengthOnly (f : List Byte → List Byte) : Prop :=
  ∀ x y, x.length = y.length → (f x).length = (f y).length

theorem MOp.blockFn_length (op : MOp) (c : CaseMode) (x : List Byte) :
    (op.blockFn c x).length = op.outLen x.length := by
  cases op
  · exact encBlock_length c x
  · exact decBlock_length_two x

theorem blockFn_lengthOnly (s : State) : LengthOnly s.blockFn := fun x y h => by
  rw [State.blockFn, MOp.blockFn_length, MOp.blockFn_length, h]

/-- A unit step takes states that agree on what chooses it to related states, if block moves and the
transitions do. -/
theorem unitStep_related {R : State → State → Prop} {s s' t : State} (h : R s s')
    (hop : s'.mop = s.mop) (hstate : s'.mstate = s.mstate) (hcase : s'.mcase = s.mcase)
    (hcnt : s'.cnt = s.cnt) (hlanes : s'.lanes = s.lanes)
    (hmove : ∀ nIn nOut f, LengthOnly f → R (moveBlock nIn nOut f s) (moveBlock nIn nOut f s'))
    (htail : R s.toTail s'.toTail) (hfinish : R s.finish s'.finish) (ht : unitStep s = .next t) :
    ∃ t', unitStep s' = .next t' ∧ R t t' := by
  have hblock : s'.blockLen = s.blockLen := by rw [State.blockLen, hop, hlanes, State.blockLen]
  have hfn : s'.blockFn = s.blockFn := by rw [State.blockFn, hop, hcase, State.blockFn]
  rcases unitStep_next_cases ht with ⟨hm, rfl⟩ | ⟨n, hn, hc, rfl⟩ | ⟨hm, hc, rfl⟩ | ⟨hm, hc, rfl⟩
  · exact ⟨s', unitStep_idle (hstate.trans hm), h⟩
  · have hn' : s'.Consumes n := by rwa [State.Consumes, hstate, hblock, hop]
    refine ⟨_, unitStep_consumes hn' (hcnt ▸ hc), ?_⟩
    rw [hop, hfn]
    exact hmove _ _ _ (blockFn_lengthOnly s)
  · exact ⟨_, unitStep_toTail (hstate.trans hm) (by rwa [hcnt, hblock]), htail⟩
  · exact ⟨_, unitStep_finish (hstate.trans hm) (hcnt.trans hc), hfinish⟩

end

/-! ## The mapper -/

/-- The same state in an instance with the mapper `m`. -/
def State.withMapper (m : Mapper) (s : State) : State := { s with inst := { s.inst with mapper := m } }

theorem withMapper_keptByUpdates (m : Mapper) : KeptByUpdates fun s s' => s' = s.withMapper m where
  setV _ _ h := by subst h; rfl
  raise _ _ _ h := by subst h; rfl
  afterUnitRead _ _ h := by subst h; rfl
  advanceSrc _ h := by subst h; rfl
  advanceDst _ h := by subst h; rfl
  writeMem _ _ h := by subst h; rfl
  acceptMacro _ _ _ h := by subst h; rfl

theorem exec_withMapper {i : Instr} {s t : State} (m : Mapper) (ht : exec i s = .next t) :
    exec i (s.withMapper m) = .next (t.withMapper m) := by
  have hs : ReadsAlike i.laneSources s (s.withMapper m) :=
    ⟨rfl, fun _ _ _ => rfl, rfl, rfl, rfl, fun _ _ => rfl, fun _ _ => rfl⟩
  obtain ⟨_, ht', rfl⟩ := (exec_related (withMapper_keptByUpdates m) rfl hs).of_next ht
  exact ht'

theorem moveBlock_withMapper (nIn nOut : Nat) (f : List Byte → List Byte) (m : Mapper) (s : State) :
    moveBlock nIn nOut f (s.withMapper m) = (moveBlock nIn nOut f s).withMapper m := by
  simp only [moveBlock, apply_ite (State.withMapper m)]
  rfl

theorem unitStep_withMapper {s t : State} (m : Mapper) (ht : unitStep s = .next t) :
    unitStep (s.withMapper m) = .next (t.withMapper m) := by
  obtain ⟨_, ht', rfl⟩ := unitStep_related (R := fun s s' => s' = s.withMapper m)
    (s' := s.withMapper m) rfl rfl rfl rfl rfl rfl (fun _ _ _ _ => moveBlock_withMapper ..) rfl rfl ht
  exact ht'

/-- Settles O28: both techniques give the digit of the low nibble, no other rule names the mapper. -/
theorem mapperChangesNoResult : Obligations.MapperChangesNoResult :=
  ⟨fun c x => (n2aByte_eq_hexdigit .lut c x).trans (n2aByte_eq_hexdigit .arith c x).symm,
    fun _ _ _ m ht => exec_withMapper m ht, fun _ _ m ht => unitStep_withMapper m ht⟩

/-! ## Lane registers and memory under a unit step -/

/-- The same state with other lane registers and `init` bits. -/
def State.withLanes (v : Vector LaneReg 8) (b : Vector Bool 8) (s : State) : State :=
  { s with v := v, init := b }

theorem moveBlock_withLanes (nIn nOut : Nat) (f : List Byte → List Byte) (v : Vector LaneReg 8)
    (b : Vector Bool 8) (s : State) :
    moveBlock nIn nOut f (s.withLanes v b) = (moveBlock nIn nOut f s).withLanes v b := by
  simp only [moveBlock, apply_ite (State.withLanes v b)]
  rfl

theorem unitStep_withLanes {s t : State} (v : Vector LaneReg 8) (b : Vector Bool 8)
    (ht : unitStep s = .next t) : unitStep (s.withLanes v b) = .next (t.withLanes v b) := by
  obtain ⟨_, ht', rfl⟩ := unitStep_related (R := fun s s' => s' = s.withLanes v b)
    (s' := s.withLanes v b) rfl rfl rfl rfl rfl rfl (fun _ _ _ _ => moveBlock_withLanes ..) rfl rfl ht
  exact ht'

/-- Two states that differ at most in memory. -/
def SameButMemory (s s' : State) : Prop := ∃ m, s' = { s with mem := m }

/-- With another memory a block move aborts in the same way, or writes other bytes at the same places. -/
theorem moveBlock_sameButMemory {nIn nOut : Nat} {f : List Byte → List Byte} (hf : LengthOnly f)
    (s : State) (m : Memory) :
    SameButMemory (moveBlock nIn nOut f s) (moveBlock nIn nOut f { s with mem := m }) := by
  have hlen : (f (State.unitBytes { s with mem := m } s.src nIn)).length
      = (f (s.unitBytes s.src nIn)).length := hf _ _ (by simp)
  unfold moveBlock
  dsimp only
  split
  · split
    · exact ⟨_, by rw [hlen]; rfl⟩
    · exact ⟨m, rfl⟩
  · exact ⟨m, rfl⟩

/-- Settles O46: a block move takes only bytes from memory and none from the lane registers; run with the
lanes it has, a state ends with those lanes. -/
theorem unitStepsIgnoreLanesAndData : Obligations.UnitStepsIgnoreLanesAndData := by
  intro s t ht
  have hsame : t = t.withLanes s.v s.init :=
    Host.Outcome.next.inj (ht.symm.trans (unitStep_withLanes s.v s.init ht))
  refine ⟨(congrArg State.v hsame :), (congrArg State.init hsame :), fun v b => unitStep_withLanes v b ht,
    fun m => ?_⟩
  obtain ⟨_, ht', m', rfl⟩ := unitStep_related (R := SameButMemory) (s' := { s with mem := m })
    ⟨m, rfl⟩ rfl rfl rfl rfl rfl (fun _ _ _ hf => moveBlock_sameButMemory hf s m) ⟨m, rfl⟩ ⟨m, rfl⟩ ht
  exact ⟨m', ht'⟩

end Sys2Proof.Machine
end

section
/-! PROOFS. The lane commands as numbers (spec/42_lane_alu.md, spec/40_classify.md, spec/41_nibble_map.md) and
the loops of the reorder commands (spec/43_lane_reorder.md): the byte functions give the numbers of the
rules, lane by lane. -/

namespace Sys2Proof.Machine

section
variable {s t : State} {vd : VReg} {f g : Nat → Byte}

theorem WritesLanes.congr (h : WritesLanes s t vd f) (hfg : ∀ i, f i = g i) : WritesLanes s t vd g :=
  funext hfg ▸ h

/-- What was written is what the register holds. -/
theorem WritesLanes.self (h : WritesLanes s t vd f) : WritesLanes s t vd (t.lane vd) :=
  { h with lanes := fun _ _ => rfl }

end

/-! ## Lane arithmetic and shifts, modulo 256 -/

theorem add_eq_ofNat (a b : Byte) : a + b = BitVec.ofNat 8 ((a.toNat + b.toNat) % 256) := by
  apply BitVec.eq_of_toNat_eq
  simp

theorem sub_eq_ofNat (a b : Byte) : a - b = BitVec.ofNat 8 ((a.toNat + 256 - b.toNat) % 256) := by
  have ha := a.isLt
  have hb := b.isLt
  apply BitVec.eq_of_toNat_eq
  rw [BitVec.toNat_sub, BitVec.toNat_ofNat]
  omega

theorem shiftLeft_eq_ofNat (a : Byte) (n : Nat) : a <<< n = BitVec.ofNat 8 (a.toNat * 2 ^ n % 256) := by
  apply BitVec.eq_of_toNat_eq
  simp [Nat.shiftLeft_eq]

theorem ushiftRight_eq_ofNat (a : Byte) (n : Nat) : a >>> n = BitVec.ofNat 8 (a.toNat / 2 ^ n) := by
  apply BitVec.eq_of_toNat_eq
  have hlt : a.toNat / 2 ^ n < 2 ^ 8 := (Nat.div_le_self _ _).trans_lt a.isLt
  rw [BitVec.toNat_ushiftRight, BitVec.toNat_ofNat, Nat.mod_eq_of_lt hlt, Nat.shiftRight_eq_div_pow]

/-- Settles O21: each is one lane map of the byte operation. -/
theorem registerLogicAndArithmetic : Obligations.RegisterLogicAndArithmetic := fun _ _ _ _ =>
  ⟨⟨_, rfl, laneMap2_writes ..⟩, ⟨_, rfl, laneMap2_writes ..⟩, ⟨_, rfl, laneMap2_writes ..⟩,
    ⟨_, rfl, (laneMap2_writes ..).congr fun _ => add_eq_ofNat ..⟩,
    ⟨_, rfl, (laneMap2_writes ..).congr fun _ => sub_eq_ofNat ..⟩⟩

/-- Settles O22: each is one lane map, of the immediate or of the shift. -/
theorem immediateFormsAndShifts : Obligations.ImmediateFormsAndShifts := fun _ _ _ _ _ =>
  ⟨⟨_, rfl, laneMapImm_writes ..⟩, ⟨_, rfl, laneMapImm_writes ..⟩, ⟨_, rfl, laneMapImm_writes ..⟩,
    ⟨_, rfl, (laneMapImm_writes ..).congr fun _ => add_eq_ofNat ..⟩,
    ⟨_, rfl, (laneMap1_writes ..).congr fun _ => shiftLeft_eq_ofNat ..⟩,
    ⟨_, rfl, (laneMap1_writes ..).congr fun _ => ushiftRight_eq_ofNat ..⟩⟩

/-! ## Classification and select -/

/-- Settles O23: the byte comparison is that of the unsigned numbers. -/
theorem rngGivesTheRangeMask : Obligations.RngGivesTheRangeMask := fun _ vd va lo hi =>
  ⟨_, rfl, laneMap1_writes (rngByte lo hi) vd va _⟩

theorem getLsbD_selByte (m a b : Byte) {k : Nat} (hk : k < 8) :
    (selByte m a b).getLsbD k = if m.getLsbD k then a.getLsbD k else b.getLsbD k := by
  simp only [selByte, BitVec.getLsbD_or, BitVec.getLsbD_and, BitVec.getLsbD_not, hk, decide_true,
    Bool.true_and]
  cases m.getLsbD k <;> simp

/-- Settles O24: the select takes each bit by the mask's bit. -/
theorem selSelectsPerBit : Obligations.SelSelectsPerBit := by
  intro s vd vm va vb
  have hw := laneMap3_writes selByte vd vm va vb s
  refine ⟨_, rfl, hw.self, fun i k hi hk => ?_⟩
  rw [hw.lanes i hi, getLsbD_selByte _ _ _ hk]

/-! ## Nibbles and characters -/

theorem hexdigit_eq_ofNat (n : Nibble) (c : CaseMode) : hexdigit n c =
    BitVec.ofNat 8 (if n.toNat ≤ 9 then 0x30 + n.toNat else (letterOffset c).toNat + n.toNat) := by
  cases c <;> revert n <;> decide

/-- Settles O27: either mapper gives the digit of the low nibble. -/
theorem n2aGivesTheHexDigit : Obligations.N2aGivesTheHexDigit := by
  intro s vd va c
  obtain ⟨t, ht, hw⟩ := exec_n2a_writes vd va c s
  refine ⟨t, ht, hw.congr fun i => ?_⟩
  rw [n2aByte_eq_hexdigit, hexdigit_eq_ofNat, toNat_loNibble]
  cases c <;> rfl

theorem hexval_eq_ofNat (x : Byte) : hexval x = BitVec.ofNat 8
    (if 0x30 ≤ x.toNat ∧ x.toNat ≤ 0x39 then x.toNat - 0x30
      else if 0x41 ≤ x.toNat ∧ x.toNat ≤ 0x46 then x.toNat - 0x37
      else if 0x61 ≤ x.toNat ∧ x.toNat ≤ 0x66 then x.toNat - 0x57 else 0) := by
  unfold hexval
  simp only [BitVec.le_def, BitVec.toNat_ofNat]
  split_ifs <;> bv_omega

/-- Settles O29: the three masked differences are the one hex value. -/
theorem a2nGivesTheHexValue : Obligations.A2nGivesTheHexValue := by
  intro s vd va
  refine ⟨_, rfl, (laneMap1_writes a2nByte vd va s).congr fun i => ?_⟩
  rw [a2nByte_eq_hexval, hexval_eq_ofNat]

/-- Settles O30: the high operand shifted by four is its number times 16 modulo 256. -/
theorem cmbCombinesNibbles : Obligations.CmbCombinesNibbles := by
  intro s vd va vb
  refine ⟨_, rfl, (laneMap2_writes combine vd va vb s).congr fun i => ?_⟩
  rw [combine, shiftLeft_eq_ofNat]
  rfl

/-! ## The loops of the reorder commands -/

theorem State.groupLane_lt {s : State} {g p : Nat} (hg : g < s.groups) (hp : p < s.group) :
    g * s.group + p < s.lanes := by
  have hend : (g + 1) * s.group ≤ s.groups * s.group := Nat.mul_le_mul_right _ hg
  rw [s.groups_mul_group, Nat.succ_mul] at hend
  omega

section
variable {s t : State} {vd : VReg} {a b : Nat → Byte}

/-- The loop of R211 and R212, with the half group that begins `base` lanes into its group. -/
theorem WritesLanes.interleaved {base g k : Nat}
    (hw : WritesLanes s t vd (interleaveLane s.group base a b)) (hg : g < s.groups)
    (hk : k < s.group / 2) :
    t.lane vd (g * s.group + 2 * k) = a (g * s.group + base + k) ∧
    t.lane vd (g * s.group + 2 * k + 1) = b (g * s.group + base + k) := by
  have heven : 2 * k < s.group := by omega
  have hodd : 2 * k + 1 < s.group := by omega
  constructor
  · rw [hw.lanes _ (State.groupLane_lt hg heven), interleaveLane_mul_add heven, if_pos (by omega),
      Nat.mul_div_cancel_left k (by decide)]
  · rw [Nat.add_assoc, hw.lanes _ (State.groupLane_lt hg hodd), interleaveLane_mul_add hodd,
      if_neg (by omega), Nat.mul_add_div (by decide)]
    rfl

/-- The loop of R213 and R214, from group `first` of S on. -/
theorem WritesLanes.zipped {first j k : Nat} (hw : WritesLanes s t vd (zipGroupLane s.group first a b))
    (hj : j < s.groups) (hk : k < s.group) :
    t.lane vd (j * s.group + k) =
      if (j + first) % 2 = 0 then a ((j + first) / 2 * s.group + k)
      else b ((j + first) / 2 * s.group + k) := by
  have hdiv : (j * s.group + k) / s.group = j := by
    rw [Nat.add_comm, Nat.add_mul_div_right _ _ s.group_pos, Nat.div_eq_of_lt hk, Nat.zero_add]
  rw [hw.lanes _ (State.groupLane_lt hj hk), zipGroupLane, hdiv, Nat.mul_add_mod_of_lt hk]

end

/-- Settles O33: both are the interleave, of the half groups at 0 and at G/2. -/
theorem interleaveWithinGroups : Obligations.InterleaveWithinGroups := by
  intro s vd va vb h
  obtain ⟨t, ht, hw⟩ := exec_ilvlo_writes h vd va vb
  obtain ⟨u, hu, hw'⟩ := exec_ilvhi_writes h vd va vb
  exact ⟨⟨t, ht, hw.self, fun _ _ => hw.interleaved⟩, ⟨u, hu, hw'.self, fun _ _ => hw'.interleaved⟩⟩

/-- Settles O34: both take groups of the sequence S, from group 0 and from group n on. -/
theorem zipPermutesGroups : Obligations.ZipPermutesGroups := by
  intro s vd va vb h
  obtain ⟨t, ht, hw⟩ := exec_zipglo_writes h vd va vb
  obtain ⟨u, hu, hw'⟩ := exec_zipghi_writes h vd va vb
  exact ⟨⟨t, ht, hw.self, fun _ _ => hw.zipped⟩, ⟨u, hu, hw'.self, fun _ _ => hw'.zipped⟩⟩

end Sys2Proof.Machine
end

section
/-! PROOFS. Loads and stores at the cursors, and admission (spec/44_load_store.md, spec/20_memory.md R71,
R74): what a load puts into its registers, what a store leaves in memory, and what neither changes. -/

namespace Sys2Proof.Machine

/-! ## Admitted ranges -/

/-- Settles O40: an admitted range ends at 2^64 at the latest. -/
theorem cursorWrapsOnlyToZero : Obligations.CursorWrapsOnlyToZero := by
  intro inst kind a n h
  have hle := admitted_no_wrap h
  have hsum : (a + BitVec.ofNat 64 n).toNat = (a.toNat + n) % 2 ^ 64 := by simp
  rcases Nat.lt_or_eq_of_le hle with hlt | heq
  · exact .inl ⟨by rw [hsum, Nat.mod_eq_of_lt hlt], hlt⟩
  · exact .inr ⟨heq, BitVec.eq_of_toNat_eq (by rw [hsum, heq]; rfl)⟩

theorem not_overlapsWindow_of_admitted {inst : Instance} {k : AccessKind} {a : Addr} {n : Nat}
    (h : admitted inst k a n = true) : overlapsWindow inst a n = false := by
  have hp := admitted_platform h
  simp only [platformAdmits, Bool.and_eq_true, Bool.not_eq_true'] at hp
  exact hp.1

/-- Settles O41: such a range begins past the window's end, or so far below its base that it ends before
it. -/
theorem windowIsNeverAdmitted : Obligations.WindowIsNeverAdmitted := by
  intro inst kind a n j h hj
  have ho := not_overlapsWindow_of_admitted h
  have hn : n ≠ 0 := by omega
  have hpast : 256 ≤ (a - inst.hxuBase).toNat := by
    simp [overlapsWindow, inWindow, hn] at ho
    exact ho.1
  have hbelow : n ≤ (inst.hxuBase - a).toNat := by
    simp [overlapsWindow, inWindow, hn] at ho
    exact ho.2
  bv_omega

/-! ## Loads -/

section
variable {s : State} {n : Nat}

theorem loadAtSrc_of_admitted (h : admitted s.inst .rd s.src n = true) (i : Instr)
    (write : List Byte → State → State) :
    loadAtSrc i n write s =
      .next ((write (s.unitBytes s.src n) (s.afterUnitRead s.src n)).advanceSrc n) :=
  if_pos h

theorem loadAtSrc_of_not_admitted (h : admitted s.inst .rd s.src n = false) (i : Instr)
    (write : List Byte → State → State) :
    loadAtSrc i n write s = .next (s.raise .memFault (encode i) s.src) :=
  if_neg (by rw [h]; decide)

theorem exec_ld (vd : VReg) (s : State) : exec (.ld vd) s =
    loadAtSrc (.ld vd) s.lanes (fun b t => t.setV vd fun i => b.getD i 0#8) s := rfl

theorem exec_ldb (vd : VReg) (s : State) : exec (.ldb vd) s =
    loadAtSrc (.ldb vd) 1 (fun b t => t.setV vd fun i => b.getD i 0x00#8) s := rfl

/-- A load of `n` bytes into `vd` in order, missing ones 0, before SRC advances (R230, R233). -/
def State.loaded (s : State) (n : Nat) (vd : VReg) : State :=
  (s.afterUnitRead s.src n).setV vd fun i => (s.unitBytes s.src n).getD i 0#8

theorem State.loaded_writes (s : State) (n : Nat) (vd : VReg) :
    WritesLanes (s.afterUnitRead s.src n) (s.loaded n vd) vd
      fun i => (s.unitBytes s.src n).getD i 0#8 :=
  State.writesLanes_setV ..

theorem exec_ld_of_admitted (vd : VReg) (h : admitted s.inst .rd s.src s.lanes = true) :
    exec (.ld vd) s = .next ((s.loaded s.lanes vd).advanceSrc s.lanes) :=
  (exec_ld vd s).trans (loadAtSrc_of_admitted h ..)

theorem exec_ldb_of_admitted (vd : VReg) (h : admitted s.inst .rd s.src 1 = true) :
    exec (.ldb vd) s = .next ((s.loaded 1 vd).advanceSrc 1) :=
  (exec_ldb vd s).trans (loadAtSrc_of_admitted h ..)

/-- A loaded byte that no racing write hit is memory's. -/
theorem State.loaded_lane {i : Nat} (hi : i < s.lanes) (hn : i < n)
    (hc : (s.src + BitVec.ofNat 64 i).toNat ∉ s.race.bytes) (vd : VReg) :
    (s.loaded n vd).lane vd i = s.mem.read (s.src + BitVec.ofNat 64 i).toNat :=
  ((s.loaded_writes n vd).lanes i hi).trans (State.unitBytes_getD hn hc _)

theorem State.loaded_lane_beyond {i : Nat} (hi : i < s.lanes) (hn : n ≤ i) (vd : VReg) :
    (s.loaded n vd).lane vd i = 0x00#8 := by
  rw [(s.loaded_writes n vd).lanes i hi, List.getD_eq_default _ _ (by simpa using hn)]

/-- A load changes no other register. -/
theorem State.loaded_other {r vd : VReg} (hr : r ≠ vd) :
    (s.loaded n vd).v[r] = s.v[r] ∧ (s.loaded n vd).init[r] = s.init[r] :=
  ⟨(s.loaded_writes n vd).others r hr, (s.loaded_writes n vd).init_others r hr⟩

end

/-- Settles O36: both are the load in order, of W bytes and of one. -/
theorem loadsFillLanesAndAdvanceSrc : Obligations.LoadsFillLanesAndAdvanceSrc := by
  constructor
  · intro s vd h
    exact ⟨_, exec_ld_of_admitted vd h, fun i hi hc => State.loaded_lane hi hi hc vd, rfl,
      (s.loaded_writes _ vd).init_dest, fun _ => State.loaded_other, fun _ => rfl, rfl⟩
  · intro s vd h
    refine ⟨_, exec_ldb_of_admitted vd h, fun hc => ?_,
      fun i h1 hi => State.loaded_lane_beyond hi h1 vd, rfl, (s.loaded_writes _ vd).init_dest,
      fun _ => State.loaded_other, fun _ => rfl, rfl⟩
    have h0 : s.src + BitVec.ofNat 64 0 = s.src := by simp
    have hlane := State.loaded_lane (n := 1) s.lanes_pos (by decide) (h0.symm ▸ hc) vd
    rwa [h0] at hlane

section
variable {s : State} {vd ve : VReg}

theorem exec_ld2_of_ne (hd : vd ≠ ve) : exec (.ld2 vd ve) s = loadAtSrc (.ld2 vd ve) (2 * s.lanes)
    (fun b t => (t.setV vd fun i => b.getD (2 * i) 0#8).setV ve fun i => b.getD (2 * i + 1) 0#8) s :=
  if_neg hd

/-- With two destinations LD2 writes one register after the other from the same 2W bytes (R231). -/
theorem exec_ld2_of_admitted (hd : vd ≠ ve) (h : admitted s.inst .rd s.src (2 * s.lanes) = true) :
    ∃ t u, exec (.ld2 vd ve) s = .next (u.advanceSrc (2 * s.lanes)) ∧
      WritesLanes (s.afterUnitRead s.src (2 * s.lanes)) t vd
        (fun i => (s.unitBytes s.src (2 * s.lanes)).getD (2 * i) 0#8) ∧
      WritesLanes t u ve (fun i => (s.unitBytes s.src (2 * s.lanes)).getD (2 * i + 1) 0#8) :=
  ⟨_, _, (exec_ld2_of_ne hd).trans (loadAtSrc_of_admitted h ..), State.writesLanes_setV ..,
    State.writesLanes_setV ..⟩

end

/-- Settles O37: W pairs are split over the two registers, and a clean byte is memory's. -/
theorem ld2Deinterleaves : Obligations.Ld2Deinterleaves := by
  intro s vd ve hd h
  obtain ⟨t, u, hu, w₁, w₂⟩ := exec_ld2_of_admitted hd h
  obtain ⟨v, b, rfl⟩ : ∃ v b, u = { s.afterUnitRead s.src (2 * s.lanes) with v := v, init := b } :=
    ⟨u.v, u.init, w₁.onlyLanesChanged.trans w₂.onlyLanesChanged⟩
  refine ⟨_, hu, fun i hi => ⟨fun hc => ?_, fun hc => ?_⟩, rfl,
    (w₂.init_others vd hd).trans w₁.init_dest, w₂.init_dest, fun r hrd hre => ?_, fun _ => rfl, rfl⟩
  · refine Eq.trans (congrFun (w₂.lane_other hd) i) ?_
    rw [w₁.lanes i hi, State.unitBytes_getD (by omega) hc]
  · refine Eq.trans (w₂.lanes i (w₁.onlyLanesChanged.lanes.symm ▸ hi)) ?_
    rw [State.unitBytes_getD (by omega) hc]
  · exact ⟨(w₂.others r hre).trans (w₁.others r hrd), (w₂.init_others r hre).trans (w₁.init_others r hrd)⟩

/-! ## Stores -/

section
variable {s : State} {d : List Byte}

theorem storeAtDst_of_admitted (h : admitted s.inst .wr s.dst d.length = true) (i : Instr) :
    storeAtDst i d s = .next ((s.writeMem s.dst d).advanceDst d.length) :=
  if_pos h

theorem storeAtDst_of_not_admitted (h : admitted s.inst .wr s.dst d.length = false) (i : Instr) :
    storeAtDst i d s = .next (s.raise .memFault (encode i) s.dst) :=
  if_neg (by rw [h]; decide)

/-- An admitted store leaves its bytes from DST on. -/
theorem store_read {i : Nat} (h : admitted s.inst .wr s.dst d.length = true) (hi : i < d.length) :
    (s.mem.writeBytes s.dst d).read (s.dst + BitVec.ofNat 64 i).toNat = d[i] :=
  Memory.writeBytes_read_same _ ((Nat.le_add_left _ _).trans (admitted_no_wrap h)) hi

end

theorem State.lanesOf_getElem (s : State) (r : VReg) {i : Nat} (h : i < (s.lanesOf r).length) :
    (s.lanesOf r)[i] = s.lane r i := by
  simp [State.lanesOf]

/-- Settles O38: both are the store of a list of bytes, the W lanes and lane 0 alone. -/
theorem storesWriteLanesAndAdvanceDst : Obligations.StoresWriteLanesAndAdvanceDst := by
  intro s va
  constructor
  · intro h
    rw [← s.lanesOf_length va] at h
    refine ⟨_, storeAtDst_of_admitted h (.st va), fun i hi => ?_, fun a ha => ?_, ?_⟩
    · have hi' : i < (s.lanesOf va).length := by rwa [s.lanesOf_length]
      exact (store_read h hi').trans (s.lanesOf_getElem va hi')
    · exact Memory.writeBytes_read_other s.mem (by rwa [s.lanesOf_length])
    · rw [s.lanesOf_length]
      rfl
  · intro h
    have h0 : s.dst + BitVec.ofNat 64 0 = s.dst := by simp
    refine ⟨_, storeAtDst_of_admitted (d := [s.lane va 0]) h (.stb va), ?_, fun a ha => ?_, rfl⟩
    · have hread := store_read (d := [s.lane va 0]) (i := 0) h (by simp)
      rwa [h0] at hread
    · refine Memory.writeBytes_read_other s.mem fun j hj => ?_
      obtain rfl : j = 0 := by simpa using hj
      rwa [h0]

/-! ## Accesses that are not admitted -/

/-- Settles O39: each of the five checks its access before anything else, and raises MEM_FAULT. -/
theorem unadmittedAccessOnlyRecordsMemFault : Obligations.UnadmittedAccessOnlyRecordsMemFault := by
  refine ⟨fun s vd h => (exec_ld vd s).trans (loadAtSrc_of_not_admitted h ..), fun s vd ve hd h => ?_,
    fun s vd h => (exec_ldb vd s).trans (loadAtSrc_of_not_admitted h ..), fun s va h => ?_, fun s va h => ?_, ?_⟩
  · exact (exec_ld2_of_ne hd).trans (loadAtSrc_of_not_admitted h ..)
  · rw [← s.lanesOf_length va] at h
    exact storeAtDst_of_not_admitted h (.st va)
  · exact storeAtDst_of_not_admitted (d := [s.lane va 0]) h (.stb va)
  · intro inst kind a n hwrap
    by_contra h
    have := admitted_no_wrap (Bool.of_not_eq_false h)
    omega

end Sys2Proof.Machine
end

section
/-! PROOFS. What the host sees and does (spec/10_state.md R40 to R54, spec/20_memory.md R81, R82): reset, the
reads of the register window, the choice of the agent that moves, and accesses to the data memory inside
and outside a running macro's buffers. -/

namespace Sys2Proof.Machine

/-! ## Reset -/

theorem hostAct_reset (s : State) : hostAct .reset s = .next s.resetUnit := rfl

theorem State.resetUnit_init (s : State) (r : VReg) : s.resetUnit.init[r] = false :=
  Vector.getElem_replicate _

theorem State.resetUnit_statusWord (s : State) : s.resetUnit.statusWord = 0#64 := by
  have h : s.resetUnit.statusWord = State.reset.statusWord := rfl
  rw [h]
  decide

/-- Settles O1: the next state is `resetUnit`, which holds the reset value of every field it names. -/
theorem resetGivesTheListedState : Obligations.ResetGivesTheListedState := fun s =>
  ⟨s.resetUnit, hostAct_reset s, s.resetUnit_init, rfl, rfl, rfl, rfl, s.resetUnit_idWord,
    s.resetUnit_statusWord, rfl, rfl, rfl, rfl, rfl, rfl, rfl, rfl, rfl, rfl, rfl, rfl, rfl, rfl⟩

/-! ## Which agent moves, and what its step is -/

section
variable {s : State}

theorem step_of_unit (h : s.nextAgent = .unit) : step s = unitStep s.popSched := by
  rw [step, h]

theorem step_of_action {a : HostAction} {rest : List HostAction} (h : s.nextAgent = .host)
    (hh : s.host = a :: rest) : step s = hostAct a { s.popSched with host := rest } := by
  simp only [step, h, hostStep, State.popSched_host, hh]

theorem step_of_no_action (h : s.nextAgent = .host) (hh : s.host = []) :
    step s = .next s.popSched := by
  simp only [step, h, hostStep, State.popSched_host, hh]

theorem nextAgent_of_sched {a : Agent} {rest : List Agent} (h : s.sched = a :: rest) :
    s.nextAgent = a := by
  simp only [State.nextAgent, h]

theorem nextAgent_of_no_sched (h : s.sched = []) :
    s.nextAgent = if s.busy then .unit else .host := by
  simp only [State.nextAgent, h]

end

/-- Settles O3: the step of each agent, and the CMD write of an idle unit without an error among the
host's. -/
theorem stepRunsTheDecodedCommand : Obligations.StepRunsTheDecodedCommand := by
  refine ⟨fun s v rest i hn hh hb he hd => ?_, fun s => step_of_unit, fun s a rest => step_of_action,
    fun s => step_of_no_action, fun s a rest => nextAgent_of_sched, fun s => nextAgent_of_no_sched⟩
  rw [step_of_action hn hh, hostAct_regWrite (by decide), writeReg_cmd]
  exact writeCmd_accepted hb he hd

/-! ## Reads of the window -/

theorem State.statusWord_busy (s : State) : s.statusWord.getLsbD 0 = s.busy := by
  simp only [State.statusWord, BitVec.getLsbD_append]
  cases s.busy <;> rfl

/-- The two bits of STATE. -/
theorem State.statusWord_state (s : State) : s.statusWord.extractLsb' 1 2 = s.mstate.code := by
  apply BitVec.eq_of_getLsbD_eq
  intro i hi
  simp only [State.statusWord, BitVec.getLsbD_extractLsb', BitVec.getLsbD_append]
  interval_cases i <;> rfl

/-- The bits OPK, CASE, DONE, DROP and ERRCLR. -/
theorem State.statusWord_bits (s : State) :
    s.statusWord.getLsbD 3 = s.mop.code.getLsbD 0 ∧ s.statusWord.getLsbD 4 = s.mcase.bit.getLsbD 0 ∧
    s.statusWord.getLsbD 5 = s.done ∧ s.statusWord.getLsbD 6 = s.drop ∧
    s.statusWord.getLsbD 7 = false := by
  simp only [State.statusWord, BitVec.getLsbD_append]
  refine ⟨rfl, rfl, ?_, ?_, rfl⟩
  · cases s.done <;> rfl
  · cases s.drop <;> rfl

theorem State.statusWord_err (s : State) : s.statusWord.extractLsb' 8 4 = s.err.code := by
  apply BitVec.eq_of_getLsbD_eq
  intro i hi
  simp only [State.statusWord, BitVec.getLsbD_extractLsb', BitVec.getLsbD_append]
  interval_cases i <;> rfl

theorem State.statusWord_high (s : State) : s.statusWord.extractLsb' 12 52 = 0#52 := by
  apply BitVec.eq_of_getLsbD_eq
  intro i hi
  simp (disch := omega) only [State.statusWord, BitVec.getLsbD_extractLsb', BitVec.getLsbD_append,
    if_neg, BitVec.getLsbD_zero, Bool.and_false]

theorem hostAct_wait (s : State) : hostAct .wait s = .next { s with
    reads := .reg 0x08#8 s.statusWord :: s.reads
    host := if s.busy then .wait :: s.host else s.host } := by
  unfold hostAct
  cases s.busy <;> rfl

/-- Settles O7: each field of STATUS stands at its place, and `wait` is the same read. -/
theorem statusReadsItsFields : Obligations.StatusReadsItsFields := by
  intro s
  obtain ⟨hop, hcase, hdone, hdrop, hclr⟩ := s.statusWord_bits
  refine ⟨hostAct_regRead (by decide) s, s.statusWord_busy, ?_, ?_, ?_, hdone, hdrop, hclr, ?_,
    s.statusWord_high, hostAct_wait s⟩
  · rw [s.statusWord_state]
    cases s.mstate <;> rfl
  · rw [hop]
    cases s.mop <;> rfl
  · rw [hcase]
    cases s.mcase <;> rfl
  · rw [s.statusWord_err]
    cases s.err <;> rfl

/-- ERRCMD reads zero-extended (R51). -/
theorem State.readReg_errcmd (s : State) : s.readReg 0x30#8 = BitVec.ofNat 64 s.errcmd.toNat :=
  BitVec.eq_of_toNat_eq (by simp [State.readReg])

/-- Settles O10: each read logs its register, and the three read-only ones ignore writes. -/
theorem registerMapReadsAndReadOnlyWrites : Obligations.RegisterMapReadsAndReadOnlyWrites := by
  intro s
  refine ⟨hostAct_regRead (by decide) s, hostAct_regRead (by decide) s, hostAct_regRead (by decide) s,
    hostAct_regRead (by decide) s, ?_, hostAct_regRead (by decide) s, fun v off hoff => ?_⟩
  · rw [hostAct_regRead (by decide), s.readReg_errcmd]
    rfl
  · simp only [List.mem_cons, List.not_mem_nil, or_false] at hoff
    rcases hoff with rfl | rfl | rfl <;> exact hostAct_regWrite (by decide) v s

/-- Settles O11: the check of R40 fails on the width or on the alignment. -/
theorem unalignedWindowAccessIsRefused : Obligations.UnalignedWindowAccessIsRefused := by
  intro s off n v h
  have hok : ¬ regAccessOk off n = true := by
    simp only [regAccessOk, Bool.and_eq_true, beq_iff_eq]
    omega
  exact ⟨if_neg hok, if_neg hok⟩

/-! ## Host accesses to memory, and races -/

section
variable {s : State} {a : Addr}

/-- The noted addresses of an access are those of its bytes that lie in the running macro's buffers. -/
theorem mem_racedAddrs {n x : Nat} : x ∈ s.racedAddrs a n ↔
    ∃ j, j < n ∧ s.inRunningBuffers (a + BitVec.ofNat 64 j) = true ∧
      x = (a + BitVec.ofNat 64 j).toNat := by
  simp only [State.racedAddrs, List.mem_map, List.mem_filter, List.mem_range]
  constructor
  · rintro ⟨_, ⟨⟨j, hj, rfl⟩, hin⟩, rfl⟩
    exact ⟨j, hj, hin, rfl⟩
  · rintro ⟨j, hj, hin, rfl⟩
    exact ⟨_, ⟨⟨j, hj, rfl⟩, hin⟩, rfl⟩

theorem not_isEmpty_racedAddrs {n : Nat} : (!(s.racedAddrs a n).isEmpty) = true ↔
    ∃ j, j < n ∧ s.inRunningBuffers (a + BitVec.ofNat 64 j) = true := by
  rw [Bool.not_eq_true', List.isEmpty_eq_false_iff_exists_mem]
  simp only [mem_racedAddrs]
  constructor
  · rintro ⟨_, j, hj, hin, -⟩
    exact ⟨j, hj, hin⟩
  · rintro ⟨j, hj, hin⟩
    exact ⟨_, j, hj, hin, rfl⟩

theorem State.hostBytes_getElem? {n j : Nat} (hj : j < n)
    (h : s.inRunningBuffers (a + BitVec.ofNat 64 j) = false) :
    (s.hostBytes a n)[j]? = some (s.mem.read (a + BitVec.ofNat 64 j).toNat) := by
  simp [State.hostBytes, hj, h]

theorem mem_bytes_hostMemWrite {data : List Byte} {x : Nat} :
    x ∈ (s.hostMemWrite a data).race.bytes ↔
      x ∈ s.race.bytes ∨ x ∈ s.racedAddrs a data.length := by
  simp only [State.hostMemWrite, List.mem_append, List.mem_filter, Bool.not_eq_true',
    List.contains_eq_mem, decide_eq_false_iff_not]
  tauto

theorem State.unitBytes_one_of_raced (h : a.toNat ∈ s.race.bytes) :
    s.unitBytes a 1 = [Config.freeByte s.freeCount] := by
  have h0 : a + BitVec.ofNat 64 0 = a := by simp
  simp only [State.unitBytes, List.range_one, List.map_cons, List.map_nil, h0, List.contains_iff_mem,
    if_pos h, Nat.add_zero]

theorem hostAct_memRead {n : Nat} (h : overlapsWindow s.inst a n = false) :
    hostAct (.memRead a n) s = .next (s.hostMemRead a n) :=
  if_neg (by rw [h]; decide)

theorem hostAct_memWrite {data : List Byte} (h : overlapsWindow s.inst a data.length = false) :
    hostAct (.memWrite a data) s = .next (s.hostMemWrite a data) :=
  if_neg (by rw [h]; decide)

end

/-- Settles O12: the bytes of a read and of a write, the ledger by membership in the raced addresses, and
that every step keeps what is noted. -/
theorem hostMemoryAccessesAndRaces : Obligations.HostMemoryAccessesAndRaces := by
  refine ⟨fun s a n h => ?_, fun s a data hlen h => ?_, fun s a h => State.unitBytes_one_of_raced h,
    fun s t h x hx => step_bytes_subset h hx⟩
  · exact ⟨_, s.hostBytes a n, hostAct_memRead h, rfl, by simp [State.hostBytes],
      fun j hj hin => State.hostBytes_getElem? hj hin, rfl⟩
  · refine ⟨_, hostAct_memWrite h, fun j hj => Memory.writeBytes_read_same _ hlen hj,
      fun x hx => Memory.writeBytes_read_other _ hx, rfl, fun x => ?_, ?_⟩
    · rw [mem_bytes_hostMemWrite, mem_racedAddrs]
    · show (s.race.tainted || !(s.racedAddrs a data.length).isEmpty) = true ↔ _
      rw [Bool.or_eq_true, not_isEmpty_racedAddrs]

/-! ## Acceptance of ENC -/

/-- Settles O43: the next state is the acceptance itself, and the word is one of two. -/
theorem encIsAccepted : Obligations.EncIsAccepted := by
  intro s c
  refine ⟨s.acceptMacro .enc c (encode (.enc c)), rfl, rfl, rfl, rfl, rfl, rfl, ?_, rfl, rfl⟩
  rw [State.acceptMacro_mword]
  cases c <;> decide

end Sys2Proof.Machine
end

section
/-! PROOFS. What a macro run writes (spec/45_block_fsm.md R253 to R267): the bytes of one step, what a run
has done when it has consumed a part of its source, the state in which it ends, and the round trip. -/

namespace Sys2Proof.Machine

/-! ## The block functions, byte by byte -/

theorem encBlock_getD (c : CaseMode) : ∀ (x : List Byte) {i : Nat}, i < x.length →
    (encBlock c x).getD (2 * i) 0#8 = hexdigit (hiNibble (x.getD i 0#8)) c ∧
    (encBlock c x).getD (2 * i + 1) 0#8 = hexdigit (loNibble (x.getD i 0#8)) c
  | [], _, h => absurd h (Nat.not_lt_zero _)
  | _ :: _, 0, _ => ⟨rfl, rfl⟩
  | _ :: x, _ + 1, h => encBlock_getD c x (Nat.lt_of_succ_lt_succ h)

theorem decBlock_getD : ∀ (x : List Byte) {i : Nat}, i < x.length / 2 →
    (decBlock x).getD i 0#8
      = combine (hexval (x.getD (2 * i) 0#8)) (hexval (x.getD (2 * i + 1) 0#8))
  | [], _, h => absurd h (Nat.not_lt_zero _)
  | [_], _, h => absurd h (by simp)
  | _ :: _ :: _, 0, _ => rfl
  | _ :: _ :: x, i + 1, h =>
    decBlock_getD x (by simp only [List.length_cons] at h; omega)

theorem encBlock_append (c : CaseMode) (x y : List Byte) :
    encBlock c (x ++ y) = encBlock c x ++ encBlock c y := by
  induction x with
  | nil => rfl
  | cons b x ih => simp [encBlock, ih]

theorem decBlock_append : ∀ (x y : List Byte), 2 ∣ x.length →
    decBlock (x ++ y) = decBlock x ++ decBlock y
  | [], _, _ => rfl
  | [_], _, h => absurd h (by simp)
  | a :: b :: x, y, h => by
    have hx : 2 ∣ x.length := (Nat.dvd_add_left (Nat.dvd_refl 2)).mp h
    simp [decBlock, decBlock_append x y hx]

/-- After a whole number of elements the rest is worked on alone. -/
theorem MOp.blockFn_append (op : MOp) (c : CaseMode) {x : List Byte} (y : List Byte)
    (h : op.elementLen ∣ x.length) :
    op.blockFn c (x ++ y) = op.blockFn c x ++ op.blockFn c y := by
  cases op
  · exact encBlock_append c x y
  · exact decBlock_append x y h

theorem MOp.outLen_mono (op : MOp) {m n : Nat} (h : m ≤ n) : op.outLen m ≤ op.outLen n := by
  cases op <;> simp only [MOp.outLen] <;> omega

theorem Memory.writeBytes_read_getD (m : Memory) (a : Addr) {d : List Byte} {i : Nat}
    (hd : d.length ≤ 2 ^ 64) (hi : i < d.length) :
    (m.writeBytes a d).read (a + BitVec.ofNat 64 i).toNat = d.getD i 0#8 := by
  rw [Memory.writeBytes_read_same m hd hi, List.getD_eq_getElem _ _ hi]

theorem add_ofNat_add_ofNat (a : Addr) (m n : Nat) :
    a + BitVec.ofNat 64 m + BitVec.ofNat 64 n = a + BitVec.ofNat 64 (m + n) := by
  rw [BitVec.add_assoc, BitVec.ofNat_add]

/-! ## One step -/

/-- A step with both ranges admitted writes `d` and leaves the free counter at `k` (R253 to R259, U8). -/
theorem unitStep_moves {s : State} {n : Nat} (hn : s.Consumes n) (hc : n ≤ s.cnt.toNat)
    (hr : admitted s.inst .rd s.src n = true)
    (hw : admitted s.inst .wr s.dst (s.mop.outLen n) = true) :
    ∃ d k, d.length = s.mop.outLen n ∧
      (s.race.tainted = false → d = s.blockFn (s.unitBytes s.src n)) ∧
      (s.race.tainted = false → s.cleanRange s.src n → k = s.freeCount) ∧
      unitStep s = .next { s with
        mem := s.mem.writeBytes s.dst d
        src := s.src + BitVec.ofNat 64 n
        dst := s.dst + BitVec.ofNat 64 (s.mop.outLen n)
        cnt := s.cnt - BitVec.ofNat 64 n
        freeCount := k } := by
  rw [unitStep_consumes hn hc]
  rcases moveBlock_cases n (s.mop.outLen n) s.blockFn s with ⟨hr', -⟩ | ⟨-, hw', -⟩ |
    ⟨-, -, d, k, hlen, hd, hk, hu⟩
  · rw [hr] at hr'
    cases hr'
  · rw [hw] at hw'
    cases hw'
  · refine ⟨d, k, ?_, hd, hk, congrArg Host.Outcome.next hu⟩
    rw [hlen, State.blockFn, MOp.blockFn_length, State.unitBytes_length]

/-- Settles O47: the step writes the hex text of the bytes it reads, of which the clean ones are
memory's. -/
theorem encodeStepWritesItsHexText : Obligations.EncodeStepWritesItsHexText := by
  intro s n ho hm hc hr hw
  have hn : s.Consumes n := by simpa [State.Consumes, State.blockLen, MOp.elementLen, ho] using hm
  have hout : s.mop.outLen n = 2 * n := by rw [ho]; rfl
  have hfn : s.blockFn = encBlock s.mcase := by rw [State.blockFn, ho]; rfl
  obtain ⟨d, k, hlen, hd, hk, hu⟩ := unitStep_moves hn hc hr (hout ▸ hw)
  rw [hout] at hlen hu
  have hmax : d.length ≤ 2 ^ 64 := hlen ▸ (Nat.le_add_left _ _).trans (admitted_no_wrap hw)
  refine ⟨_, hu, fun i hi ht hclean => ?_, fun a ha => ?_, hk, rfl⟩
  · obtain ⟨hhigh, hlow⟩ := encBlock_getD s.mcase (s.unitBytes s.src n) (i := i) (by simpa using hi)
    rw [State.unitBytes_getD hi hclean] at hhigh hlow
    rw [← hfn, ← hd ht] at hhigh hlow
    exact ⟨(Memory.writeBytes_read_getD _ _ hmax (by omega)).trans hhigh,
      (Memory.writeBytes_read_getD _ _ hmax (by omega)).trans hlow⟩
  · exact Memory.writeBytes_read_other _ (hlen ▸ ha)

/-- Settles O48: the step writes the bytes of the characters it reads, of which the clean ones are
memory's. -/
theorem decodeStepWritesItsBytes : Obligations.DecodeStepWritesItsBytes := by
  intro s n ho hm hc hr hw
  have hn : s.Consumes (2 * n) := by
    rcases hm with ⟨hm, rfl⟩ | ⟨hm, rfl⟩ <;>
    simp [State.Consumes, State.blockLen, MOp.elementLen, ho, hm]
  have hout : s.mop.outLen (2 * n) = n := by
    rw [ho]
    exact Nat.mul_div_cancel_left n (by decide)
  have hfn : s.blockFn = decBlock := by rw [State.blockFn, ho]; rfl
  obtain ⟨d, k, hlen, hd, hk, hu⟩ := unitStep_moves hn hc hr (hout.symm ▸ hw)
  rw [hout] at hlen hu
  have hmax : d.length ≤ 2 ^ 64 := hlen ▸ (Nat.le_add_left _ _).trans (admitted_no_wrap hw)
  refine ⟨_, hu, fun i hi ht hfirst hsecond => ?_, fun a ha => ?_, hk, rfl⟩
  · have hbyte := decBlock_getD (s.unitBytes s.src (2 * n)) (i := i) (by simp; omega)
    rw [State.unitBytes_getD (by omega) hfirst, State.unitBytes_getD (by omega) hsecond, ← hfn,
      ← hd ht] at hbyte
    exact (Memory.writeBytes_read_getD _ _ hmax (by omega)).trans hbyte
  · exact Memory.writeBytes_read_other _ (hlen ▸ ha)

/-! ## A run that has consumed a part of its source -/

/-- No source byte of the macro accepted in `s0` is a byte of its destination (R265). -/
def State.DisjointRun (s0 : State) : Prop :=
  ∀ a b, a < s0.cnt.toNat → b < s0.mop.outLen s0.cnt.toNat →
    s0.src + BitVec.ofNat 64 a ≠ s0.dst + BitVec.ofNat 64 b

/-- `x` is what a run begun in `s0` read from its source so far: memory's bytes but for the raced ones. -/
structure State.ReadSoFar (s0 : State) (x : List Byte) : Prop where
  whole : s0.mop.elementLen ∣ x.length
  le_cnt : x.length ≤ s0.cnt.toNat
  source : ∀ i, i < x.length → (s0.src + BitVec.ofNat 64 i).toNat ∉ s0.race.bytes →
    x.getD i 0#8 = s0.mem.read (s0.src + BitVec.ofNat 64 i).toNat

/-- The state `t` of a run begun in `s0` that has read `x`: what `x` becomes stands at the destination,
the cursors have moved on, and nothing else has changed but MSTATE, DONE and the free counter. -/
structure RunAt (s0 : State) (x : List Byte) (t : State) : Prop where
  read : s0.ReadSoFar x
  free : s0.cleanRange s0.src s0.cnt.toNat → t.freeCount = s0.freeCount
  state : t = { s0 with
    mem := s0.mem.writeBytes s0.dst (s0.blockFn x)
    src := s0.src + BitVec.ofNat 64 x.length
    dst := s0.dst + BitVec.ofNat 64 (s0.mop.outLen x.length)
    cnt := s0.cnt - BitVec.ofNat 64 x.length
    mstate := t.mstate
    done := t.done
    freeCount := t.freeCount }

section
variable {s0 t : State} {x : List Byte}

theorem RunAt.start (s0 : State) : RunAt s0 [] s0 where
  read := ⟨Nat.dvd_zero _, Nat.zero_le _, fun _ h => absurd h (Nat.not_lt_zero _)⟩
  free _ := rfl
  state := by
    have hfn : s0.blockFn [] = [] := by unfold State.blockFn; cases s0.mop <;> rfl
    have hout : s0.mop.outLen 0 = 0 := by cases s0.mop <;> rfl
    simp [hfn, hout, Memory.writeBytes]

variable (h : RunAt s0 x t)
include h

/-- Only MSTATE and DONE, which `RunAt` leaves open, may differ. -/
theorem RunAt.setState (m : MState) (d : Bool) : RunAt s0 x { t with mstate := m, done := d } where
  read := h.read
  free := h.free
  state := congrArg (fun u : State => { u with mstate := m, done := d }) h.state

theorem RunAt.src_eq : t.src = s0.src + BitVec.ofNat 64 x.length := by rw [h.state]

theorem RunAt.dst_eq : t.dst = s0.dst + BitVec.ofNat 64 (s0.mop.outLen x.length) := by rw [h.state]

theorem RunAt.cnt_eq : t.cnt = s0.cnt - BitVec.ofNat 64 x.length := by rw [h.state]

theorem RunAt.mop_eq : t.mop = s0.mop := by rw [h.state]

theorem RunAt.blockFn_eq : t.blockFn = s0.blockFn := by rw [h.state]; rfl

theorem RunAt.race_eq : t.race = s0.race := by rw [h.state]

theorem RunAt.mem_eq : t.mem = s0.mem.writeBytes s0.dst (s0.blockFn x) := by rw [h.state]

theorem RunAt.cnt_toNat : t.cnt.toNat = s0.cnt.toNat - x.length := by
  rw [h.cnt_eq, toNat_sub_ofNat_of_le h.read.le_cnt]

theorem RunAt.src_add (i : Nat) :
    t.src + BitVec.ofNat 64 i = s0.src + BitVec.ofNat 64 (x.length + i) := by
  rw [h.src_eq, add_ofNat_add_ofNat]

/-- What is left of the source still reads as it did when the run began. -/
theorem RunAt.mem_read (hdisj : s0.DisjointRun) {i : Nat} (hi : x.length + i < s0.cnt.toNat) :
    t.mem.read (t.src + BitVec.ofNat 64 i).toNat
      = s0.mem.read (s0.src + BitVec.ofNat 64 (x.length + i)).toNat := by
  rw [h.src_add, h.mem_eq]
  refine Memory.writeBytes_read_other _ fun j hj => hdisj _ j hi ?_
  rw [State.blockFn, MOp.blockFn_length] at hj
  exact hj.trans_le (s0.mop.outLen_mono h.read.le_cnt)

/-- The next bytes of the source extend what was read. -/
theorem RunAt.readSoFar_append (hdisj : s0.DisjointRun) {n : Nat} (hn : s0.mop.elementLen ∣ n)
    (hc : n ≤ t.cnt.toNat) : s0.ReadSoFar (x ++ t.unitBytes t.src n) := by
  rw [h.cnt_toNat] at hc
  have hle := h.read.le_cnt
  refine ⟨?_, ?_, fun i hi hclean => ?_⟩
  · simpa using Nat.dvd_add h.read.whole hn
  · simp
    omega
  · simp only [List.length_append, State.unitBytes_length] at hi
    rcases Nat.lt_or_ge i x.length with hix | hix
    · rw [List.getD_append _ _ _ _ hix]
      exact h.read.source i hix hclean
    · obtain ⟨j, rfl⟩ := Nat.exists_eq_add_of_le hix
      rw [← h.src_add, ← h.race_eq] at hclean
      rw [List.getD_append_right _ _ _ _ hix, Nat.add_sub_cancel_left,
        State.unitBytes_getD (by omega) hclean, h.mem_read hdisj (by omega)]

/-- A clean source stays clean. -/
theorem RunAt.cleanRange {n : Nat} (hc : n ≤ t.cnt.toNat) (hclean : s0.cleanRange s0.src s0.cnt.toNat) :
    t.cleanRange t.src n := by
  intro j hj
  rw [h.cnt_toNat] at hc
  rw [h.src_add, h.race_eq]
  exact hclean _ (by omega)

/-- A block or element moved takes the run on by what was read. -/
theorem RunAt.move (hdisj : s0.DisjointRun) {n k : Nat} (hn : s0.mop.elementLen ∣ n)
    (hc : n ≤ t.cnt.toNat) (hk : t.cleanRange t.src n → k = t.freeCount) :
    RunAt s0 (x ++ t.unitBytes t.src n) { t with
      mem := t.mem.writeBytes t.dst (t.blockFn (t.unitBytes t.src n))
      src := t.src + BitVec.ofNat 64 n
      dst := t.dst + BitVec.ofNat 64 (t.mop.outLen n)
      cnt := t.cnt - BitVec.ofNat 64 n
      freeCount := k } where
  read := h.readSoFar_append hdisj hn hc
  free hclean := (hk (h.cleanRange hc hclean)).trans (h.free hclean)
  state := by
    have hlen : (x ++ t.unitBytes t.src n).length = x.length + n := by simp
    have hmem : t.mem.writeBytes t.dst (t.blockFn (t.unitBytes t.src n)) =
        s0.mem.writeBytes s0.dst (s0.blockFn (x ++ t.unitBytes t.src n)) := by
      rw [h.mem_eq, h.dst_eq, h.blockFn_eq, State.blockFn, MOp.blockFn_append _ _ _ h.read.whole,
        ← Memory.writeBytes_append, MOp.blockFn_length]
    have hsrc := h.src_add n
    have hdst : t.dst + BitVec.ofNat 64 (t.mop.outLen n) =
        s0.dst + BitVec.ofNat 64 (s0.mop.outLen (x.length + n)) := by
      rw [h.dst_eq, h.mop_eq, add_ofNat_add_ofNat, MOp.outLen_add _ _ hn]
    have hcnt : t.cnt - BitVec.ofNat 64 n = s0.cnt - BitVec.ofNat 64 (x.length + n) := by
      rw [h.cnt_eq, BitVec.ofNat_add]
      ring
    rw [hmem, hsrc, hdst, hcnt, hlen]
    exact congrArg (fun u : State => { u with
      mem := s0.mem.writeBytes s0.dst (s0.blockFn (x ++ t.unitBytes t.src n))
      src := s0.src + BitVec.ofNat 64 (x.length + n)
      dst := s0.dst + BitVec.ofNat 64 (s0.mop.outLen (x.length + n))
      cnt := s0.cnt - BitVec.ofNat 64 (x.length + n)
      freeCount := k }) h.state

end

/-! ## The end of a run -/

theorem unitRun_idle {s : State} (hm : s.mstate = .idle) (k : Nat) : unitRun k s = .next s := by
  induction k with
  | zero => rfl
  | succ k ih => rw [unitRun_succ (unitStep_idle hm), ih]

theorem unitRun_succ_cases {s r : State} {k : Nat} (h : unitRun (k + 1) s = .next r) :
    ∃ u, unitStep s = .next u ∧ unitRun k u = .next r := by
  rw [unitRun] at h
  cases hu : unitStep s with
  | next u => exact ⟨u, rfl, by rwa [hu] at h⟩
  | fault f => rw [hu] at h; cases h
  | refused e => rw [hu] at h; cases h

/-- An aborted run stays where it is, with its error. -/
theorem unitRun_abort_err {s r : State} {a : Addr} {k : Nat} (h : unitRun k (s.abort a) = .next r) :
    r.err = .memFault := by
  rw [unitRun_idle rfl] at h
  exact Host.Outcome.next.inj h ▸ rfl

/-- A run that comes to its end without error has read its whole source, by induction on the steps. -/
theorem RunAt.at_end {s0 r : State} (hdisj : s0.DisjointRun) (htaint : s0.race.tainted = false)
    (hidle : r.busy = false) (herr : r.err = .none) {k : Nat} :
    ∀ {x : List Byte} {t : State}, RunAt s0 x t → t.busy = true → unitRun k t = .next r →
      ∃ y, y.length = s0.cnt.toNat ∧ RunAt s0 y r ∧ r.mstate = .idle ∧ r.done = true := by
  induction k with
  | zero =>
    intro x t _ hb hrun
    obtain rfl := Host.Outcome.next.inj hrun
    exact absurd (hidle.symm.trans hb) (by decide)
  | succ k ih =>
    intro x t h hb hrun
    obtain ⟨u, hu, hrest⟩ := unitRun_succ_cases hrun
    rcases unitStep_next_cases hu with ⟨hm, -⟩ | ⟨n, hn, hc, rfl⟩ | ⟨hm, hc, rfl⟩ | ⟨hm, hc, rfl⟩
    · rw [State.busy, hm] at hb
      cases hb
    · rcases moveBlock_cases n (t.mop.outLen n) t.blockFn t with ⟨-, hmove⟩ | ⟨-, -, hmove⟩ |
        ⟨-, -, d, j, -, hd, hj, hmove⟩ <;> rw [hmove] at hrest
      · rw [unitRun_abort_err hrest] at herr
        cases herr
      · rw [unitRun_abort_err hrest] at herr
        cases herr
      · have ht : t.race.tainted = false := by rw [h.race_eq, htaint]
        rw [hd ht] at hrest
        exact ih (h.move hdisj (h.mop_eq ▸ hn.dvd) hc (hj ht)) hb hrest
    · exact ih (h.setState .tail t.done) rfl hrest
    · rw [unitRun_idle rfl] at hrest
      obtain rfl := Host.Outcome.next.inj hrest
      have hzero := h.cnt_toNat
      rw [hc] at hzero
      have hle := h.read.le_cnt
      exact ⟨x, by simp at hzero; omega, h.setState .idle true, rfl, rfl⟩

/-- The macro a command starts, and its case. -/
def macroOpOf : Instr → MOp
  | .enc _ => .enc
  | _ => .dec

def macroCaseOf : Instr → CaseMode
  | .enc c => c
  | _ => .upper

/-- The state at the end of a run of `i` begun in `s` that read `x`, with the free counter at `k` (R265). -/
def State.macroEnd (s : State) (i : Instr) (x : List Byte) (k : Nat) : State :=
  { s with
    mop := macroOpOf i
    mcase := macroCaseOf i
    mword := encode i
    src := s.src + s.cnt
    dst := s.dst + BitVec.ofNat 64 (macroOutLen i s.cnt.toNat)
    cnt := 0#64
    mstate := .idle
    done := true
    mem := s.mem.writeBytes s.dst ((macroOpOf i).blockFn (macroCaseOf i) x)
    race := ⟨s.src, s.dst, s.cnt, s.race.bytes, false⟩
    freeCount := k }

theorem macroOutLen_eq {i : Instr} (h : i.isMacro = true) (n : Nat) :
    macroOutLen i n = (macroOpOf i).outLen n := by
  cases i
  case enc | dec => rfl
  all_goals cases h

/-- A macro command that does not end in an error at once is accepted. -/
theorem exec_macro {s s0 r : State} {i : Instr} (hmac : i.isMacro = true) (hex : exec i s = .next s0)
    {k : Nat} (hidle : s.busy = false) (hrun : unitRun k s0 = .next r) (herr : r.err = .none) :
    s0 = s.acceptMacro (macroOpOf i) (macroCaseOf i) (encode i) := by
  cases i
  case enc c => exact (Host.Outcome.next.inj hex).symm
  case dec =>
    rcases Nat.mod_two_eq_zero_or_one s.cnt.toNat with heven | hodd
    · exact Host.Outcome.next.inj (hex.symm.trans (exec_dec_of_even heven))
    · obtain rfl := Host.Outcome.next.inj (hex.symm.trans (exec_dec_of_odd hodd))
      rw [unitRun_idle (s := s.raise .oddLen (encode .dec) 0#64)
        (State.mstate_idle_of_not_busy hidle)] at hrun
      rw [← Host.Outcome.next.inj hrun] at herr
      cases herr
  all_goals cases hmac

section
variable {s s0 r : State} {i : Instr} {k : Nat} (hmac : i.isMacro = true) (hidle : s.busy = false)
  (hdisj : s.disjointBuffers i) (hex : exec i s = .next s0) (hrun : unitRun k s0 = .next r)
  (hridle : r.busy = false) (hrerr : r.err = .none)
include hmac hidle hdisj hex hrun hridle hrerr

/-- A macro run that ends without error has read its whole source and ends in `macroEnd` (R265). -/
theorem macroRun_end : ∃ x, x.length = s.cnt.toNat ∧
    (∀ j, j < s.cnt.toNat → (s.src + BitVec.ofNat 64 j).toNat ∉ s.race.bytes →
      x.getD j 0#8 = s.mem.read (s.src + BitVec.ofNat 64 j).toNat) ∧
    (s.cleanRange s.src s.cnt.toNat → r.freeCount = s.freeCount) ∧
    r = s.macroEnd i x r.freeCount := by
  obtain rfl := exec_macro hmac hex hidle hrun hrerr
  have hrundisj : (s.acceptMacro (macroOpOf i) (macroCaseOf i) (encode i)).DisjointRun :=
    fun a b ha hb => hdisj a b ha (macroOutLen_eq hmac _ ▸ hb)
  obtain ⟨x, hx, hat, hm, hd⟩ := RunAt.at_end hrundisj rfl hridle hrerr (RunAt.start _) rfl hrun
  refine ⟨x, hx, fun j hj => hat.read.source j (hx ▸ hj), hat.free, ?_⟩
  have hlen : x.length = s.cnt.toNat := hx
  have hstate := hat.state
  rw [hm, hd, hlen] at hstate
  rw [hstate]
  simp only [State.macroEnd, macroOutLen_eq hmac]
  congr 1
  · show s.src + BitVec.ofNat 64 s.cnt.toNat = s.src + s.cnt
    simp
  · show s.cnt - BitVec.ofNat 64 s.cnt.toNat = 0#64
    simp

omit hmac hex hrun hidle hridle hrerr in
/-- Disjoint buffers leave room for the source, so the output does not wrap onto itself. -/
theorem macroOutLen_lt : macroOutLen i s.cnt.toNat < 2 ^ 64 := by
  by_contra hbig
  have hpos : 0 < s.cnt.toNat := by
    rcases Nat.eq_zero_or_pos s.cnt.toNat with h0 | hpos
    · rw [h0] at hbig
      exact absurd (by unfold macroOutLen; split <;> decide) hbig
    · exact hpos
  refine hdisj 0 (s.src - s.dst).toNat hpos ((s.src - s.dst).isLt.trans_le (Nat.le_of_not_lt hbig)) ?_
  rw [BitVec.ofNat_toNat, BitVec.setWidth_eq, BitVec.add_comm s.dst, BitVec.sub_add_cancel]
  simp

end

theorem macroEnd_mem_read_other {s : State} {i : Instr} {x : List Byte} {k : Nat} {a : Addr}
    (hmac : i.isMacro = true) (hx : x.length = s.cnt.toNat)
    (ha : ∀ j, j < macroOutLen i s.cnt.toNat → a ≠ s.dst + BitVec.ofNat 64 j) :
    (s.macroEnd i x k).mem.read a.toNat = s.mem.read a.toNat := by
  refine Memory.writeBytes_read_other _ fun j hj => ha j ?_
  rwa [MOp.blockFn_length, hx, ← macroOutLen_eq hmac] at hj

/-- Settles O52: the end state holds the hex text of what the run read, byte by byte. -/
theorem encodeRunWritesTheHexText : Obligations.EncodeRunWritesTheHexText := by
  intro s s0 t c k hidle herr hdisj hex hrun htidle hterr
  obtain ⟨x, hx, hsource, -, ht⟩ := macroRun_end rfl hidle hdisj hex hrun htidle hterr
  rw [ht]
  refine ⟨rfl, rfl, rfl, rfl, rfl, rfl, rfl, fun i hi hclean => ?_,
    fun a ha => macroEnd_mem_read_other rfl hx ha⟩
  have hlen : (encBlock c x).length = 2 * s.cnt.toNat := by rw [encBlock_length, hx]
  have hmax : (encBlock c x).length ≤ 2 ^ 64 := hlen ▸ (macroOutLen_lt hdisj).le
  obtain ⟨hhigh, hlow⟩ := encBlock_getD c x (hx ▸ hi)
  rw [hsource i hi hclean] at hhigh hlow
  exact ⟨(Memory.writeBytes_read_getD s.mem s.dst hmax (by omega)).trans hhigh,
    (Memory.writeBytes_read_getD s.mem s.dst hmax (by omega)).trans hlow⟩

/-- Settles O53: the end state holds the bytes of the characters the run read. -/
theorem decodeRunWritesTheBytes : Obligations.DecodeRunWritesTheBytes := by
  intro s s0 t k hidle herr hdisj hex hrun htidle hterr
  obtain ⟨x, hx, hsource, -, ht⟩ := macroRun_end rfl hidle hdisj hex hrun htidle hterr
  rw [ht]
  refine ⟨rfl, rfl, rfl, rfl, rfl, rfl, rfl, fun i hi hfirst hsecond => ?_,
    fun a ha => macroEnd_mem_read_other rfl hx ha⟩
  have hlen : (decBlock x).length = s.cnt.toNat / 2 := by rw [decBlock_length_two, hx]
  have hmax : (decBlock x).length ≤ 2 ^ 64 := hlen ▸ (macroOutLen_lt hdisj).le
  have hbyte := decBlock_getD x (hx ▸ hi)
  rw [hsource _ (by omega) hfirst, hsource _ (by omega) hsecond] at hbyte
  exact (Memory.writeBytes_read_getD s.mem s.dst hmax (by omega)).trans hbyte

/-! ## The round trip, and other instances -/

/-- Settles O54: DEC reads the characters ENC wrote, and their values are the nibbles of the byte. -/
theorem encodeThenDecodeGivesTheBytesBack : Obligations.EncodeThenDecodeGivesTheBytesBack := by
  intro s s0 t t0 r c d k1 k2 hidle herr hdisj hex hrun htidle hterr hdisj' hex' hrun' hridle hrerr i hi
    hbyte hfirst hsecond
  obtain ⟨-, -, -, -, -, -, -, htext, -⟩ :=
    encodeRunWritesTheHexText s s0 t c k1 hidle herr hdisj hex hrun htidle hterr
  obtain ⟨-, -, -, -, -, -, -, hback, -⟩ :=
    decodeRunWritesTheBytes
      { t with src := s.dst, dst := d, cnt := BitVec.ofNat 64 (2 * s.cnt.toNat) } t0 r k2
      htidle hterr hdisj' hex' hrun' hridle hrerr
  obtain ⟨hhigh, hlow⟩ := htext i hi hbyte
  have hraced : t.race.bytes = s.race.bytes := by
    obtain ⟨x, -, -, -, ht⟩ := macroRun_end rfl hidle hdisj hex hrun htidle hterr
    rw [ht]
    rfl
  have hcnt : (BitVec.ofNat 64 (2 * s.cnt.toNat)).toNat = 2 * s.cnt.toNat :=
    BitVec.toNat_ofNat .. ▸ Nat.mod_eq_of_lt (macroOutLen_lt hdisj)
  have hi' : i < (BitVec.ofNat 64 (2 * s.cnt.toNat)).toNat / 2 := by omega
  refine (hback i hi' (hraced ▸ hfirst) (hraced ▸ hsecond)).trans ?_
  show combine (hexval (t.mem.read (s.dst + BitVec.ofNat 64 (2 * i)).toNat))
    (hexval (t.mem.read (s.dst + BitVec.ofNat 64 (2 * i + 1)).toNat)) = _
  rw [hhigh, hlow, hexval_hexdigit, hexval_hexdigit, combine_nibbles]

/-- Two runs that read the same clean source have read the same bytes. -/
theorem eq_of_getD_eq {x y : List Byte} (hlen : x.length = y.length)
    (h : ∀ i, i < x.length → x.getD i 0#8 = y.getD i 0#8) : x = y := by
  refine List.ext_getElem hlen fun i hx hy => ?_
  rw [← List.getD_eq_getElem x 0#8 hx, ← List.getD_eq_getElem y 0#8 hy]
  exact h i hx

/-- Settles O55: both runs end in the state that what they read makes, and they read the same. -/
theorem widthAndMapperDoNotChangeTheResult : Obligations.WidthAndMapperDoNotChangeTheResult := by
  intro s s1 s2 t1 t2 i W m k1 k2 hmac hclean hidle herr hdisj hex1 hrun1 hidle1 herr1 hex2 hrun2 hidle2
    herr2
  obtain ⟨x, hx, hsx, hfx, ht1⟩ := macroRun_end hmac hidle hdisj hex1 hrun1 hidle1 herr1
  obtain ⟨y, hy, hsy, hfy, ht2⟩ := macroRun_end
    (s := { s with inst := { s.inst with width := W, mapper := m } }) hmac hidle hdisj hex2 hrun2 hidle2
    herr2
  have hxy : x = y := by
    refine eq_of_getD_eq (hx.trans hy.symm) fun j hj => ?_
    rw [hx] at hj
    exact (hsx j hj (hclean j hj)).trans (hsy j hj (hclean j hj)).symm
  rw [ht2, ht1, hfx hclean, hfy hclean, hxy]
  rfl

end Sys2Proof.Machine
end

section
/-! PROOFS. The micro-op sequences of R269 (spec/45_block_fsm.md): what loads, lane commands and stores that
meet no MEM_FAULT move, put together along each sequence, is what the unit step of the block moves. -/

namespace Sys2Proof.Machine

/-! ## Commands that meet no error -/

/-- No command clears an error. -/
theorem err_none_of_exec {i : Instr} {s t : State} (h : exec i s = .next t) (ht : t.err = .none) :
    s.err = .none := by
  rcases exec_cases i s with hu | ⟨_, _, hu⟩ | ⟨e, _, he, hu⟩ | ⟨_, _, _, hu⟩ | ⟨_, _, _, _, _, hu⟩ |
    ⟨_, hu⟩ | ⟨_, _, hu⟩ | ⟨_, _, hu⟩ <;>
  obtain rfl := Host.Outcome.next.inj (hu.symm.trans h)
  case inr.inr.inl => exact absurd ht he
  all_goals exact ht

theorem err_none_of_runCommands {is : List Instr} {s t : State} (h : runCommands is s = .next t)
    (ht : t.err = .none) : s.err = .none := by
  induction is generalizing s with
  | nil => exact Host.Outcome.next.inj h ▸ ht
  | cons i is ih =>
    obtain ⟨u, hu⟩ := exec_next i s
    rw [runCommands_cons hu] at h
    exact err_none_of_exec hu (ih h)

/-- The first command of a sequence that ends without error meets none. -/
theorem runCommands_cons_cases {i : Instr} {is : List Instr} {s t : State}
    (h : runCommands (i :: is) s = .next t) (ht : t.err = .none) :
    ∃ u, exec i s = .next u ∧ u.err = .none ∧ runCommands is u = .next t := by
  obtain ⟨u, hu⟩ := exec_next i s
  rw [runCommands_cons hu] at h
  exact ⟨u, hu, err_none_of_runCommands h ht, h⟩

theorem loadAtSrc_of_no_error {i : Instr} {n : Nat} {write : List Byte → State → State} {s t : State}
    (h : loadAtSrc i n write s = .next t) (ht : t.err = .none) :
    t = (write (s.unitBytes s.src n) (s.afterUnitRead s.src n)).advanceSrc n := by
  rcases loadAtSrc_cases i n write s with ⟨-, hu⟩ | ⟨-, hu⟩ <;>
  obtain rfl := Host.Outcome.next.inj (hu.symm.trans h)
  · rfl
  · cases ht

theorem storeAtDst_of_no_error {i : Instr} {d : List Byte} {s t : State}
    (h : storeAtDst i d s = .next t) (ht : t.err = .none) :
    t = (s.writeMem s.dst d).advanceDst d.length := by
  rcases storeAtDst_cases i d s with ⟨-, hu⟩ | ⟨-, hu⟩ <;>
  obtain rfl := Host.Outcome.next.inj (hu.symm.trans h)
  · rfl
  · cases ht

/-! ## What commands and blocks move -/

/-- From `s` to `t` the bytes `d` were written at DST, SRC moved on by `n` and DST by the length of `d`. -/
structure Moves (n : Nat) (d : List Byte) (s t : State) : Prop where
  inst : t.inst = s.inst
  bytes : t.race.bytes = s.race.bytes
  src : t.src = s.src + BitVec.ofNat 64 n
  dst : t.dst = s.dst + BitVec.ofNat 64 d.length
  mem : t.mem = s.mem.writeBytes s.dst d

section
variable {s t u : State} {n n' : Nat} {d d' : List Byte}

theorem Moves.lanes (h : Moves n d s t) : t.lanes = s.lanes := State.lanes_congr h.inst

theorem Moves.trans (h : Moves n d s t) (h' : Moves n' d' t u) : Moves (n + n') (d ++ d') s u where
  inst := h'.inst.trans h.inst
  bytes := h'.bytes.trans h.bytes
  src := by rw [h'.src, h.src, add_ofNat_add_ofNat]
  dst := by rw [h'.dst, h.dst, add_ofNat_add_ofNat, List.length_append]
  mem := by rw [h'.mem, h.mem, h.dst, Memory.writeBytes_append]

theorem OnlyLanesChanged.moves (h : OnlyLanesChanged s t) : Moves 0 [] s t := by
  rw [h]
  exact ⟨rfl, rfl, by simp, by simp, rfl⟩

variable {r : VReg}

theorem exec_ld_moves (h : exec (.ld r) s = .next t) (ht : t.err = .none) :
    Moves s.lanes [] s t ∧ ∀ i, i < s.lanes → t.lane r i = (s.unitBytes s.src s.lanes).getD i 0#8 := by
  obtain rfl := loadAtSrc_of_no_error ((exec_ld r s).symm.trans h) ht
  exact ⟨⟨rfl, rfl, rfl, (BitVec.add_zero s.dst).symm, rfl⟩, fun i hi => (s.loaded_writes s.lanes r).lanes i hi⟩

theorem exec_ldb_moves (h : exec (.ldb r) s = .next t) (ht : t.err = .none) :
    Moves 1 [] s t ∧ t.lane r 0 = (s.unitBytes s.src 1).getD 0 0#8 ∧
      ∀ r' ≠ r, t.lane r' = s.lane r' := by
  obtain rfl := loadAtSrc_of_no_error ((exec_ldb r s).symm.trans h) ht
  exact ⟨⟨rfl, rfl, rfl, (BitVec.add_zero s.dst).symm, rfl⟩, (s.loaded_writes 1 r).lanes 0 s.lanes_pos,
    fun _ hr => (s.loaded_writes 1 r).lane_other hr⟩

theorem exec_ld2_moves {r' : VReg} (hr : r ≠ r') (h : exec (.ld2 r r') s = .next t)
    (ht : t.err = .none) :
    Moves (2 * s.lanes) [] s t ∧ ∀ i, i < s.lanes →
      t.lane r i = (s.unitBytes s.src (2 * s.lanes)).getD (2 * i) 0#8 ∧
      t.lane r' i = (s.unitBytes s.src (2 * s.lanes)).getD (2 * i + 1) 0#8 := by
  obtain rfl := loadAtSrc_of_no_error ((exec_ld2_of_ne hr).symm.trans h) ht
  exact ⟨⟨rfl, rfl, rfl, (BitVec.add_zero s.dst).symm, rfl⟩, fun i hi =>
    ⟨(State.lane_setV_other _ _ hr i).trans (State.lane_setV_self _ r _ hi),
      State.lane_setV_self _ r' _ hi⟩⟩

theorem exec_st_moves (h : exec (.st r) s = .next t) (ht : t.err = .none) :
    Moves 0 (s.lanesOf r) s t ∧ ∀ r', t.lanesOf r' = s.lanesOf r' := by
  obtain rfl := storeAtDst_of_no_error (i := .st r) h ht
  exact ⟨⟨rfl, rfl, by simp, rfl, rfl⟩, fun _ => rfl⟩

theorem exec_stb_moves (h : exec (.stb r) s = .next t) (ht : t.err = .none) :
    Moves 0 [s.lane r 0] s t ∧ ∀ r', t.lane r' = s.lane r' := by
  obtain rfl := storeAtDst_of_no_error (i := .stb r) h ht
  exact ⟨⟨rfl, rfl, by simp, rfl, rfl⟩, fun _ => rfl⟩

/-- A block step that meets no MEM_FAULT moves its block. -/
theorem unitStep_moves_block (hn : s.Consumes n) (hc : n ≤ s.cnt.toNat)
    (htaint : s.race.tainted = false) (h : unitStep s = .next t) (ht : t.err = .none) :
    Moves n (s.blockFn (s.unitBytes s.src n)) s t := by
  obtain rfl := Host.Outcome.next.inj ((unitStep_consumes hn hc).symm.trans h)
  rcases moveBlock_cases n (s.mop.outLen n) s.blockFn s with ⟨-, hu⟩ | ⟨-, -, hu⟩ |
    ⟨-, -, d, k, -, hd, -, hu⟩ <;> rw [hu] at ht ⊢
  · cases ht
  · cases ht
  · rw [hd htaint]
    refine ⟨rfl, rfl, rfl, ?_, rfl⟩
    rw [State.blockFn, MOp.blockFn_length, State.unitBytes_length]

/-- A sequence that moves what the unit step of a run begun in `s` moves. -/
theorem sameBlock_of_moves {cmds : List Instr} {op : MOp} {c : CaseMode} {m : MState}
    (hn : (s.unraced op c m).Consumes n) (hc : n ≤ s.cnt.toNat)
    (hcmds : ∀ t, runCommands cmds s = .next t → t.err = .none →
      Moves n (op.blockFn c (s.unitBytes s.src n)) s t) :
    SameBlock cmds s (s.unraced op c m) := by
  intro t u ht hterr hu huerr
  have hseq := hcmds t ht hterr
  have hstep := unitStep_moves_block hn hc rfl hu huerr
  exact ⟨hseq.src.trans hstep.src.symm, hseq.dst.trans hstep.dst.symm,
    fun a => by rw [hseq.mem, hstep.mem]; rfl⟩

end

/-! ## The bytes of a register and of a read -/

theorem State.lanesOf_getD (s : State) (r : VReg) {i : Nat} (h : i < s.lanes) :
    (s.lanesOf r).getD i 0#8 = s.lane r i := by
  simp [State.lanesOf, List.getD, h]

/-- A read of one byte. -/
theorem State.unitBytes_one (s : State) (a : Addr) :
    s.unitBytes a 1 = [(s.unitBytes a 1).getD 0 0#8] :=
  eq_of_getD_eq (by simp) fun i hi => by
    obtain rfl : i = 0 := by simpa using hi
    rfl

/-- A clean read of two bytes. -/
theorem State.unitBytes_two_of_clean {s : State} {a : Addr} (h : s.cleanRange a 2) :
    s.unitBytes a 2 = [s.mem.read a.toNat, s.mem.read (a + 1#64).toNat] := by
  have h0 : a + BitVec.ofNat 64 0 = a := by simp
  rw [State.unitBytes_of_clean h]
  show [s.mem.read (a + BitVec.ofNat 64 0).toNat, s.mem.read (a + 1#64).toNat] = _
  rw [h0]

/-! ## ENC -/

/-- After interleaving and permuting, V5 then V6 hold the hex text of V0 (R215). -/
theorem runCommands_hexText {s : State} (h : s.inst.width ≠ .w1) (c : CaseMode) :
    ∃ t, runCommands ([.shri 1 0 4, .andi 2 0 0x0F#8, .n2a 1 1 c, .n2a 2 2 c] ++
        [.ilvlo 3 1 2, .ilvhi 4 1 2, .zipglo 5 3 4, .zipghi 6 3 4]) s = .next t ∧
      OnlyLanesChanged s t ∧ t.lanesOf 5 ++ t.lanesOf 6 = encBlock c (s.lanesOf 0) := by
  obtain ⟨t, et, ht, hdigits⟩ := runCommands_splitAndMap s c
  obtain ⟨u, eu, hu, htext⟩ := runCommands_interleaveAndZip (s := t) (ht.inst ▸ h)
  have hrest := ht.trans hu
  refine ⟨u, (runCommands_append et _).trans eu, hrest, List.ext_getElem? fun q => ?_⟩
  rcases Nat.lt_or_ge q (2 * s.lanes) with hq | hq
  · have hhalf : q / 2 < s.lanes := by omega
    have hlen : q < (encBlock c (s.lanesOf 0)).length := by simpa using hq
    obtain ⟨hhigh, hlow⟩ := hdigits _ hhalf
    obtain ⟨heven, hodd⟩ := encBlock_getD c (s.lanesOf 0) (i := q / 2) (by simpa using hhalf)
    rw [s.lanesOf_getD 0 hhalf] at heven hodd
    rw [htext q (ht.lanes.symm ▸ hq), List.getElem?_eq_getElem hlen, ← List.getD_eq_getElem _ 0#8 hlen,
      alternating]
    rcases Nat.mod_two_eq_zero_or_one q with hp | hp
    · rw [if_pos hp, hhigh, ← heven, show 2 * (q / 2) = q by omega]
    · rw [if_neg (by omega), hlow, ← hodd, show 2 * (q / 2) + 1 = q by omega]
  · rw [List.getElem?_eq_none (by simp [hrest.lanes]; omega), List.getElem?_eq_none (by simpa using hq)]

/-- R269, the ENC block at W >= 2. -/
theorem encBlockCommands_moves {s t : State} (hw : s.inst.width ≠ .w1) {c : CaseMode}
    (h : runCommands (encBlockCommands c) s = .next t) (ht : t.err = .none) :
    Moves s.lanes (encBlock c (s.unitBytes s.src s.lanes)) s t := by
  obtain ⟨s₁, e₁, err₁, h₁⟩ := runCommands_cons_cases h ht
  obtain ⟨m₁, hload⟩ := exec_ld_moves e₁ err₁
  obtain ⟨s₂, e₂, hlanes, htext⟩ := runCommands_hexText (m₁.inst ▸ hw : s₁.inst.width ≠ .w1) c
  have h₂ : runCommands [.st 5, .st 6] s₂ = .next t := (runCommands_append e₂ _).symm.trans h₁
  obtain ⟨s₃, e₃, err₃, h₃⟩ := runCommands_cons_cases h₂ ht
  obtain ⟨m₃, hsame⟩ := exec_st_moves e₃ err₃
  obtain ⟨s₄, e₄, err₄, h₄⟩ := runCommands_cons_cases h₃ ht
  obtain ⟨m₄, -⟩ := exec_st_moves e₄ err₄
  obtain rfl := Host.Outcome.next.inj h₄
  have hread : s₁.lanesOf 0 = s.unitBytes s.src s.lanes :=
    eq_of_getD_eq (by simp [m₁.lanes]) fun i hi => by
      rw [State.lanesOf_length] at hi
      rw [s₁.lanesOf_getD 0 hi, hload i (m₁.lanes ▸ hi)]
  have hall := ((m₁.trans hlanes.moves).trans m₃).trans m₄
  rw [hsame 6, List.append_nil, List.nil_append, htext, hread] at hall
  exact hall

/-- R269, one ENC element. -/
theorem encElementCommands_moves {s t : State} {c : CaseMode}
    (h : runCommands (encElementCommands c) s = .next t) (ht : t.err = .none) :
    Moves 1 (encBlock c (s.unitBytes s.src 1)) s t := by
  obtain ⟨s₁, e₁, err₁, h₁⟩ := runCommands_cons_cases h ht
  obtain ⟨m₁, hload, -⟩ := exec_ldb_moves e₁ err₁
  obtain ⟨s₂, e₂, hlanes, hdigits⟩ := runCommands_splitAndMap s₁ c
  have h₂ : runCommands [.stb 1, .stb 2] s₂ = .next t := (runCommands_append e₂ _).symm.trans h₁
  obtain ⟨s₃, e₃, err₃, h₃⟩ := runCommands_cons_cases h₂ ht
  obtain ⟨m₃, hsame⟩ := exec_stb_moves e₃ err₃
  obtain ⟨s₄, e₄, err₄, h₄⟩ := runCommands_cons_cases h₃ ht
  obtain ⟨m₄, -⟩ := exec_stb_moves e₄ err₄
  obtain rfl := Host.Outcome.next.inj h₄
  obtain ⟨hhigh, hlow⟩ := hdigits 0 s₁.lanes_pos
  have hall := ((m₁.trans hlanes.moves).trans m₃).trans m₄
  rw [hsame 2, hhigh, hlow, hload] at hall
  rw [s.unitBytes_one]
  exact hall

/-! ## DEC -/

theorem exec_a2n_writes (vd va : VReg) (s : State) : ∃ t, exec (.a2n vd va) s = .next t ∧
    WritesLanes s t vd fun i => hexval (s.lane va i) :=
  ⟨_, rfl, (laneMap1_writes ..).congr fun _ => a2nByte_eq_hexval _⟩

theorem exec_cmb_writes (vd va vb : VReg) (s : State) : ∃ t, exec (.cmb vd va vb) s = .next t ∧
    WritesLanes s t vd fun i => combine (s.lane va i) (s.lane vb i) :=
  ⟨_, rfl, laneMap2_writes ..⟩

/-- V2 holds the bytes of the characters in V0 and V1. -/
theorem runCommands_combineValues (s : State) :
    ∃ t, runCommands [.a2n 0 0, .a2n 1 1, .cmb 2 0 1] s = .next t ∧ OnlyLanesChanged s t ∧
      ∀ i, i < s.lanes → t.lane 2 i = combine (hexval (s.lane 0 i)) (hexval (s.lane 1 i)) := by
  obtain ⟨t₁, e₁, w₁⟩ := exec_a2n_writes 0 0 s
  obtain ⟨t₂, e₂, w₂⟩ := exec_a2n_writes 1 1 t₁
  obtain ⟨t₃, e₃, w₃⟩ := exec_cmb_writes 2 0 1 t₂
  have h₁ : OnlyLanesChanged s t₁ := w₁.onlyLanesChanged
  have h₂ : OnlyLanesChanged s t₂ := h₁.trans w₂.onlyLanesChanged
  refine ⟨t₃, ?_, h₂.trans w₃.onlyLanesChanged, fun i hi => ?_⟩
  · rw [runCommands_cons e₁, runCommands_cons e₂, runCommands_cons e₃, runCommands]
  · rw [w₃.lanes i (h₂.lanes.symm ▸ hi), w₂.lanes i (h₁.lanes.symm ▸ hi), w₂.lane_other (by decide),
      w₁.lanes i hi, w₁.lane_other (by decide)]

/-- R269, the DEC block. -/
theorem decBlockCommands_moves {s t : State} (h : runCommands decBlockCommands s = .next t)
    (ht : t.err = .none) :
    Moves (2 * s.lanes) (decBlock (s.unitBytes s.src (2 * s.lanes))) s t := by
  obtain ⟨s₁, e₁, err₁, h₁⟩ := runCommands_cons_cases h ht
  obtain ⟨m₁, hload⟩ := exec_ld2_moves (by decide) e₁ err₁
  obtain ⟨s₂, e₂, hlanes, hbytes⟩ := runCommands_combineValues s₁
  have h₂ : runCommands [.st 2] s₂ = .next t := (runCommands_append e₂ _).symm.trans h₁
  obtain ⟨s₃, e₃, err₃, h₃⟩ := runCommands_cons_cases h₂ ht
  obtain ⟨m₃, -⟩ := exec_st_moves e₃ err₃
  obtain rfl := Host.Outcome.next.inj h₃
  have hlen : s₂.lanes = s.lanes := hlanes.lanes.trans m₁.lanes
  have hout : s₂.lanesOf 2 = decBlock (s.unitBytes s.src (2 * s.lanes)) :=
    eq_of_getD_eq (by simp [decBlock_length_two, hlen]) fun i hi => by
      rw [State.lanesOf_length, hlen] at hi
      obtain ⟨hfirst, hsecond⟩ := hload i hi
      rw [s₂.lanesOf_getD 2 (hlen.symm ▸ hi), hbytes i (m₁.lanes.symm ▸ hi), hfirst, hsecond,
        decBlock_getD _ (by simpa using hi)]
  have hall := (m₁.trans hlanes.moves).trans m₃
  rw [hout] at hall
  exact hall

/-- R269, one DEC pair. The second load finds the next byte, with no free value used up between. -/
theorem decPairCommands_moves {s t : State} (hclean : s.cleanRange s.src 2)
    (h : runCommands decPairCommands s = .next t) (ht : t.err = .none) :
    Moves 2 (decBlock (s.unitBytes s.src 2)) s t := by
  obtain ⟨s₁, e₁, err₁, h₁⟩ := runCommands_cons_cases h ht
  obtain ⟨m₁, hfirst, -⟩ := exec_ldb_moves e₁ err₁
  obtain ⟨s₂, e₂, err₂, h₂⟩ := runCommands_cons_cases h₁ ht
  obtain ⟨m₂, hsecond, hkept⟩ := exec_ldb_moves e₂ err₂
  obtain ⟨s₃, e₃, hlanes, hbytes⟩ := runCommands_combineValues s₂
  have h₃ : runCommands [.stb 2] s₃ = .next t := (runCommands_append e₃ _).symm.trans h₂
  obtain ⟨s₄, e₄, err₄, h₄⟩ := runCommands_cons_cases h₃ ht
  obtain ⟨m₄, -⟩ := exec_stb_moves e₄ err₄
  obtain rfl := Host.Outcome.next.inj h₄
  have hread₁ : s₂.lane 0 0 = s.mem.read s.src.toNat := by
    have h0 : s.src + BitVec.ofNat 64 0 = s.src := by simp
    rw [hkept 0 (by decide), hfirst, State.unitBytes_getD (by decide) (hclean 0 (by decide)), h0]
  have hread₂ : s₂.lane 1 0 = s.mem.read (s.src + 1#64).toNat := by
    have h1 : s₁.src + BitVec.ofNat 64 0 = s.src + 1#64 := by rw [m₁.src]; simp
    have hc : (s₁.src + BitVec.ofNat 64 0).toNat ∉ s₁.race.bytes := by
      rw [h1, m₁.bytes]
      exact hclean 1 (by decide)
    rw [hsecond, State.unitBytes_getD (by decide) hc, h1, m₁.mem]
    rfl
  have hout : [s₃.lane 2 0] = decBlock (s.unitBytes s.src 2) := by
    rw [hbytes 0 s₂.lanes_pos, hread₁, hread₂, State.unitBytes_two_of_clean hclean]
    rfl
  have hall := ((m₁.trans m₂).trans hlanes.moves).trans m₄
  rw [hout] at hall
  exact hall

/-- Settles O56: each sequence moves what its unit step moves: the same number of source bytes, and the
block function of them. -/
theorem microOpSequencesRealiseTheBlocks : Obligations.MicroOpSequencesRealiseTheBlocks := by
  intro s c _ _
  refine ⟨fun hw hc _ => ?_, fun hw hc _ => ?_, fun hc _ => ?_, fun hc _ => ?_, fun hc hclean => ?_⟩
  · exact sameBlock_of_moves (.inl ⟨rfl, (Nat.one_mul _).symm⟩) hc fun _ => encBlockCommands_moves hw
  · have hone : s.lanes = 1 := by rw [State.lanes, hw]; rfl
    have hn : (s.unraced .enc c .bulk).Consumes 1 := .inl ⟨rfl, by
      show 1 = 1 * s.lanes
      rw [hone]⟩
    exact sameBlock_of_moves hn hc fun _ => encElementCommands_moves
  · exact sameBlock_of_moves (.inr ⟨rfl, rfl⟩) hc fun _ => encElementCommands_moves
  · exact sameBlock_of_moves (.inl ⟨rfl, rfl⟩) hc fun _ => decBlockCommands_moves
  · exact sameBlock_of_moves (.inr ⟨rfl, rfl⟩) hc fun _ => decPairCommands_moves hclean

end Sys2Proof.Machine
end
